-- ==== Sys2Proof/Word.lean ====
section
/-! DEFINITION. The word types of SPCODEC-1 (00_scope.md R8, R9). -/

namespace Sys2Proof

/-- One byte of buffer RAM or of a data stream (R9: a field `[7:0]` is one byte). -/
abbrev Byte := BitVec 8

/-- The value of a 16-bit bus access, and WIDTH or HEIGHT (R8). -/
abbrev Half := BitVec 16

/-- A register, an address, a length or a count (R8: every register is 32 bits wide). -/
abbrev Word := BitVec 32

/-- A 24-bit RGB colour, R in bits [7:0], G in [15:8], B in [23:16] (10_state.md R48). -/
abbrev Rgb := BitVec 24

/-- A 2-bit palette index (30_encoding.md R129, R130). -/
abbrev Index := BitVec 2

/-- An offset inside the block's window of 0x0080_0000 = 2^23 bytes (20_memory.md R80); the base address
is the platform's (log 14). -/
abbrev WindowOffset := BitVec 23

end Sys2Proof
end

