-- ==== Sys2Proof/Config.lean ====
section
/-! DEFINITION. What an implementation of SPCODEC-1 fixes, and the values the spec leaves free. -/

namespace Sys2Proof

/-- The two implementation parameters (00_scope.md R6; 93 I1, I2 "the model takes the value as an
argument"). A state carries them and no step changes them, so a statement about every state is a
statement about every implementation (log 1). -/
structure Params where
  /-- `P_BUF_BYTES`: the size in bytes of the buffer RAM. -/
  bufBytes : Nat
  /-- `P_MAX_WIDTH`: the widest image, in pixels, of DITHER and ENC_GRAY. -/
  maxWidth : Nat
  deriving DecidableEq, Repr

/-- The values the spec's own vectors use (R6). DESIGN CHOICE (log 1): `State.reset` takes them. -/
def Params.vectors : Params := { bufBytes := 0x200000, maxWidth := 2048 }

/-- The value of an unspecified buffer byte: the DST bytes of an abandoned or hazarded job, and a
read of the running job's DST region (70_reset_and_hazards.md R361, R366, R367). A free value: it
has no body, so nothing can be proved of what it is (log 7). -/
opaque Config.freeByte : Nat → Byte

/-- The value of an unspecified result register after a hazarded completion (R366); a free value (log 7). -/
opaque Config.freeWord : Nat → Word

/-- The value of an unspecified flag after a hazarded completion (R366); a free value (log 7). -/
opaque Config.freeBit : Nat → Bool

/-- The number, among 0x00 to 0x06, of the error code of a hazarded completion (R366); a free value (log 7). -/
opaque Config.freeErrCode : Nat → Fin 7

end Sys2Proof
end

