-- ==== Sys2Proof/Syntax.lean ====
section
/-! DEFINITION. The commands of SPCODEC-1, one constructor for each row of the opcode table
(30_encoding.md R121, R137), and what a host can say to the block: bus accesses and the operations
of a host program (R134 to R136). -/

namespace Sys2Proof

/-- The commands. A command word holds no operand (R120); every operand is in the latched job (R125). -/
inductive Instr
  /-- `nop`, NOP (R290). -/
  | nop
  /-- `rle.enc`, RLE_ENC (R164). -/
  | rleEnc
  /-- `rle.dec`, RLE_DEC (R166). -/
  | rleDec
  /-- `pack`, PACK (R202). -/
  | pack
  /-- `unpack`, UNPACK (R203). -/
  | unpack
  /-- `qenc`, QENC (R232). -/
  | qenc
  /-- `qdec`, QDEC (R233). -/
  | qdec
  /-- `dither`, DITHER with OF = 0 (R269). -/
  | dither
  /-- `dither.idx`, DITHER with OF = 1 (R269). -/
  | ditherIdx
  /-- `enc.plane`, ENC_PLANE (R291). -/
  | encPlane
  /-- `dec.plane`, DEC_PLANE (R292). -/
  | decPlane
  /-- `enc.gray`, ENC_GRAY (R293). -/
  | encGray
  deriving DecidableEq, Repr

/-- The registers of the register map (10_state.md); reserved slots are none of them. -/
inductive Reg
  | id | ctrl | status | cmd
  | srcAddr | srcLen | dstAddr | dstCap | pixcnt | geom
  | outLen | inUsed | clsCount | clsFirst | errPos
  | palEnc0 | palEnc1 | palEnc2
  | palDec0 | palDec1 | palDec2 | palDec3
  deriving DecidableEq, Repr

/-- The widths a bus access can have (20_memory.md R82, R83). -/
inductive BusWidth
  | w8 | w16 | w32
  deriving DecidableEq, Repr

/-- A value on the bus, with its width (log 15). -/
inductive BusData
  | byte (v : Byte)
  | half (v : Half)
  | word (v : Word)
  deriving DecidableEq, Repr

/-- One bus transaction `(kind, window offset, width, data)` (30_encoding.md R136). -/
inductive HostAccess
  | read (off : WindowOffset) (width : BusWidth)
  | write (off : WindowOffset) (data : BusData)
  deriving DecidableEq, Repr

/-- What a host has left to do on the bus: one access, or the `wait` loop, which repeats a read of
STATUS until BUSY reads 0 (R134, R136). -/
inductive BusOp
  | access (a : HostAccess)
  | wait
  deriving DecidableEq, Repr

/-- A register operand of a host-program line: a name, or an offset `@0x0NN` (R134). -/
inductive RegRef
  | named (r : Reg)
  | offset (off : BitVec 8)
  deriving DecidableEq, Repr

/-- The word operand of a `cmd` line: a mnemonic, or `raw` (R134, R137). -/
inductive CmdRef
  | mnemonic (i : Instr)
  | raw (w : Word)
  deriving DecidableEq, Repr

/-- One operation of a host program (R134), as data; its text form is notation (log 16). Buffer
addresses are buffer offsets. -/
inductive HostOp
  | wr (r : RegRef) (v : Word)
  | rd (r : RegRef)
  | wrb (addr : Nat) (bytes : List Byte)
  | rdb (addr n : Nat)
  | cmd (m : CmdRef)
  | wait
  deriving DecidableEq, Repr

/-- The pseudo-operations of a host program (R135). -/
inductive PseudoOp
  | run (m : CmdRef) (src slen dst cap : Word)
  | runn (m : CmdRef) (src slen dst cap n : Word)
  | rung (m : CmdRef) (src slen dst cap : Word) (w h : Half)
  | ack
  | srst
  | irqon
  deriving DecidableEq, Repr

end Sys2Proof
end

