-- ==== Sys2Proof/WellFormed.lean ====
section
/-! DEFINITION. Which parameters, command words and host-program operations the spec allows. -/

namespace Sys2Proof

/-- The legal parameter values (00_scope.md R6). -/
def Params.legal (p : Params) : Bool :=
  decide (1 ≤ p.bufBytes) && decide (p.bufBytes ≤ 0x400000) &&
  decide (1 ≤ p.maxWidth) && decide (p.maxWidth ≤ 65535)

/-- A command has no operand field (R120), so there is nothing a constructor of `Instr` could carry
that the spec does not allow. -/
def Instr.wf (_ : Instr) : Bool := true

/-- A legal command word: RSVD is zero, the opcode is at most 0x0A, and OF is set only with opcode
0x07 (30_encoding.md R120, R122 to R124). -/
def legalWord (w : Word) : Bool :=
  decide (w.toNat < 512) && decide (w.toNat % 256 ≤ 10) &&
  (decide (w.toNat < 256) || decide (w.toNat % 256 = 7))

/-- A register operand names a register, or a word-aligned slot of the register space (R82, R134). -/
def RegRef.wf : RegRef → Bool
  | .named _ => true
  | .offset off => decide (off.toNat % 4 = 0)

/-- A buffer operand stays in the window's buffer half, 0x0040_0000 to 0x007F_FFFF (20_memory.md R80). -/
def HostOp.wf : HostOp → Bool
  | .wr r _ => r.wf
  | .rd r => r.wf
  | .wrb addr bytes => decide (addr + bytes.length ≤ 0x400000)
  | .rdb addr n => decide (addr + n ≤ 0x400000)
  | .cmd _ => true
  | .wait => true

end Sys2Proof
end

