-- ==== Sys2Proof/Decode.lean ====
section
/-! DEFINITION. The command decoder and encoder (30_encoding.md R120 to R124, R137). -/

namespace Sys2Proof

/-- Why a command word is illegal: the three checks of R123, in their order. -/
inductive Illegal
  /-- `w[31:9] != 0`. -/
  | reservedBits
  /-- `OPC > 0x0A`. -/
  | reservedOpcode
  /-- `OF == 1 and OPC != 0x07`. -/
  | formatBit
  deriving DecidableEq, Repr

/-- `OPC = w[7:0]` (R120). -/
def cmdOpc (w : Word) : Byte := w.extractLsb' 0 8

/-- `OF = w[8]` (R120). -/
def cmdOf (w : Word) : Bool := w.getLsbD 8

/-- `RSVD = w[31:9]` (R120). -/
def cmdRsvd (w : Word) : BitVec 23 := w.extractLsb' 9 23

/-- The opcode map (R121): the command of an opcode and an OF bit. -/
def commandOf (opc : Nat) (ofBit : Bool) : Option Instr :=
  match opc, ofBit with
  | 0x00, false => some .nop
  | 0x01, false => some .rleEnc
  | 0x02, false => some .rleDec
  | 0x03, false => some .pack
  | 0x04, false => some .unpack
  | 0x05, false => some .qenc
  | 0x06, false => some .qdec
  | 0x07, false => some .dither
  | 0x07, true => some .ditherIdx
  | 0x08, false => some .encPlane
  | 0x09, false => some .decPlane
  | 0x0A, false => some .encGray
  | _, _ => none

/-- `Decode(w)` (R123), total on every word (R124). -/
def decode (w : Word) : Except Illegal Instr :=
  if cmdRsvd w ≠ 0 then .error .reservedBits
  else if 0x0A < (cmdOpc w).toNat then .error .reservedOpcode
  else
    match commandOf (cmdOpc w).toNat (cmdOf w) with
    | some i => .ok i
    | none => .error .formatBit

/-- The word of each mnemonic (R137), the inverse of `decode`. -/
def encode : Instr → Word
  | .nop => 0x00000000
  | .rleEnc => 0x00000001
  | .rleDec => 0x00000002
  | .pack => 0x00000003
  | .unpack => 0x00000004
  | .qenc => 0x00000005
  | .qdec => 0x00000006
  | .dither => 0x00000007
  | .ditherIdx => 0x00000107
  | .encPlane => 0x00000008
  | .decPlane => 0x00000009
  | .encGray => 0x0000000A

/-- The mnemonic of each command (R137). -/
def Instr.mnemonic : Instr → String
  | .nop => "nop"
  | .rleEnc => "rle.enc"
  | .rleDec => "rle.dec"
  | .pack => "pack"
  | .unpack => "unpack"
  | .qenc => "qenc"
  | .qdec => "qdec"
  | .dither => "dither"
  | .ditherIdx => "dither.idx"
  | .encPlane => "enc.plane"
  | .decPlane => "dec.plane"
  | .encGray => "enc.gray"

/-- The decoder on a table word: a command is one 32-bit word (R120), so a longer one is refused
(log 13). -/
def decodeTableWord (nbits w : Nat) : Option Instr :=
  if nbits ≤ 32 ∧ w < 2 ^ 32 then (decode (BitVec.ofNat 32 w)).toOption else none

end Sys2Proof
end

