-- ==== Sys2Proof/Machine/State.lean ====
section
/-! DEFINITION. The state of SPCODEC-1 (10_state.md), the reasons a step can stop, and the state
after power-on reset (70_reset_and_hazards.md R360). -/

namespace Sys2Proof.Machine

/-- CTRL.TAILMODE (R23): how the last chunk of a split run is emitted. -/
inductive TailMode
  /-- 0: every chunk is an escape sequence. -/
  | escape
  /-- 1: a last chunk of 1 to 3 bytes of a non-255 run is emitted literally. -/
  | reclassify
  deriving DecidableEq, Repr

/-- The error codes the block writes (60_exceptions.md R321); codes 0x07 to 0xFF are never written (93 I6). -/
inductive ErrCode
  | none | illegalCmd | range | overlap | widthLimit | truncated | dstOverflow
  deriving DecidableEq, Repr

/-- The storage of CTRL (R22 to R25): bits [30:3] are reserved and bit 31 is a trigger that reads 0. -/
structure Ctrl where
  ieDone : Bool
  ieErr : Bool
  tailMode : TailMode
  deriving DecidableEq, Repr

/-- The storage of STATUS (R26 to R33), but for BUSY, which is the engine phase (log 11), and the
reserved bits, which read as 0. -/
structure Status where
  done : Bool
  err : Bool
  cls : Bool
  xs : Bool
  idxhi : Bool
  lost : Bool
  errcode : ErrCode
  deriving DecidableEq, Repr

/-- The six operand registers (R36 to R41). -/
structure Operands where
  srcAddr : Word
  srcLen : Word
  dstAddr : Word
  dstCap : Word
  pixcnt : Word
  geom : Word
  deriving DecidableEq, Repr

/-- The five result registers (R42 to R46). -/
structure Results where
  outLen : Word
  inUsed : Word
  clsCount : Word
  clsFirst : Word
  errPos : Word
  deriving DecidableEq, Repr

/-- The encoder palette PAL_ENC0 to PAL_ENC2; bits [31:24] are reserved and not stored (R48). -/
structure EncPalette where
  c0 : Rgb
  c1 : Rgb
  c2 : Rgb
  deriving DecidableEq, Repr

/-- The decoder palette PAL_DEC0 to PAL_DEC3; `c3` is the "unknown" sentinel (R50). -/
structure DecPalette where
  c0 : Word
  c1 : Word
  c2 : Word
  c3 : Word
  deriving DecidableEq, Repr

/-- A job: the record latched at acceptance (R54). OPC and OF are fields of `cmdw`. -/
structure Job where
  cmdw : Word
  src : Word
  slen : Word
  dst : Word
  cap : Word
  n : Word
  w : Half
  h : Half
  tail : TailMode
  pe : EncPalette
  pd : DecPalette
  hazard : Bool
  deriving DecidableEq, Repr

/-- The engine phase (R54). STATUS.BUSY is 1 exactly in `busy` (R26). -/
inductive Phase
  | idle
  | busy (job : Job)
  deriving DecidableEq, Repr

/-- The RLE encoder's run state (R56): the current byte value, the length so far of the piece of
the run not yet emitted (at most 255; 0 before the first byte), and whether the run has already
emitted a chunk. Scratch state that no program observes (log 3). -/
structure RleRun where
  value : Byte
  len : Nat
  chunked : Bool
  deriving DecidableEq, Repr

/-- The two agents (00_scope.md R5). -/
inductive Agent
  | host
  | engine
  deriving DecidableEq, Repr

/-- What the bus handed back for the latest host access (log 6). -/
inductive Response
  /-- No access has been made yet. -/
  | none
  /-- A write was carried out. -/
  | written
  /-- A read returned this value. -/
  | read (v : BusData)
  deriving DecidableEq, Repr

/-- Buffer RAM as the bytes that differ from what an unlisted address reads as, by rising offset
(`Memory.wf`). The keys are buffer offsets: `BUF[a]` is at window offset 0x0040_0000 + a (R80). -/
abbrev Memory := List Host.Cell

/-- Everything the spec gives the machine, and the model's own `host`, `sched`, `response` and `draws`. -/
structure State where
  /-- The implementation parameters; no step changes them (00_scope.md R6, log 1). -/
  params : Params
  ctrl : Ctrl
  status : Status
  /-- CMD: the last accepted word (R35). -/
  cmd : Word
  operands : Operands
  results : Results
  palEnc : EncPalette
  palDec : DecPalette
  /-- The buffer RAM (R53). -/
  mem : Memory
  phase : Phase
  /-- The dither error buffer: 2*P_MAX_WIDTH + 1 signed 16-bit entries (R55). -/
  ditherBuf : List (BitVec 16)
  rleRun : RleRun
  /-- The model's own: what the bus handed back for the latest host access (log 6). -/
  response : Response
  /-- The model's own: the bus operations still to come, in the one order of R95 (log 4),
  of all bus masters together (log 17). -/
  host : List BusOp
  /-- The model's own: which agent takes each step that comes while BUSY (R59, log 4). -/
  sched : List Agent
  /-- The model's own: the free values used up so far (log 7). -/
  draws : Nat
  deriving DecidableEq, Repr

/-- The bus errors (60_exceptions.md R320): a fault of the host access that changes no state. Safe:
the model stops where the spec says the run has no end state a claim can rely on (R372, log 8). -/
inductive Fault
  /-- Raised by a host access to an unmapped window offset (20_memory.md R81); safe. -/
  | unmapped
  /-- Raised by a register access that is not 32 bits wide and 4-byte aligned (R82); safe. -/
  | registerAccess
  /-- Raised by a buffer access that is not naturally aligned (R84); safe. -/
  | misaligned
  deriving DecidableEq, Repr

/-- The model refuses nothing: every word is accepted and has a defined outcome (R123, R320). -/
inductive Refusal
  /-- An instruction without a meaning in `exec`; no arm raises it. Safe. -/
  | notModelled (mnemonic : String)
  deriving DecidableEq, Repr

/-- The result registers at reset, and the values acceptance gives them (R42 to R46, R58). -/
def Results.accepted : Results :=
  { outLen := 0, inUsed := 0, clsCount := 0, clsFirst := 0xFFFFFFFF, errPos := 0 }

/-- Black, yellow, white (R49). -/
def EncPalette.reset : EncPalette := { c0 := 0x000000, c1 := 0x00FFFF, c2 := 0xFFFFFF }

/-- Opaque black, yellow, white, and white for the sentinel (R51). -/
def DecPalette.reset : DecPalette :=
  { c0 := 0xFF000000, c1 := 0xFF00FFFF, c2 := 0xFFFFFFFF, c3 := 0xFFFFFFFF }

/-- The state after power-on reset of an implementation with parameters `p`, when power-on has left
`ram` in the buffer RAM (R360: "every byte of the buffer RAM is unspecified"). The scratch state
(`ditherBuf`, `rleRun`) is unspecified too and never read before it is set: DESIGN CHOICE, zero (log 3). -/
def State.powerOn (p : Params) (ram : Memory) : State where
  params := p
  ctrl := { ieDone := false, ieErr := false, tailMode := .escape }
  status := { done := false, err := false, cls := false, xs := false, idxhi := false, lost := false,
              errcode := .none }
  cmd := 0
  operands := { srcAddr := 0, srcLen := 0, dstAddr := 0, dstCap := 0, pixcnt := 0, geom := 0 }
  results := .accepted
  palEnc := .reset
  palDec := .reset
  mem := ram
  phase := .idle
  ditherBuf := List.replicate (2 * p.maxWidth + 1) 0
  rleRun := { value := 0, len := 0, chunked := false }
  response := .none
  host := []
  sched := []
  draws := 0

/-- The machine right after reset: the parameters of the spec's vectors (log 1) and a buffer RAM in
which nothing is listed (log 2). -/
def State.reset : State := State.powerOn Params.vectors []

end Sys2Proof.Machine
end

