-- ==== Sys2Proof/Machine/Memory.lean ====
section
/-! DEFINITION. The buffer RAM as a byte-addressed memory in one canonical form (20_memory.md R80, R83). -/

namespace Sys2Proof.Machine

/-- What a byte reads as that nothing has written and power-on has not listed. The spec leaves it
unspecified (10_state.md R53): DESIGN CHOICE 0x00 (log 2). -/
def Memory.unlisted : Byte := 0x00

/-- The byte at a buffer offset. -/
def Memory.read : Memory → Nat → Byte
  | [], _ => Memory.unlisted
  | (k, b) :: m, a => if k = a then b else Memory.read m a

/-- Write one byte, keeping the canonical form: keys rise, and no entry holds the unlisted value. -/
def Memory.write : Memory → Nat → Byte → Memory
  | [], a, v => if v = Memory.unlisted then [] else [(a, v)]
  | (k, b) :: m, a, v =>
    if k < a then (k, b) :: Memory.write m a v
    else if k = a then (if v = Memory.unlisted then m else (a, v) :: m)
    else if v = Memory.unlisted then (k, b) :: m
    else (a, v) :: (k, b) :: m

/-- Write consecutive bytes from `a` on, in order. -/
def Memory.writeBytes : Memory → Nat → List Byte → Memory
  | m, _, [] => m
  | m, a, b :: bs => Memory.writeBytes (Memory.write m a b) (a + 1) bs

/-- The `n` consecutive bytes from `a` on. -/
def Memory.readBytes (m : Memory) (a n : Nat) : List Byte :=
  (List.range n).map fun i => m.read (a + i)

/-- The canonical form: offsets strictly rising, and no entry equal to the unlisted value. -/
def Memory.wf : Memory → Bool
  | [] => true
  | (k, b) :: m => decide (b ≠ Memory.unlisted) && m.all (fun c => decide (k < c.1)) && Memory.wf m

/-- Every listed offset lies in a buffer RAM of `n` bytes (R53). -/
def Memory.inside (m : Memory) (n : Nat) : Bool := m.all fun c => decide (c.1 < n)

/-- The number of bytes of a bus access. -/
def widthBytes : BusWidth → Nat
  | .w8 => 1
  | .w16 => 2
  | .w32 => 4

/-- The width of a value on the bus. -/
def dataWidth : BusData → BusWidth
  | .byte _ => .w8
  | .half _ => .w16
  | .word _ => .w32

/-- The bytes of a bus value in buffer order: little-endian, `BUF[a]` is bits [7:0] (R83). -/
def dataBytes : BusData → List Byte
  | .byte v => [v]
  | .half v => [v.extractLsb' 0 8, v.extractLsb' 8 8]
  | .word v => [v.extractLsb' 0 8, v.extractLsb' 8 8, v.extractLsb' 16 8, v.extractLsb' 24 8]

/-- The bus value of the bytes `f 0, f 1, …` in buffer order: little-endian (R83). -/
def dataOfBytes (f : Nat → Byte) : BusWidth → BusData
  | .w8 => .byte (f 0)
  | .w16 => .half (f 1 ++ f 0)
  | .w32 => .word (f 3 ++ f 2 ++ f 1 ++ f 0)

end Sys2Proof.Machine
end

