-- ==== Sys2Proof/Machine/Flags.lean ====
section
/-! DEFINITION. CTRL and STATUS as words, every flag computation, and the interrupt output. -/

namespace Sys2Proof.Machine

/-- The value of STATUS.ERRCODE (60_exceptions.md R321). -/
def ErrCode.code : ErrCode → Byte
  | .none => 0x00
  | .illegalCmd => 0x01
  | .range => 0x02
  | .overlap => 0x03
  | .widthLimit => 0x04
  | .truncated => 0x05
  | .dstOverflow => 0x06

/-- The error code of a number 0 to 6 (R321, R366). -/
def ErrCode.ofNumber (k : Fin 7) : ErrCode :=
  match k.val with
  | 0 => .none
  | 1 => .illegalCmd
  | 2 => .range
  | 3 => .overlap
  | 4 => .widthLimit
  | 5 => .truncated
  | _ => .dstOverflow

/-- `ERR <- (ERRCODE != 0x00)` (10_state.md R59). -/
def errFlag (e : ErrCode) : Bool := decide (e ≠ .none)

/-- `STATUS.CLS <- (x[CLS_COUNT] > 0)` (R59). -/
def clsFlag (clsCount : Word) : Bool := decide (0 < clsCount.toNat)

/-- An index byte with bits [7:2] not zero (R31). -/
def highIndex (b : Byte) : Bool := decide (b.extractLsb' 2 6 ≠ 0)

/-- STATUS.BUSY is 1 exactly while a job is held (R26). -/
def Phase.isBusy : Phase → Bool
  | .idle => false
  | .busy _ => true

/-- TAILMODE as the bit CTRL[2] (R23). -/
def TailMode.bit : TailMode → Bool
  | .escape => false
  | .reclassify => true

/-- TAILMODE from the bit CTRL[2] (R23). -/
def TailMode.ofBit (b : Bool) : TailMode := if b then .reclassify else .escape

/-- CTRL as a host reads it: bit 31 and the reserved bits read 0 (R24, R25). -/
def Ctrl.word (c : Ctrl) : Word :=
  0#29 ++ BitVec.ofBool c.tailMode.bit ++ BitVec.ofBool c.ieErr ++ BitVec.ofBool c.ieDone

/-- CTRL after a host write with bit 31 = 0: bits [2:0] only (R24). -/
def Ctrl.ofWord (w : Word) : Ctrl :=
  { ieDone := w.getLsbD 0, ieErr := w.getLsbD 1, tailMode := .ofBit (w.getLsbD 2) }

/-- STATUS as a host reads it: the fields of the STATUS table, from bit 31 down to bit 0. -/
def Status.word (s : Status) (busy : Bool) : Word :=
  0#16 ++ s.errcode.code ++ 0#1 ++ BitVec.ofBool s.lost ++ BitVec.ofBool s.idxhi ++
    BitVec.ofBool s.xs ++ BitVec.ofBool s.cls ++ BitVec.ofBool s.err ++ BitVec.ofBool s.done ++
    BitVec.ofBool busy

/-- A host write of `w` to STATUS clears the bits among 1 to 6 that are 1 in `w` (R34). -/
def Status.clear (s : Status) (w : Word) : Status :=
  { s with
    done := s.done && !w.getLsbD 1
    err := s.err && !w.getLsbD 2
    cls := s.cls && !w.getLsbD 3
    xs := s.xs && !w.getLsbD 4
    idxhi := s.idxhi && !w.getLsbD 5
    lost := s.lost && !w.getLsbD 6 }

/-- STATUS at acceptance: every flag but LOST is cleared, and ERRCODE (R58). -/
def Status.atAcceptance (s : Status) : Status :=
  { done := false, err := false, cls := false, xs := false, idxhi := false, lost := s.lost,
    errcode := .none }

/-- STATUS at completion (R59 steps 4 to 6): DONE is set, ERR follows the code, LOST stays. -/
def Status.atCompletion (s : Status) (cls xs idxhi : Bool) (e : ErrCode) : Status :=
  { done := true, err := errFlag e, cls := cls, xs := xs, idxhi := idxhi, lost := s.lost,
    errcode := e }

/-- The interrupt output (R57): `(DONE AND IE_DONE) OR (ERR AND IE_ERR)`. -/
def State.irq (s : State) : Bool :=
  (s.status.done && s.ctrl.ieDone) || (s.status.err && s.ctrl.ieErr)

end Sys2Proof.Machine
end

