-- ==== Sys2Proof/Machine/Operands.lean ====
section
/-! DEFINITION. The operands of a command: the job latched at acceptance (10_state.md R54,
30_encoding.md R125, R126) and the regions it names (20_memory.md R87, R89). -/

namespace Sys2Proof.Machine

/-- WIDTH, `GEOM[15:0]` (R41). -/
def geomWidth (geom : Word) : Half := geom.extractLsb' 0 16

/-- HEIGHT, `GEOM[31:16]` (R41). -/
def geomHeight (geom : Word) : Half := geom.extractLsb' 16 16

/-- `latch(w)` (R54, R58): every operand, palette and TAILMODE is read here and only here (R99). -/
def latch (s : State) (w : Word) : Job where
  cmdw := w
  src := s.operands.srcAddr
  slen := s.operands.srcLen
  dst := s.operands.dstAddr
  cap := s.operands.dstCap
  n := s.operands.pixcnt
  w := geomWidth s.operands.geom
  h := geomHeight s.operands.geom
  tail := s.ctrl.tailMode
  pe := s.palEnc
  pd := s.palDec
  hazard := false

/-- The pixel count `W * H` of DITHER and ENC_GRAY, exact (R126). -/
def Job.area (j : Job) : Nat := j.w.toNat * j.h.toNat

/-- `ceil(n / 4)`, the packed length of `n` pixels (R129). -/
def packedLen (n : Nat) : Nat := (n + 3) / 4

/-- `Src(i) = MemRead(SRC + i, 1)` (R87). -/
def srcByte (m : Memory) (j : Job) (i : Nat) : Byte := m.read (j.src.toNat + i)

/-- The first `n` input bytes, `[Src(0), ..., Src(n - 1)]`. -/
def srcBytes (m : Memory) (j : Job) (n : Nat) : List Byte := m.readBytes j.src.toNat n

/-- `SrcRegionOk`, in exact integers (R89). -/
def srcRegionOk (p : Params) (j : Job) : Bool := decide (j.src.toNat + j.slen.toNat ≤ p.bufBytes)

/-- `DstRegionOk`, in exact integers (R89). -/
def dstRegionOk (p : Params) (j : Job) : Bool := decide (j.dst.toNat + j.cap.toNat ≤ p.bufBytes)

/-- `RegionsOverlap` (R89). -/
def regionsOverlap (j : Job) : Bool :=
  decide (0 < j.slen.toNat) && decide (0 < j.cap.toNat) &&
  decide (j.src.toNat < j.dst.toNat + j.cap.toNat) &&
  decide (j.dst.toNat < j.src.toNat + j.slen.toNat)

/-- Buffer byte `a` is in the job's SRC region `[SRC, SRC + SLEN)` (70_reset_and_hazards.md R365). -/
def inSrcRegion (j : Job) (a : Nat) : Bool :=
  decide (j.src.toNat ≤ a) && decide (a < j.src.toNat + j.slen.toNat)

/-- Buffer byte `a` is in the job's DST region `[DST, DST + CAP)` (R365). -/
def inDstRegion (j : Job) (a : Nat) : Bool :=
  decide (j.dst.toNat ≤ a) && decide (a < j.dst.toNat + j.cap.toNat)

/-- The number of bytes of the DST region that are inside the buffer RAM (R365, R366). -/
def dstInside (p : Params) (j : Job) : Nat :=
  min (j.dst.toNat + j.cap.toNat) p.bufBytes - j.dst.toNat

end Sys2Proof.Machine
end

