-- ==== Sys2Proof/Machine/Ops.lean ====
section
/-! DEFINITION. The operations every command and every host access share: acceptance, the prologue,
raising an error (the block's exception entry), completion, the outcome of a hazarded job, the
soft reset, and the register map. -/

namespace Sys2Proof.Machine

/-! ### What a command rule leaves behind -/

/-- What the pseudocode of a command rule leaves behind, for the completion step to carry out
(10_state.md R59). -/
structure Effects where
  /-- The bytes `Put`, at `DST`, `DST + 1`, ... (20_memory.md R88). -/
  out : List Byte
  /-- The result registers as the rule leaves them. -/
  results : Results
  xs : Bool
  idxhi : Bool
  errcode : ErrCode
  ditherBuf : List (BitVec 16)
  rleRun : RleRun
  deriving DecidableEq, Repr

/-- A rule that has done nothing yet: nothing is written and every result register keeps its value. -/
def Effects.start (s : State) : Effects where
  out := []
  results := s.results
  xs := false
  idxhi := false
  errcode := .none
  ditherBuf := s.ditherBuf
  rleRun := s.rleRun

/-- `raise E(info)` (60_exceptions.md R330): the one way a command takes an error. ERR_POS is written,
the code is set, and what the rule wrote before stays; the rest is the completion step's. -/
def Effects.raise (e : Effects) (code : ErrCode) (info : Nat) : Effects :=
  { e with
    errcode := code
    results := { e.results with errPos := if code = .truncated then BitVec.ofNat 32 info else 0 } }

/-- `raise`, if there is an error to raise. -/
def Effects.raise? (e : Effects) : Option (ErrCode × Nat) → Effects
  | none => e
  | some (code, info) => e.raise code info

/-! ### The prologue -/

/-- The arguments of `Prologue` (R329): `need` and `outsize` are exact integers, or NONE. -/
structure Checks where
  usesWidth : Bool
  need : Option Nat
  outsize : Option Nat

/-- Checks 2 to 6 of R329, in their order: the first that fails, with its `info`. -/
def prologue (p : Params) (j : Job) (c : Checks) : Option (ErrCode × Nat) :=
  if c.usesWidth ∧ p.maxWidth < j.w.toNat then some (.widthLimit, 0)
  else if !srcRegionOk p j || !dstRegionOk p j then some (.range, 0)
  else if regionsOverlap j then some (.overlap, 0)
  else if c.need.any (fun k => decide (j.slen.toNat < k)) then some (.truncated, j.slen.toNat)
  else if c.outsize.any (fun k => decide (j.cap.toNat < k)) then some (.dstOverflow, 0)
  else none

/-! ### Acceptance and completion -/

/-- Acceptance of the word `w` (10_state.md R58), legal or illegal. -/
def accept (w : Word) (s : State) : State :=
  { s with
    cmd := w
    status := s.status.atAcceptance
    results := .accepted
    phase := .busy (latch s w) }

/-- A host write of `w` to CMD (R35): accepted when IDLE (R58), dropped and recorded when BUSY (R60). -/
def presentCommand (w : Word) (s : State) : State :=
  match s.phase with
  | .idle => accept w s
  | .busy _ => { s with status := { s.status with lost := true } }

/-- Completion of a job (R59 steps 3 to 7), with an error or without. -/
def complete (s : State) (j : Job) (e : Effects) : State :=
  { s with
    mem := s.mem.writeBytes j.dst.toNat e.out
    results := e.results
    status := s.status.atCompletion (clsFlag e.results.clsCount) e.xs e.idxhi e.errcode
    phase := .idle
    ditherBuf := e.ditherBuf
    rleRun := e.rleRun }

/-- The completion step of one command rule. In IDLE the engine has no step enabled, so nothing
happens (R59, R61; log 10). -/
def runCommand (rule : State → Job → Effects) (s : State) :
    Host.Outcome State Fault Refusal :=
  match s.phase with
  | .idle => .next s
  | .busy j => .next (complete s j (rule s j))

/-- The completion of an illegal word (30_encoding.md R123, 60_exceptions.md R322). -/
def illegalCompletion (s : State) (j : Job) : State :=
  complete s j ((Effects.start s).raise .illegalCmd 0)

/-! ### Free values: hazards and the soft reset -/

/-- `n` free bytes, those numbered from `d` on. -/
def freeBytes (d n : Nat) : List Byte := (List.range n).map fun i => Config.freeByte (d + i)

/-- The result registers after a hazarded completion: any values (70_reset_and_hazards.md R366). -/
def freeResults (d : Nat) : Results where
  outLen := Config.freeWord d
  inUsed := Config.freeWord (d + 1)
  clsCount := Config.freeWord (d + 2)
  clsFirst := Config.freeWord (d + 3)
  errPos := Config.freeWord (d + 4)

/-- The completion of a hazarded job, instead of its command's rule (R366). DESIGN CHOICE (log 21): a DST
byte that is in the job's SRC region too, whose value R366 both draws and keeps, is free. -/
def hazardCompletion (s : State) (j : Job) : State :=
  { s with
    mem := s.mem.writeBytes j.dst.toNat (freeBytes s.draws (dstInside s.params j))
    results := freeResults s.draws
    status := s.status.atCompletion (Config.freeBit s.draws) (Config.freeBit (s.draws + 1))
      (Config.freeBit (s.draws + 2)) (.ofNumber (Config.freeErrCode s.draws))
    phase := .idle
    draws := s.draws + dstInside s.params j + 5 }

/-- How many bytes a soft reset leaves unspecified: the DST region of an abandoned job whose DST
region passes its check (R361). -/
def abandonedBytes (s : State) : Nat :=
  match s.phase with
  | .idle => 0
  | .busy j => if dstRegionOk s.params j then j.cap.toNat else 0

/-- The buffer RAM after a soft reset (R361): kept, but for the bytes of an abandoned DST region, those in
the job's SRC region too (log 21). -/
def softResetMem (s : State) : Memory :=
  match s.phase with
  | .idle => s.mem
  | .busy j => s.mem.writeBytes j.dst.toNat (freeBytes s.draws (abandonedBytes s))

/-- The soft reset (R24, R361): every register takes its power-on value, the engine is IDLE, and the
buffer RAM is not cleared. The host and its remaining accesses are outside the block (log 19). -/
def softReset (s : State) : State :=
  { State.powerOn s.params (softResetMem s) with
    response := s.response
    host := s.host
    sched := s.sched
    draws := s.draws + abandonedBytes s }

/-- A host write of `n` bytes at buffer offset `a` marks the running job hazarded when one of the
bytes is in its SRC or DST region (R364, R366). -/
def Phase.afterBufferWrite (ph : Phase) (a n : Nat) : Phase :=
  match ph with
  | .idle => .idle
  | .busy j =>
    .busy { j with
      hazard := j.hazard || (List.range n).any fun i => inSrcRegion j (a + i) || inDstRegion j (a + i) }

/-! ### The register map -/

/-- The offset of each register in the register space (10_state.md, register map). -/
def regOffset : Reg → BitVec 8
  | .id => 0x00
  | .ctrl => 0x04
  | .status => 0x08
  | .cmd => 0x0C
  | .srcAddr => 0x10
  | .srcLen => 0x14
  | .dstAddr => 0x18
  | .dstCap => 0x1C
  | .pixcnt => 0x20
  | .geom => 0x24
  | .outLen => 0x28
  | .inUsed => 0x2C
  | .clsCount => 0x30
  | .clsFirst => 0x34
  | .errPos => 0x38
  | .palEnc0 => 0x40
  | .palEnc1 => 0x44
  | .palEnc2 => 0x48
  | .palDec0 => 0x50
  | .palDec1 => 0x54
  | .palDec2 => 0x58
  | .palDec3 => 0x5C

/-- The register at an offset of the register space; `none` for a reserved slot (R20). -/
def regAt (off : Nat) : Option Reg :=
  match off with
  | 0x00 => some .id
  | 0x04 => some .ctrl
  | 0x08 => some .status
  | 0x0C => some .cmd
  | 0x10 => some .srcAddr
  | 0x14 => some .srcLen
  | 0x18 => some .dstAddr
  | 0x1C => some .dstCap
  | 0x20 => some .pixcnt
  | 0x24 => some .geom
  | 0x28 => some .outLen
  | 0x2C => some .inUsed
  | 0x30 => some .clsCount
  | 0x34 => some .clsFirst
  | 0x38 => some .errPos
  | 0x40 => some .palEnc0
  | 0x44 => some .palEnc1
  | 0x48 => some .palEnc2
  | 0x50 => some .palDec0
  | 0x54 => some .palDec1
  | 0x58 => some .palDec2
  | 0x5C => some .palDec3
  | _ => none

/-- The value of ID: "SP" and block revision 1 (R21). -/
def idValue : Word := 0x53500001

/-- What a host reads from a register; a read has no side effect (R86). -/
def readReg (s : State) : Reg → Word
  | .id => idValue
  | .ctrl => s.ctrl.word
  | .status => s.status.word s.phase.isBusy
  | .cmd => s.cmd
  | .srcAddr => s.operands.srcAddr
  | .srcLen => s.operands.srcLen
  | .dstAddr => s.operands.dstAddr
  | .dstCap => s.operands.dstCap
  | .pixcnt => s.operands.pixcnt
  | .geom => s.operands.geom
  | .outLen => s.results.outLen
  | .inUsed => s.results.inUsed
  | .clsCount => s.results.clsCount
  | .clsFirst => s.results.clsFirst
  | .errPos => s.results.errPos
  | .palEnc0 => s.palEnc.c0.setWidth 32
  | .palEnc1 => s.palEnc.c1.setWidth 32
  | .palEnc2 => s.palEnc.c2.setWidth 32
  | .palDec0 => s.palDec.c0
  | .palDec1 => s.palDec.c1
  | .palDec2 => s.palDec.c2
  | .palDec3 => s.palDec.c3

/-- A host write of `v` to CTRL (R24): a soft reset with bit 31, else bits [2:0]. -/
def writeCtrl (v : Word) (s : State) : State :=
  if v.getLsbD 31 then softReset s else { s with ctrl := .ofWord v }

/-- A host write of `v` to STATUS, which acknowledges a completion (R34, 60_exceptions.md R333): the
block's only "return" from an error. -/
def writeStatus (v : Word) (s : State) : State := { s with status := s.status.clear v }

/-- A host write of `v` to a register (10_state.md, register map); writes to ID and to the result
registers are ignored (R21, R47). -/
def writeReg (r : Reg) (v : Word) (s : State) : State :=
  match r with
  | .id => s
  | .ctrl => writeCtrl v s
  | .status => writeStatus v s
  | .cmd => presentCommand v s
  | .srcAddr => { s with operands := { s.operands with srcAddr := v } }
  | .srcLen => { s with operands := { s.operands with srcLen := v } }
  | .dstAddr => { s with operands := { s.operands with dstAddr := v } }
  | .dstCap => { s with operands := { s.operands with dstCap := v } }
  | .pixcnt => { s with operands := { s.operands with pixcnt := v } }
  | .geom => { s with operands := { s.operands with geom := v } }
  | .outLen => s
  | .inUsed => s
  | .clsCount => s
  | .clsFirst => s
  | .errPos => s
  | .palEnc0 => { s with palEnc := { s.palEnc with c0 := v.setWidth 24 } }
  | .palEnc1 => { s with palEnc := { s.palEnc with c1 := v.setWidth 24 } }
  | .palEnc2 => { s with palEnc := { s.palEnc with c2 := v.setWidth 24 } }
  | .palDec0 => { s with palDec := { s.palDec with c0 := v } }
  | .palDec1 => { s with palDec := { s.palDec with c1 := v } }
  | .palDec2 => { s with palDec := { s.palDec with c2 := v } }
  | .palDec3 => { s with palDec := { s.palDec with c3 := v } }

/-- What a host reads at a word slot of the register space; a reserved slot reads 0 (R20). -/
def readSlot (s : State) (off : Nat) : Word :=
  match regAt off with
  | some r => readReg s r
  | none => 0

/-- A host write at a word slot of the register space; a reserved slot ignores it (R20). -/
def writeSlot (off : Nat) (v : Word) (s : State) : State :=
  match regAt off with
  | some r => writeReg r v s
  | none => s

end Sys2Proof.Machine
end

