-- ==== Sys2Proof/Machine/Bus.lean ====
section
/-! DEFINITION. One host access: the window's address map, bus errors, register and buffer accesses,
and what the running job sees of them (20_memory.md R80 to R86, 70_reset_and_hazards.md R364 to R367). -/

namespace Sys2Proof.Machine

/-- What a window offset names (R80): a word slot of the register space, or buffer bytes. -/
inductive Target
  | slot (off : Nat)
  | buffer (a : Nat)
  deriving DecidableEq, Repr

/-- The target of an access of `n` bytes at window offset `off`, or its bus error (R80 to R84): an
access that would reach past the last buffer byte is unmapped (R83). Which error an access that has
two gets is log 8. -/
def busTarget (p : Params) (off n : Nat) : Except Fault Target :=
  if off < 0x100 then
    if n = 4 ∧ off % 4 = 0 then .ok (.slot off) else .error .registerAccess
  else if off < 0x400000 ∨ 0x400000 + p.bufBytes < off + n then .error .unmapped
  else if off % n ≠ 0 then .error .misaligned
  else .ok (.buffer (off - 0x400000))

/-- Buffer byte `a` is in the DST region of the running job (R367). -/
def beingWritten (s : State) (a : Nat) : Bool :=
  match s.phase with
  | .idle => false
  | .busy j => inDstRegion j a

/-- The byte a host read of buffer offset `a + i` returns: a free value in the running job's DST
region (R367), the byte there otherwise (log 18). DESIGN CHOICE (log 20): a byte that is in the job's
SRC region too, which R364 gives both ways, is free. -/
def hostReadByte (s : State) (a i : Nat) : Byte :=
  if beingWritten s (a + i) then Config.freeByte (s.draws + i) else s.mem.read (a + i)

/-- How many free values a host read of `n` bytes at buffer offset `a` uses up. -/
def readDraws (s : State) (a n : Nat) : Nat :=
  if (List.range n).any fun i => beingWritten s (a + i) then n else 0

/-- A host read of the buffer RAM (R83, R367): the bytes are not changed. -/
def readBuffer (s : State) (a : Nat) (w : BusWidth) : State :=
  { s with
    response := .read (dataOfBytes (hostReadByte s a) w)
    draws := s.draws + readDraws s a (widthBytes w) }

/-- A host write of the buffer RAM (R83): the write lands, and marks the running job when it touches
the job's regions (R364, R366). -/
def writeBuffer (s : State) (a : Nat) (d : BusData) : State :=
  { s with
    response := .written
    mem := s.mem.writeBytes a (dataBytes d)
    phase := s.phase.afterBufferWrite a (dataBytes d).length }

/-- A value on the bus as a register value; a register access carries a word (R82). -/
def dataWord : BusData → Word
  | .byte v => v.setWidth 32
  | .half v => v.setWidth 32
  | .word v => v

/-- The width of a host access. -/
def accessWidth : HostAccess → BusWidth
  | .read _ w => w
  | .write _ d => dataWidth d

/-- The window offset of a host access. -/
def accessOffset : HostAccess → WindowOffset
  | .read off _ => off
  | .write off _ => off

/-- What a host access does at its target. -/
def accessTarget (a : HostAccess) (t : Target) (s : State) : State :=
  match a, t with
  | .read _ _, .slot off => { s with response := .read (.word (readSlot s off)) }
  | .read _ w, .buffer b => readBuffer s b w
  | .write _ d, .slot off => { writeSlot off (dataWord d) s with response := .written }
  | .write _ d, .buffer b => writeBuffer s b d

/-- One host access: it faults with a bus error and changes no state (R320), or it is carried out. -/
def hostAccess (a : HostAccess) (s : State) : Host.Outcome State Fault Refusal :=
  match busTarget s.params (accessOffset a).toNat (widthBytes (accessWidth a)) with
  | .error f => .fault f
  | .ok t => .next (accessTarget a t s)

/-- One read of STATUS in the `wait` loop (30_encoding.md R134): the loop goes on while BUSY reads 1
(log 16). -/
def pollStatus (s : State) : State :=
  { s with
    response := .read (.word (readReg s .status))
    host := if (readReg s .status).getLsbD 0 then .wait :: s.host else s.host }

/-- One step of the host: `s` is the state with the operation taken off `host`. -/
def hostStep (op : BusOp) (s : State) : Host.Outcome State Fault Refusal :=
  match op with
  | .access a => hostAccess a s
  | .wait => .next (pollStatus s)

end Sys2Proof.Machine
end

