-- ==== Sys2Proof/Machine/Dither.lean ====
section
/-! DEFINITION. The Atkinson ditherer: DITHER (43_dither.md). -/

namespace Sys2Proof.Machine

/-! ### The per-pixel step -/

/-- The threshold 0.5 in units of 1/16 of a gray-code step (R260). -/
def threshold : Int := 2040

/-- Intensity 1.0 in the same units (R260). -/
def fullScale : Int := 4080

/-- The adjusted value `V` of a gray code and its accumulated error (R262). -/
def adjusted (g : Byte) (err : Int) : Int := 16 * (g.toNat : Int) + err

/-- The output bit: a value exactly at the threshold gives 1 (R263). -/
def outputBit (v : Int) : Bool := decide (threshold ≤ v)

/-- The diffused amount `q >>> 3 = floor(q / 8)` of the error `q = V - 4080*o` (R264, 00_scope.md R10). -/
def diffused (v : Int) : Int := Int.fdiv (v - if outputBit v then fullScale else 0) 8

/-- The neighbour mask (R265). -/
def neighbours : List (Int × Nat) := [(1, 0), (2, 0), (-1, 1), (0, 1), (1, 1), (0, 2)]

/-- The neighbour of `(x, y)` at `(dx, dy)` is inside the `w` by `h` image (R265). -/
def insideImage (w h x y : Nat) (dx : Int) (dy : Nat) : Bool :=
  decide (0 ≤ (x : Int) + dx) && decide ((x : Int) + dx < w) && decide (y + dy < h)

/-- Add `d` to the errors `E` of the neighbours of `(x, y)` that are inside the image; `E(x, y)` is
entry `y*w + x` (R265). -/
def diffuse (w h x y : Nat) (d : Int) (errs : List Int) : List Int :=
  neighbours.foldl
    (fun es nb =>
      if insideImage w h x y nb.1 nb.2 then
        es.modify ((y + nb.2) * w + ((x : Int) + nb.1).toNat) (· + d)
      else es)
    errs

/-- The pixels from linear position `i` on, in raster order (R261, R266). -/
def ditherFrom (w h : Nat) : List Byte → Nat → List Int → List Bool
  | [], _, _ => []
  | g :: gs, i, errs =>
    let v := adjusted g (errs.getD i 0)
    outputBit v :: ditherFrom w h gs (i + 1) (diffuse w h (i % w) (i / w) (diffused v) errs)

/-- `Dither(g, W, H)` (R266). -/
def dither (w h : Nat) (g : List Byte) : List Bool :=
  ditherFrom w h g 0 (List.replicate (w * h) 0)

/-! ### The sliding error buffer -/

/-- The offset of a neighbour in the sliding buffer (R267). -/
def slideOffset (w : Nat) (nb : Int × Nat) : Nat := ((nb.2 * w : Nat) + nb.1 : Int).toNat

/-- One step of the sliding form, but for the pop and the push: add `d` at the neighbours' offsets
(R267). Entries are signed 16-bit numbers (10_state.md R55). -/
def slideDiffuse (w h x y : Nat) (d : Int) (buf : List (BitVec 16)) : List (BitVec 16) :=
  neighbours.foldl
    (fun es nb =>
      if insideImage w h x y nb.1 nb.2 then es.modify (slideOffset w nb) (· + BitVec.ofInt 16 d)
      else es)
    buf

/-- The sliding-buffer form from linear position `i` on: the head of the buffer is the error of the
current pixel; after the step the head is popped and a zero is pushed at the tail (R267). The output
bits, and the buffer that is left. -/
def slideFrom (w h : Nat) : List Byte → Nat → List (BitVec 16) → List Bool × List (BitVec 16)
  | [], _, buf => ([], buf)
  | g :: gs, i, buf =>
    let v := adjusted g (buf.headD 0).toInt
    let after := slideDiffuse w h (i % w) (i / w) (diffused v) buf
    let later := slideFrom w h gs (i + 1) (after.tail ++ [0])
    (outputBit v :: later.1, later.2)

/-- The sliding form on a whole image, with a buffer of `2W + 1` entries cleared first (R55, R267). -/
def slideDither (w h : Nat) (g : List Byte) : List Bool × List (BitVec 16) :=
  slideFrom w h g 0 (List.replicate (2 * w + 1) 0)

/-- The dither error buffer a command leaves behind: the `2W + 1` entries it used, and the entries
it cleared when it started (R55, R267, log 3). -/
def finalDitherBuf (p : Params) (w h : Nat) (g : List Byte) : List (BitVec 16) :=
  (slideDither w h g).2 ++ List.replicate (2 * p.maxWidth - 2 * w) 0

/-! ### The commands -/

/-- The output byte of a dither bit (30_encoding.md R122, R133): the bit itself with OF = 0, the
palette index `2*o` with OF = 1. -/
def ditherByte (ofBit o : Bool) : Byte := if o then (if ofBit then 0x02 else 0x01) else 0x00

/-- The pseudocode of R269, with OF the bit of the command word. -/
def ditherRule (ofBit : Bool) (s : State) (j : Job) : Effects :=
  let nn := j.area
  match prologue s.params j { usesWidth := true, need := some nn, outsize := some nn } with
  | some err => (Effects.start s).raise err.1 err.2
  | none =>
    let g := srcBytes s.mem j nn
    let e := Effects.start s
    { e with
      out := (dither j.w.toNat j.h.toNat g).map (ditherByte ofBit)
      results := { e.results with outLen := BitVec.ofNat 32 nn, inUsed := BitVec.ofNat 32 nn }
      xs := decide (nn < j.slen.toNat)
      ditherBuf := finalDitherBuf s.params j.w.toNat j.h.toNat g }

/-- DITHER with OF = 0: output bits (R269). -/
def execDither (s : State) : Host.Outcome State Fault Refusal := runCommand (ditherRule false) s

/-- DITHER with OF = 1: palette indices (R269). -/
def execDitherIdx (s : State) : Host.Outcome State Fault Refusal := runCommand (ditherRule true) s

end Sys2Proof.Machine
end

