-- ==== Sys2Proof/Machine/BitPack.lean ====
section
/-! DEFINITION. The bit packer and unpacker: PACK and UNPACK (41_bitpack.md). -/

namespace Sys2Proof.Machine

/-- Four indices in one byte, lane `k` in bits [2k+1:2k] (20_memory.md R90). -/
def packByte (i0 i1 i2 i3 : Index) : Byte := i3 ++ i2 ++ i1 ++ i0

/-- `Pack(ix)` (R200): groups of four, the last one padded with index 0. -/
def pack : List Index → List Byte
  | [] => []
  | [i0] => [packByte i0 0 0 0]
  | [i0, i1] => [packByte i0 i1 0 0]
  | [i0, i1, i2] => [packByte i0 i1 i2 0]
  | i0 :: i1 :: i2 :: i3 :: rest => packByte i0 i1 i2 i3 :: pack rest

/-- The four lanes of a packed byte, in pixel order (R90). -/
def unpackByte (b : Byte) : List Index :=
  [b.extractLsb' 0 2, b.extractLsb' 2 2, b.extractLsb' 4 2, b.extractLsb' 6 2]

/-- `Unpack(bs, n)` (R201): the lanes of the first `ceil(n/4)` bytes, cut to `n`. -/
def unpack (bs : List Byte) (n : Nat) : List Index :=
  ((bs.take (packedLen n)).flatMap unpackByte).take n

/-- An index as an index byte, bits [7:2] zero (30_encoding.md R130). -/
def indexByte (i : Index) : Byte := i.setWidth 8

/-- The index in bits [1:0] of an index byte (R130). -/
def byteIndex (b : Byte) : Index := b.extractLsb' 0 2

/-- The pseudocode of R202. -/
def packRule (s : State) (j : Job) : Effects :=
  let n := j.n.toNat
  let m := packedLen n
  match prologue s.params j { usesWidth := false, need := some n, outsize := some m } with
  | some err => (Effects.start s).raise err.1 err.2
  | none =>
    let raw := srcBytes s.mem j n
    let e := Effects.start s
    { e with
      out := pack (raw.map byteIndex)
      results := { e.results with outLen := BitVec.ofNat 32 m, inUsed := BitVec.ofNat 32 n }
      xs := decide (n < j.slen.toNat)
      idxhi := raw.any highIndex }

/-- PACK (R202). -/
def execPack (s : State) : Host.Outcome State Fault Refusal := runCommand packRule s

/-- The pseudocode of R203. -/
def unpackRule (s : State) (j : Job) : Effects :=
  let n := j.n.toNat
  let m := packedLen n
  match prologue s.params j { usesWidth := false, need := some m, outsize := some n } with
  | some err => (Effects.start s).raise err.1 err.2
  | none =>
    let e := Effects.start s
    { e with
      out := (unpack (srcBytes s.mem j m) n).map indexByte
      results := { e.results with outLen := BitVec.ofNat 32 n, inUsed := BitVec.ofNat 32 m }
      xs := decide (m < j.slen.toNat) }

/-- UNPACK (R203). -/
def execUnpack (s : State) : Host.Outcome State Fault Refusal := runCommand unpackRule s

end Sys2Proof.Machine
end

