-- ==== Sys2Proof/Machine/Quant.lean ====
section
/-! DEFINITION. The colour quantizer: QENC and QDEC (42_quantizer.md). -/

namespace Sys2Proof.Machine

/-- What `Classify` answers: an index, and whether the colour matched (R230). -/
structure PixelClass where
  index : Index
  matched : Bool
  deriving DecidableEq, Repr

/-- The colour `r | (g << 8) | (b << 16)` (R230). -/
def rgbOf (r g b : Byte) : Rgb := b ++ g ++ r

/-- `Classify` (R230): an exact match on 24 bits, the lowest index first; a colour that matches none
gets index 0. -/
def classify (pe : EncPalette) (c : Rgb) : PixelClass :=
  if c = pe.c0 then { index := 0, matched := true }
  else if c = pe.c1 then { index := 1, matched := true }
  else if c = pe.c2 then { index := 2, matched := true }
  else { index := 0, matched := false }

/-- The colour of input pixel `i`; its alpha byte `Src(4i+3)` is not used (R232, 30_encoding.md R131). -/
def srcPixel (m : Memory) (j : Job) (i : Nat) : Rgb :=
  rgbOf (srcByte m j (4 * i)) (srcByte m j (4 * i + 1)) (srcByte m j (4 * i + 2))

/-- The classes of the first `n` input pixels, in order. -/
def classes (m : Memory) (j : Job) (n : Nat) : List PixelClass :=
  (List.range n).map fun i => classify j.pe (srcPixel m j i)

/-- The number of pixels that matched no canonical colour (10_state.md R44). -/
def mismatchCount (cs : List PixelClass) : Nat := cs.countP fun c => !c.matched

/-- The index of the first pixel that matched none, or 0xFFFF_FFFF (R45). -/
def firstMismatch (cs : List PixelClass) : Nat := (cs.findIdx? fun c => !c.matched).getD 0xFFFFFFFF

/-- The registers and the flag a classifying command sets for its `n` pixels (R232, 44_pipeline.md R291). -/
def classified (e : Effects) (j : Job) (n : Nat) (cs : List PixelClass) : Effects :=
  { e with
    results := { e.results with
      clsCount := BitVec.ofNat 32 (mismatchCount cs)
      clsFirst := BitVec.ofNat 32 (firstMismatch cs) }
    xs := decide (4 * n < j.slen.toNat) }

/-- The decoder colour of an index byte; any byte other than 0, 1 and 2 gives the sentinel (R231). -/
def decColour (pd : DecPalette) (b : Byte) : Word :=
  if b = 0 then pd.c0 else if b = 1 then pd.c1 else if b = 2 then pd.c2 else pd.c3

/-- `Expand(b)` (R231): R, G, B, A. -/
def expand (pd : DecPalette) (b : Byte) : List Byte :=
  let c := decColour pd b
  [c.extractLsb' 0 8, c.extractLsb' 8 8, c.extractLsb' 16 8, c.extractLsb' 24 8]

/-- The pseudocode of R232. -/
def qencRule (s : State) (j : Job) : Effects :=
  let n := j.n.toNat
  match prologue s.params j { usesWidth := false, need := some (4 * n), outsize := some n } with
  | some err => (Effects.start s).raise err.1 err.2
  | none =>
    let cs := classes s.mem j n
    let e := classified (.start s) j n cs
    { e with
      out := cs.map fun c => indexByte c.index
      results := { e.results with outLen := BitVec.ofNat 32 n, inUsed := BitVec.ofNat 32 (4 * n) } }

/-- QENC (R232). -/
def execQenc (s : State) : Host.Outcome State Fault Refusal := runCommand qencRule s

/-- The pseudocode of R233. -/
def qdecRule (s : State) (j : Job) : Effects :=
  let n := j.n.toNat
  match prologue s.params j { usesWidth := false, need := some n, outsize := some (4 * n) } with
  | some err => (Effects.start s).raise err.1 err.2
  | none =>
    let bs := srcBytes s.mem j n
    let e := Effects.start s
    { e with
      out := bs.flatMap (expand j.pd)
      results := { e.results with outLen := BitVec.ofNat 32 (4 * n), inUsed := BitVec.ofNat 32 n }
      xs := decide (n < j.slen.toNat)
      idxhi := bs.any highIndex }

/-- QDEC (R233). -/
def execQdec (s : State) : Host.Outcome State Fault Refusal := runCommand qdecRule s

end Sys2Proof.Machine
end

