-- ==== Sys2Proof/Machine/Rle.lean ====
section
/-! DEFINITION. The RLE codec: RLE_ENC and RLE_DEC (40_rle.md). -/

namespace Sys2Proof.Machine

/-- The escape value (00_scope.md R7). -/
def escapeByte : Byte := 0xFF

/-! ### The encoding function -/

/-- The runs of a byte list, in order: value and length (R160). -/
def runs : List Byte → List (Byte × Nat)
  | [] => []
  | b :: bs =>
    match runs bs with
    | [] => [(b, 1)]
    | (v, n) :: rs => if v = b then (v, n + 1) :: rs else (b, 1) :: (v, n) :: rs

/-- The escape sequence `[0xFF, count, value]` (30_encoding.md R127). -/
def escapeSeq (count : Nat) (v : Byte) : List Byte := [escapeByte, BitVec.ofNat 8 count, v]

/-- The last chunk of an escaped run, `r` bytes long, 1 to 255 (R162). -/
def tailChunk (tail : TailMode) (v : Byte) (r : Nat) : List Byte :=
  if tail = .reclassify ∧ v ≠ escapeByte ∧ r ≤ 3 then List.replicate r v else escapeSeq r v

/-- An escaped run of length `n`: `floor((n-1)/255)` chunks of 255 bytes and one last chunk (R162). -/
def escapedRun (tail : TailMode) (v : Byte) (n : Nat) : List Byte :=
  (List.replicate ((n - 1) / 255) (escapeSeq 255 v)).flatten ++
    tailChunk tail v (n - 255 * ((n - 1) / 255))

/-- The emission of one run: literal or escaped (R161). -/
def emitRun (tail : TailMode) (r : Byte × Nat) : List Byte :=
  if r.1 ≠ escapeByte ∧ r.2 ≤ 3 then List.replicate r.2 r.1 else escapedRun tail r.1 r.2

/-- `RleEncode(x, tail)` (R163). -/
def rleEncode (tail : TailMode) (x : List Byte) : List Byte := (runs x).flatMap (emitRun tail)

/-! ### The encoder's run state, byte by byte -/

/-- The run state when a command starts it (R56). -/
def RleRun.started : RleRun := { value := 0, len := 0, chunked := false }

/-- What is emitted for the piece held in the run state when its run ends (R56, R161, R162). -/
def RleRun.flush (tail : TailMode) (r : RleRun) : List Byte :=
  if r.len = 0 then []
  else if r.value ≠ escapeByte ∧ r.len ≤ 3 ∧ (r.chunked = false ∨ tail = .reclassify) then
    List.replicate r.len r.value
  else escapeSeq r.len r.value

/-- One input byte: what is emitted, and the run state after it (R56). -/
def RleRun.feed (tail : TailMode) (r : RleRun) (b : Byte) : List Byte × RleRun :=
  if r.len ≠ 0 ∧ r.value = b then
    if r.len < 255 then ([], { r with len := r.len + 1 })
    else (escapeSeq 255 b, { value := b, len := 1, chunked := true })
  else (r.flush tail, { value := b, len := 1, chunked := false })

/-- The encoder as a pass over its input with the run state of R56: its output, and the run state it
is left with. The output is that of `rleEncode` (log 3). -/
def rleStream (tail : TailMode) : RleRun → List Byte → List Byte × RleRun
  | r, [] => (r.flush tail, r)
  | r, b :: bs =>
    let now := r.feed tail b
    let later := rleStream tail now.2 bs
    (now.1 ++ later.1, later.2)

/-- The run state an encoder is left with after the input `x` (R56, log 3). -/
def finalRun (tail : TailMode) (x : List Byte) : RleRun := (rleStream tail .started x).2

/-! ### The decoding step -/

/-- A complete token of an RLE stream (30_encoding.md R127). -/
inductive Token
  | lit (b : Byte)
  | esc (count value : Byte)
  deriving DecidableEq, Repr

/-- The bytes a token decodes to (R127); an escape sequence with count 0 gives none (R167). -/
def Token.bytes : Token → List Byte
  | .lit b => [b]
  | .esc c v => List.replicate c.toNat v

/-- The length of a token in the stream (R128). -/
def Token.size : Token → Nat
  | .lit _ => 1
  | .esc _ _ => 3

/-- The tokens `NextToken` reads from a stream, and whether the stream ends inside an escape
sequence, `TRUNC`, or at a token boundary, `END` (R165). -/
def tokens : List Byte → List Token × Bool
  | [] => ([], false)
  | b :: rest =>
    if b = escapeByte then
      match rest with
      | c :: v :: rest' =>
        let later := tokens rest'
        (.esc c v :: later.1, later.2)
      | _ => ([], true)
    else
      let later := tokens rest
      (.lit b :: later.1, later.2)

/-- What a decoding loop has done when it stops: the bytes decoded, the offset `p` just past the last
token expanded, and the error to raise. -/
structure Decoded where
  out : List Byte
  used : Nat
  error : Option (ErrCode × Nat)
  deriving DecidableEq, Repr

/-- The loop of RLE_DEC (R166) on the tokens still to be read, at input offset `p` and output offset
`k`: TRUNCATED inside an escape sequence (R168), DST_OVERFLOW at output offset `cap` (R169). -/
def rleDecode (cap : Nat) (trunc : Bool) : List Token → Nat → Nat → Decoded
  | [], p, _ => { out := [], used := p, error := if trunc then some (.truncated, p) else none }
  | t :: ts, p, k =>
    if k + t.bytes.length ≤ cap then
      let later := rleDecode cap trunc ts (p + t.size) (k + t.bytes.length)
      { later with out := t.bytes ++ later.out }
    else { out := t.bytes.take (cap - k), used := p, error := some (.dstOverflow, 0) }

/-! ### The commands -/

/-- What the RLE encoders share once their input bytes `x` are known: the stream of `x`, cut to CAP
bytes, and DST_OVERFLOW when it is longer (R164, 44_pipeline.md R291, R293). -/
def encodeInto (e : Effects) (j : Job) (used : Nat) (x : List Byte) : Effects :=
  let out := rleEncode j.tail x
  let m := min out.length j.cap.toNat
  let done : Effects :=
    { e with
      out := out.take m
      results := { e.results with outLen := BitVec.ofNat 32 m, inUsed := BitVec.ofNat 32 used }
      rleRun := finalRun j.tail x }
  if j.cap.toNat < out.length then done.raise .dstOverflow 0 else done

/-- The pseudocode of R164. -/
def rleEncRule (s : State) (j : Job) : Effects :=
  match prologue s.params j { usesWidth := false, need := none, outsize := none } with
  | some err => (Effects.start s).raise err.1 err.2
  | none => encodeInto (.start s) j j.slen.toNat (srcBytes s.mem j j.slen.toNat)

/-- RLE_ENC (R164). -/
def execRleEnc (s : State) : Host.Outcome State Fault Refusal := runCommand rleEncRule s

/-- The pseudocode of R166. -/
def rleDecRule (s : State) (j : Job) : Effects :=
  match prologue s.params j { usesWidth := false, need := none, outsize := none } with
  | some err => (Effects.start s).raise err.1 err.2
  | none =>
    let toks := tokens (srcBytes s.mem j j.slen.toNat)
    let d := rleDecode j.cap.toNat toks.2 toks.1 0 0
    let e := Effects.start s
    let done : Effects :=
      { e with
        out := d.out
        results := { e.results with
          outLen := BitVec.ofNat 32 d.out.length, inUsed := BitVec.ofNat 32 d.used } }
    done.raise? d.error

/-- RLE_DEC (R166). -/
def execRleDec (s : State) : Host.Outcome State Fault Refusal := runCommand rleDecRule s

end Sys2Proof.Machine
end

