-- ==== Sys2Proof/Machine/Pipeline.lean ====
section
/-! DEFINITION. NOP and the fused pipeline commands (44_pipeline.md). -/

namespace Sys2Proof.Machine

/-- NOP has no prologue, no memory access and no result-register write (R290). -/
def nopRule (s : State) (_ : Job) : Effects := .start s

/-- NOP (R290). -/
def execNop (s : State) : Host.Outcome State Fault Refusal := runCommand nopRule s

/-- The pseudocode of R291. -/
def encPlaneRule (s : State) (j : Job) : Effects :=
  let n := j.n.toNat
  match prologue s.params j { usesWidth := false, need := some (4 * n), outsize := none } with
  | some err => (Effects.start s).raise err.1 err.2
  | none =>
    let cs := classes s.mem j n
    encodeInto (classified (.start s) j n cs) j (4 * n) (pack (cs.map PixelClass.index))

/-- ENC_PLANE (R291). -/
def execEncPlane (s : State) : Host.Outcome State Fault Refusal := runCommand encPlaneRule s

/-- What the loop of DEC_PLANE has when it stops: the packed bytes, the offset past the last token
read, whether that token had surplus bytes, and the error to raise. -/
structure Gathered where
  got : List Byte
  used : Nat
  surplus : Bool
  error : Option (ErrCode × Nat)
  deriving DecidableEq, Repr

/-- The loop of DEC_PLANE (R292) on the tokens still to be read, at input offset `p`, with `k` packed
bytes decoded of the `m` wanted: it stops as soon as it has them, and drops surplus bytes. A stream
of `slen` bytes that ends first is TRUNCATED: at a token boundary at `slen`, inside an escape
sequence at its 0xFF byte. -/
def gather (m slen : Nat) (trunc : Bool) : List Token → Nat → Nat → Bool → Gathered
  | [], p, k, surplus =>
    { got := [], used := p, surplus := surplus
      error := if m ≤ k then none else some (.truncated, if trunc then p else slen) }
  | t :: ts, p, k, surplus =>
    if m ≤ k then { got := [], used := p, surplus := surplus, error := none }
    else
      let take := min t.bytes.length (m - k)
      let later := gather m slen trunc ts (p + t.size) (k + take) (decide (take < t.bytes.length))
      { later with got := t.bytes.take take ++ later.got }

/-- The pixels `WritePixels` writes for the packed bytes `got` of a plane of `n` pixels (R292). -/
def planePixels (pd : DecPalette) (n : Nat) (got : List Byte) : List Byte :=
  (unpack got (min n (4 * got.length))).flatMap fun i => expand pd (indexByte i)

/-- The pseudocode of R292. -/
def decPlaneRule (s : State) (j : Job) : Effects :=
  let n := j.n.toNat
  match prologue s.params j { usesWidth := false, need := none, outsize := some (4 * n) } with
  | some err => (Effects.start s).raise err.1 err.2
  | none =>
    let toks := tokens (srcBytes s.mem j j.slen.toNat)
    let d := gather (packedLen n) j.slen.toNat toks.2 toks.1 0 0 false
    let e := Effects.start s
    let done : Effects :=
      { e with
        out := planePixels j.pd n d.got
        results := { e.results with
          outLen := BitVec.ofNat 32 (4 * min n (4 * d.got.length)), inUsed := BitVec.ofNat 32 d.used } }
    match d.error with
    | some err => done.raise err.1 err.2
    | none => { done with xs := d.surplus || decide (d.used < j.slen.toNat) }

/-- DEC_PLANE (R292). -/
def execDecPlane (s : State) : Host.Outcome State Fault Refusal := runCommand decPlaneRule s

/-- The palette index `2*o` of a dither bit: black 0, white 2 (R293). -/
def ditherIndex (o : Bool) : Index := if o then 2 else 0

/-- The pseudocode of R293. -/
def encGrayRule (s : State) (j : Job) : Effects :=
  let nn := j.area
  match prologue s.params j { usesWidth := true, need := some nn, outsize := none } with
  | some err => (Effects.start s).raise err.1 err.2
  | none =>
    let g := srcBytes s.mem j nn
    let e := Effects.start s
    let e : Effects :=
      { e with
        xs := decide (nn < j.slen.toNat)
        ditherBuf := finalDitherBuf s.params j.w.toNat j.h.toNat g }
    encodeInto e j nn (pack ((dither j.w.toNat j.h.toNat g).map ditherIndex))

/-- ENC_GRAY (R293). -/
def execEncGray (s : State) : Host.Outcome State Fault Refusal := runCommand encGrayRule s

end Sys2Proof.Machine
end

