-- ==== Sys2Proof/Machine/Dispatch.lean ====
section
/-! DEFINITION. One arm for each command (30_encoding.md R121). -/

namespace Sys2Proof.Machine

def exec (i : Instr) (s : State) : Host.Outcome State Fault Refusal :=
  match i with
  | .nop => Sys2Proof.Machine.execNop s
  | .rleEnc => Sys2Proof.Machine.execRleEnc s
  | .rleDec => Sys2Proof.Machine.execRleDec s
  | .pack => Sys2Proof.Machine.execPack s
  | .unpack => Sys2Proof.Machine.execUnpack s
  | .qenc => Sys2Proof.Machine.execQenc s
  | .qdec => Sys2Proof.Machine.execQdec s
  | .dither => Sys2Proof.Machine.execDither s
  | .ditherIdx => Sys2Proof.Machine.execDitherIdx s
  | .encPlane => Sys2Proof.Machine.execEncPlane s
  | .decPlane => Sys2Proof.Machine.execDecPlane s
  | .encGray => Sys2Proof.Machine.execEncGray s

end Sys2Proof.Machine
end

