-- ==== Sys2Proof/Machine/Engine.lean ====
section
/-! DEFINITION. The engine's completion step, and which agent moves next (10_state.md R59, R61). -/

namespace Sys2Proof.Machine

/-- The completion step of a job (R59): the hazard outcome (R366), ILLEGAL_CMD for an illegal word
(30_encoding.md R123), or the command's rule. -/
def engineStep (j : Job) (s : State) : Host.Outcome State Fault Refusal :=
  if j.hazard then .next (hazardCompletion s j)
  else
    match decode j.cmdw with
    | .error _ => .next (illegalCompletion s j)
    | .ok i => exec i s

/-- Who takes the next step. -/
inductive Mover
  /-- IDLE and no host access to come: the block waits (70_reset_and_hazards.md R360, log 5). -/
  | nobody
  /-- The host makes `op`. -/
  | host (op : BusOp)
  /-- The engine completes its job. -/
  | engine (j : Job)
  deriving DecidableEq, Repr

/-- Who takes the next step, and the state in which they take it (log 4). IDLE: the host, if it has
an access to make. BUSY: both agents have a step enabled, and `sched` says which one moves; when it
says nothing, or the host has nothing to do, the engine completes (R59, R371). -/
def nextMover (s : State) : Mover × State :=
  match s.phase with
  | .idle =>
    match s.host with
    | [] => (.nobody, s)
    | op :: rest => (.host op, { s with host := rest })
  | .busy j =>
    match s.sched, s.host with
    | .host :: later, op :: rest => (.host op, { s with sched := later, host := rest })
    | _, _ => (.engine j, { s with sched := s.sched.tail })

/-- The state in which the command word `w` has just been accepted (R58) and the engine moves next:
what a host write of `w` to CMD leads to in IDLE. -/
def present (w : Word) (s : State) : State :=
  { accept w s with sched := .engine :: s.sched }

end Sys2Proof.Machine
end

