-- ==== Sys2Proof/Machine/Step.lean ====
section
/-! DEFINITION. One step of the machine (00_scope.md R5, 20_memory.md R95): a host access or an
engine completion. -/

namespace Sys2Proof.Machine

/-- One step: the agent `nextMover` names makes its move. -/
def step (s : State) : Host.Outcome State Fault Refusal :=
  match nextMover s with
  | (.nobody, s') => .next s'
  | (.host op, s') => hostStep op s'
  | (.engine j, s') => engineStep j s'

/-- The block fetches nothing (10_state.md R61): a command runs because its word was accepted. So
the word is stored where the engine takes its command from, the job latched at acceptance, and the
very next step is the engine's completion of it (log 9). -/
def State.withFetchWord (s : State) (_nbits w : Nat) : State := present (BitVec.ofNat 32 w) s

end Sys2Proof.Machine
end

