-- ==== Sys2Proof/Machine/HostProgram.lean ====
section
/-! DEFINITION. Host programs as bus operations (30_encoding.md R134 to R137). -/

namespace Sys2Proof.Machine

/-- The window offset of a register operand (R134, R136). -/
def regRefOffset : RegRef → WindowOffset
  | .named r => (regOffset r).setWidth 23
  | .offset off => off.setWidth 23

/-- The window offset of buffer byte `a` (20_memory.md R80). -/
def bufferOffset (a : Nat) : WindowOffset := BitVec.ofNat 23 (0x400000 + a)

/-- The word of a `cmd` operand, `word(M)` (R137). -/
def cmdWord : CmdRef → Word
  | .mnemonic i => encode i
  | .raw w => w

/-- The byte writes of `wrb`, in order (R136). -/
def writeBytesOps (addr : Nat) : List Byte → List BusOp
  | [] => []
  | b :: bs => .access (.write (bufferOffset addr) (.byte b)) :: writeBytesOps (addr + 1) bs

/-- The bus transactions of one operation (R136). -/
def hostOpBus : HostOp → List BusOp
  | .wr r v => [.access (.write (regRefOffset r) (.word v))]
  | .rd r => [.access (.read (regRefOffset r) .w32)]
  | .wrb addr bytes => writeBytesOps addr bytes
  | .rdb addr n => (List.range n).map fun k => .access (.read (bufferOffset (addr + k)) .w8)
  | .cmd m => [.access (.write (regRefOffset (.named .cmd)) (.word (cmdWord m)))]
  | .wait => [.wait]

/-- The expansion of `run M, src, slen, dst, cap` (R135). -/
def runOps (m : CmdRef) (src slen dst cap : Word) : List HostOp :=
  [.wr (.named .srcAddr) src, .wr (.named .srcLen) slen, .wr (.named .dstAddr) dst,
   .wr (.named .dstCap) cap, .cmd m, .wait]

/-- The expansion of each pseudo-operation (R135). -/
def expandPseudo : PseudoOp → List HostOp
  | .run m src slen dst cap => runOps m src slen dst cap
  | .runn m src slen dst cap n => .wr (.named .pixcnt) n :: runOps m src slen dst cap
  | .rung m src slen dst cap w h => .wr (.named .geom) (h ++ w) :: runOps m src slen dst cap
  | .ack => [.wr (.named .status) 0x0000007E]
  | .srst => [.wr (.named .ctrl) 0x80000000]
  | .irqon => [.wr (.named .ctrl) 0x00000003]

/-- A host program as the list of bus operations it makes (R136). -/
def programBus (prog : List HostOp) : List BusOp := prog.flatMap hostOpBus

end Sys2Proof.Machine
end

