-- ==== Sys2Proof/Safety.lean ====
section
/-! DEFINITION. The terms claims about SPCODEC-1 use: the machine's invariant, what a dutiful host
does, when a run has ended, and what a finished command leaves behind. -/

namespace Sys2Proof.Machine

/-! ### The invariant -/

/-- While BUSY, STATUS shows no outcome yet: acceptance cleared it and only completion sets it
(10_state.md R27 to R31, R33). -/
abbrev Status.Clear (st : Status) : Prop :=
  st.done = false ∧ st.err = false ∧ st.cls = false ∧ st.xs = false ∧ st.idxhi = false ∧
    st.errcode = .none

/-- What every state of a run satisfies. -/
structure State.Inv (s : State) : Prop where
  /-- The parameters are legal (00_scope.md R6). -/
  params_legal : s.params.legal = true
  /-- The buffer RAM is in its canonical form. -/
  mem_wf : s.mem.wf = true
  /-- No byte outside `BUF[0 .. P_BUF_BYTES-1]` is listed (10_state.md R53). -/
  mem_inside : s.mem.inside s.params.bufBytes = true
  /-- The dither error buffer has 2*P_MAX_WIDTH + 1 entries (R55). -/
  dither_len : s.ditherBuf.length = 2 * s.params.maxWidth + 1
  /-- An error flag has an error code (R28, R33). -/
  err_code : s.status.err = true → s.status.errcode ≠ .none
  /-- While BUSY, STATUS shows no outcome yet. -/
  busy_status : ∀ j, s.phase = .busy j → s.status.Clear
  /-- While BUSY, every result register reads the value acceptance gave it (R47). -/
  busy_results : ∀ j, s.phase = .busy j → s.results = .accepted
  /-- CMD holds the word of the running job (R35, R60). -/
  busy_cmd : ∀ j, s.phase = .busy j → s.cmd = j.cmdw

/-! ### The host -/

/-- The accesses that get no bus error (20_memory.md R80 to R84): `n` bytes at window offset `off`. -/
abbrev LegalAccess (p : Params) (off n : Nat) : Prop :=
  (off < 0x100 ∧ n = 4 ∧ off % 4 = 0) ∨
    (0x400000 ≤ off ∧ off + n ≤ 0x400000 + p.bufBytes ∧ off % n = 0)

/-- One of the `n` buffer bytes from `a` on is in the running job's SRC or DST region (70 R365). -/
def touchesJob (s : State) (a n : Nat) : Prop :=
  ∃ j, s.phase = .busy j ∧ ∃ i < n, inSrcRegion j (a + i) = true ∨ inDstRegion j (a + i) = true

/-- One of the `n` buffer bytes from `a` on is in the running job's DST region (R367). -/
def touchesOutput (s : State) (a n : Nat) : Prop :=
  ∃ j, s.phase = .busy j ∧ ∃ i < n, inDstRegion j (a + i) = true

/-- The host's duties towards the running job (R368 duties 2 and 4) for one access. -/
def Dutiful (s : State) : HostAccess → Prop
  | .read off w => ¬ touchesOutput s (off.toNat - 0x400000) (widthBytes w) ∨ off.toNat < 0x400000
  | .write off d =>
    (off.toNat = 0x00C → s.phase = .idle) ∧
      (¬ touchesJob s (off.toNat - 0x400000) (widthBytes (dataWidth d)) ∨ off.toNat < 0x400000)

/-- A run has ended (R372): the host has done its last operation and the engine is IDLE. -/
abbrev State.Ended (s : State) : Prop := s.host = [] ∧ s.phase = .idle

/-! ### Commands -/

/-- A command is about to complete in a state of a run: its job is latched (R58). -/
abbrev Ready (s : State) (j : Job) : Prop := s.phase = .busy j ∧ s.Inv

/-- Both regions lie in the buffer RAM, in exact integers (R89). -/
abbrev InRam (p : Params) (j : Job) : Prop :=
  j.src.toNat + j.slen.toNat ≤ p.bufBytes ∧ j.dst.toNat + j.cap.toNat ≤ p.bufBytes

/-- Both regions are non-empty and share a byte (R89, R324). -/
abbrev Overlap (j : Job) : Prop :=
  0 < j.slen.toNat ∧ 0 < j.cap.toNat ∧ j.src.toNat < j.dst.toNat + j.cap.toNat ∧
    j.dst.toNat < j.src.toNat + j.slen.toNat

/-- The checks 2 to 6 of 60_exceptions.md R329 that a job fails. -/
abbrev FailsWidth (p : Params) (j : Job) (c : Checks) : Prop :=
  c.usesWidth = true ∧ p.maxWidth < j.w.toNat
/-- The input is known to be too short (R325, precheck). -/
abbrev FailsNeed (j : Job) (c : Checks) : Prop := ∃ k ∈ c.need, j.slen.toNat < k
/-- The output is known not to fit (R327, precheck). -/
abbrev FailsSize (j : Job) (c : Checks) : Prop := ∃ k ∈ c.outsize, j.cap.toNat < k

/-- `code` is the first error of the prologue, in the order of R329, and ERR_POS gets `pos`. -/
def FirstFailure (p : Params) (j : Job) (c : Checks) (code : ErrCode) (pos : Nat) : Prop :=
  match code with
  | .widthLimit => FailsWidth p j c ∧ pos = 0
  | .range => ¬ FailsWidth p j c ∧ ¬ InRam p j ∧ pos = 0
  | .overlap => ¬ FailsWidth p j c ∧ InRam p j ∧ Overlap j ∧ pos = 0
  | .truncated => ¬ FailsWidth p j c ∧ InRam p j ∧ ¬ Overlap j ∧ FailsNeed j c ∧ pos = j.slen.toNat
  | .dstOverflow =>
    ¬ FailsWidth p j c ∧ InRam p j ∧ ¬ Overlap j ∧ ¬ FailsNeed j c ∧ FailsSize j c ∧ pos = 0
  | .none => False
  | .illegalCmd => False

/-- Every check of the prologue passes. -/
abbrev Passes (p : Params) (j : Job) (c : Checks) : Prop :=
  ¬ FailsWidth p j c ∧ InRam p j ∧ ¬ Overlap j ∧ ¬ FailsNeed j c ∧ ¬ FailsSize j c

/-- The prologue arguments of each command, from its rule (R290, R325, R327); NOP has no prologue. -/
def commandChecks (i : Instr) (j : Job) : Option Checks :=
  match i with
  | .nop => none
  | .rleEnc => some { usesWidth := false, need := none, outsize := none }
  | .rleDec => some { usesWidth := false, need := none, outsize := none }
  | .pack => some { usesWidth := false, need := some j.n.toNat, outsize := some (packedLen j.n.toNat) }
  | .unpack => some { usesWidth := false, need := some (packedLen j.n.toNat), outsize := some j.n.toNat }
  | .qenc => some { usesWidth := false, need := some (4 * j.n.toNat), outsize := some j.n.toNat }
  | .qdec => some { usesWidth := false, need := some j.n.toNat, outsize := some (4 * j.n.toNat) }
  | .dither => some { usesWidth := true, need := some j.area, outsize := some j.area }
  | .ditherIdx => some { usesWidth := true, need := some j.area, outsize := some j.area }
  | .encPlane => some { usesWidth := false, need := some (4 * j.n.toNat), outsize := none }
  | .decPlane => some { usesWidth := false, need := none, outsize := some (4 * j.n.toNat) }
  | .encGray => some { usesWidth := true, need := some j.area, outsize := none }

/-- The errors a command may complete with (R331; ILLEGAL_CMD is the decoder's, not a command's). -/
def commandErrors : Instr → List ErrCode
  | .nop => []
  | .rleEnc => [.range, .overlap, .dstOverflow]
  | .rleDec => [.range, .overlap, .truncated, .dstOverflow]
  | .pack => [.range, .overlap, .truncated, .dstOverflow]
  | .unpack => [.range, .overlap, .truncated, .dstOverflow]
  | .qenc => [.range, .overlap, .truncated, .dstOverflow]
  | .qdec => [.range, .overlap, .truncated, .dstOverflow]
  | .dither => [.widthLimit, .range, .overlap, .truncated, .dstOverflow]
  | .ditherIdx => [.widthLimit, .range, .overlap, .truncated, .dstOverflow]
  | .encPlane => [.range, .overlap, .truncated, .dstOverflow]
  | .decPlane => [.range, .overlap, .truncated, .dstOverflow]
  | .encGray => [.widthLimit, .range, .overlap, .truncated, .dstOverflow]

/-- No byte of the buffer RAM has changed. -/
def SameBytes (s t : State) : Prop := ∀ a, t.mem.read a = s.mem.read a

/-- No byte outside the `n` bytes from `a` on has changed. -/
def SameBytesOutside (s t : State) (a n : Nat) : Prop :=
  ∀ b, b < a ∨ a + n ≤ b → t.mem.read b = s.mem.read b

/-- The bytes from `a` on are `out`, and no other byte has changed. -/
def Stored (s t : State) (a : Nat) (out : List Byte) : Prop :=
  (∀ k (h : k < out.length), t.mem.read (a + k) = out[k]) ∧ SameBytesOutside s t a out.length

/-- STATUS after a completion, and the phase (R59): DONE is set, ERR and ERRCODE give `code`, the other
flags are as said, LOST is kept. -/
def Finished (s t : State) (code : ErrCode) (cls xs idxhi : Prop) : Prop :=
  t.phase = .idle ∧ t.status.done = true ∧ (t.status.err = true ↔ code ≠ .none) ∧
    t.status.errcode = code ∧ (t.status.cls = true ↔ cls) ∧ (t.status.xs = true ↔ xs) ∧
    (t.status.idxhi = true ↔ idxhi) ∧ t.status.lost = s.status.lost

/-- OUT_LEN, IN_USED, CLS_COUNT, CLS_FIRST and ERR_POS as numbers. -/
def ResultsAre (t : State) (outLen inUsed clsCount clsFirst errPos : Nat) : Prop :=
  t.results.outLen.toNat = outLen ∧ t.results.inUsed.toNat = inUsed ∧
    t.results.clsCount.toNat = clsCount ∧ t.results.clsFirst.toNat = clsFirst ∧
    t.results.errPos.toNat = errPos

/-- What an error of the prologue leaves (R329, R330): nothing written, the result registers at their
acceptance values but for ERR_POS, and the code. -/
def FailedCleanly (s t : State) (code : ErrCode) (pos : Nat) : Prop :=
  SameBytes s t ∧ ResultsAre t 0 0 0 0xFFFFFFFF pos ∧ Finished s t code False False False

/-- What a command that has a prologue does from every ready state: it completes; the first check
that fails, in order, is its outcome; and when all pass, `success` holds of the next state. -/
def CompletesWith (i : Instr) (success : State → Job → State → Prop) : Prop :=
  ∀ (s : State) (j : Job) (c : Checks), Ready s j → commandChecks i j = some c →
    ∃ t, exec i s = .next t ∧
      (∀ code pos, FirstFailure s.params j c code pos → FailedCleanly s t code pos) ∧
      (Passes s.params j c → success s j t)

/-- The RGB colour of pixel `i` of a bitmap at buffer offset `a` (30_encoding.md R131). -/
def rgbAt (m : Memory) (a i : Nat) : Rgb :=
  m.read (a + 4 * i + 2) ++ m.read (a + 4 * i + 1) ++ m.read (a + 4 * i)

/-- A colour that matches no canonical colour (10_state.md R29). -/
abbrev OffPalette (pe : EncPalette) (c : Rgb) : Prop := c ≠ pe.c0 ∧ c ≠ pe.c1 ∧ c ≠ pe.c2

/-- The bytes of a token in the stream (R127). -/
def Token.stream : Token → List Byte
  | .lit b => [b]
  | .esc c v => [0xFF, c, v]

/-- A literal token is not the escape value (R127). -/
def Token.legal : Token → Bool
  | .lit b => decide (b ≠ 0xFF)
  | .esc _ _ => true

/-- The stream of a token list, back to back (R127). -/
def streamOf (ts : List Token) : List Byte := ts.flatMap Token.stream

/-- The bytes a token list decodes to (R127). -/
def decodedOf (ts : List Token) : List Byte := ts.flatMap Token.bytes

/-- One or two bytes of an escape sequence: a stream that ends so ends inside a token (R168). -/
abbrev PartialEscape (rest : List Byte) : Prop := rest = [0xFF] ∨ ∃ c, rest = [0xFF, c]

/-- The input bytes of a job: its SRC region (R365). -/
def inputOf (s : State) (j : Job) : List Byte := s.mem.readBytes j.src.toNat j.slen.toNat

/-- The bytes a finished command has written: OUT_LEN bytes from DST on (10_state.md R42). -/
def outputOf (t : State) (j : Job) : List Byte := t.mem.readBytes j.dst.toNat t.results.outLen.toNat

/-- A command with job `j` has gone from `s` to `t` without an error. -/
abbrev Succeeds (i : Instr) (s : State) (j : Job) (t : State) : Prop :=
  Ready s j ∧ exec i s = .next t ∧ t.status.errcode = .none

/-- The errors `E` when the pixels `g` have been processed from linear position `i` on (R266). -/
def errorsAfter (w h : Nat) : List Byte → Nat → List Int → List Int
  | [], _, errs => errs
  | g :: gs, i, errs =>
    errorsAfter w h gs (i + 1)
      (diffuse w h (i % w) (i / w) (diffused (adjusted g (errs.getD i 0))) errs)

end Sys2Proof.Machine
end

