-- ==== Sys2Proof/Certificates/Slice0/Obligations.lean ====
section
/-! DEFINITION. The statements about SPCODEC-1, from the numbered rules of its spec. Each holds for
every implementation: a state carries its parameters (log 1). -/

open Sys2Proof Sys2Proof.Machine

/-! ## Encoding -/

/-- R121, R137: the word of every mnemonic, written out from the table, decodes to its command. -/
def Obligations.TableWordsDecodeToTheirCommands : Prop :=
  decode 0x00000000 = .ok .nop ∧ decode 0x00000001 = .ok .rleEnc ∧
  decode 0x00000002 = .ok .rleDec ∧ decode 0x00000003 = .ok .pack ∧
  decode 0x00000004 = .ok .unpack ∧ decode 0x00000005 = .ok .qenc ∧
  decode 0x00000006 = .ok .qdec ∧ decode 0x00000007 = .ok .dither ∧
  decode 0x00000107 = .ok .ditherIdx ∧ decode 0x00000008 = .ok .encPlane ∧
  decode 0x00000009 = .ok .decPlane ∧ decode 0x0000000A = .ok .encGray

/-- R120 to R124, R137: decoding and encoding are inverse, on every command and on all 2^32 words. -/
def Obligations.DecodeAndEncodeAgree : Prop :=
  (∀ i : Instr, i.wf = true → decode (encode i) = .ok i) ∧
  (∀ (w : Word) (i : Instr), decode w = .ok i → w = encode i)

/-- R123, R124: a word is illegal exactly when RSVD is not zero, OPC is above 0x0A, or OF is set with
an opcode other than 0x07. -/
def Obligations.IllegalWordsAreExactlyTheReservedOnes : Prop :=
  ∀ w : Word,
    ((∃ e, decode w = .error e) ↔
      (w.extractLsb' 9 23 ≠ 0 ∨ 0x0A < (w.extractLsb' 0 8).toNat ∨
        (w.getLsbD 8 = true ∧ w.extractLsb' 0 8 ≠ 0x07))) ∧
    ((∃ i, decode w = .ok i) ↔ legalWord w = true)

/-- R135, R136: the bus transactions of the pseudo-operations. -/
def Obligations.PseudoOperationsMakeTheirTransactions : Prop :=
  (∀ (m : CmdRef) (src slen dst cap : Word),
    programBus (expandPseudo (.run m src slen dst cap)) =
      [.access (.write 0x010 (.word src)), .access (.write 0x014 (.word slen)),
       .access (.write 0x018 (.word dst)), .access (.write 0x01C (.word cap)),
       .access (.write 0x00C (.word (cmdWord m))), .wait]) ∧
  (∀ (m : CmdRef) (src slen dst cap n : Word),
    programBus (expandPseudo (.runn m src slen dst cap n)) =
      .access (.write 0x020 (.word n)) :: programBus (expandPseudo (.run m src slen dst cap))) ∧
  (∀ (m : CmdRef) (src slen dst cap : Word) (w h : Half),
    programBus (expandPseudo (.rung m src slen dst cap w h)) =
      .access (.write 0x024 (.word ((h.setWidth 32 <<< 16) ||| w.setWidth 32))) ::
        programBus (expandPseudo (.run m src slen dst cap))) ∧
  programBus (expandPseudo .ack) = [.access (.write 0x008 (.word 0x0000007E))] ∧
  programBus (expandPseudo .srst) = [.access (.write 0x004 (.word 0x80000000))] ∧
  programBus (expandPseudo .irqon) = [.access (.write 0x004 (.word 0x00000003))]

/-! ## Steps -/

/-- R59: when the engine moves, the step of a job that is not hazarded is the meaning of the command
its word decodes to. Around it, `step` only takes the turn off the schedule (log 4). -/
def Obligations.StepRunsTheDecodedCommand : Prop :=
  ∀ (s : State) (j : Job) (i : Instr), s.phase = .busy j → j.hazard = false →
    decode j.cmdw = .ok i → (s.host = [] ∨ s.sched.head? ≠ some .host) →
    step s = exec i { s with sched := s.sched.tail }

/-- The model's own (log 9): a word stored by `withFetchWord` runs in the very next step, as the job
that acceptance would have latched. -/
def Obligations.FetchedWordRunsNext : Prop :=
  ∀ (s : State) (i : Instr),
    step (s.withFetchWord 32 (encode i).toNat) = exec i (accept (encode i) s)

/-- R95, R364 and log 4: when the host moves, the step is its access, with the operation taken off
`host`; while BUSY the turn is taken off the schedule too. -/
def Obligations.StepMakesTheHostsAccess : Prop :=
  ∀ (s : State) (op : BusOp) (rest : List BusOp), s.host = op :: rest →
    (s.phase = .idle → step s = hostStep op { s with host := rest }) ∧
    (∀ j later, s.phase = .busy j → s.sched = .host :: later →
      step s = hostStep op { s with host := rest, sched := later })

/-- R134, R86: a turn of the `wait` loop reads STATUS, which has no side effect, and the loop goes on exactly
while BUSY reads 1. That a turn is one step, which puts the loop back on the list `host`, is the
model's own form of the loop (logs 16 and 4). -/
def Obligations.WaitRepeatsWhileBusy : Prop :=
  ∀ s : State,
    hostStep .wait s = .next { s with
      response := .read (.word (s.status.word s.phase.isBusy))
      host := if s.phase = .idle then s.host else .wait :: s.host }

/-- R322, R123: every illegal word completes with ILLEGAL_CMD, whatever its operands: nothing is read or
written, the result registers keep their acceptance values, and no operand register, palette, CTRL or
parameter changes. -/
def Obligations.IllegalWordCompletesWithIllegalCmd : Prop :=
  ∀ (s : State) (j : Job), Ready s j → j.hazard = false →
    (s.host = [] ∨ s.sched.head? ≠ some .host) →
    (j.cmdw.extractLsb' 9 23 ≠ 0 ∨ 0x0A < (j.cmdw.extractLsb' 0 8).toNat ∨
      (j.cmdw.getLsbD 8 = true ∧ j.cmdw.extractLsb' 0 8 ≠ 0x07)) →
    ∃ t, step s = .next t ∧ FailedCleanly s t .illegalCmd 0 ∧ readReg t .cmd = j.cmdw ∧
      t.operands = s.operands ∧ t.palEnc = s.palEnc ∧ t.palDec = s.palDec ∧ t.ctrl = s.ctrl ∧
      t.params = s.params

/-- R320: the engine is never stuck and never refuses a word: a completion step always gives a next
state, in which the engine is IDLE. No step of the machine is refused. -/
def Obligations.EngineIsNeverStuck : Prop :=
  (∀ (s : State) (j : Job), s.phase = .busy j → ∃ t, engineStep j s = .next t ∧ t.phase = .idle) ∧
  (∀ (s : State) (r : Refusal), step s ≠ .refused r)

/-- R371: every accepted command completes after finitely many steps, unless the host abandons it:
within one step more than the schedule has turns, the engine is IDLE, or the host got a bus error.
The schedule is the model's own form of "any finite number of host steps" (log 4). -/
def Obligations.EveryJobEnds : Prop :=
  ∀ (s : State) (j : Job), s.phase = .busy j →
    ∃ k ≤ s.sched.length + 1,
      (∃ t : State, Sys2Proof.core.run k s = .next t ∧ t.phase = .idle) ∨
      (∃ f : Fault, Sys2Proof.core.run k s = .fault f)

/-! ## Acceptance, STATUS, CTRL and the register map -/

/-- R58: a command word written in IDLE is accepted, and everything the job needs is latched. -/
def Obligations.AcceptanceLatchesTheJob : Prop :=
  ∀ (s : State) (w : Word), s.phase = .idle →
    hostAccess (.write 0x00C (.word w)) s = .next { s with
      response := .written
      cmd := w
      status := { done := false, err := false, cls := false, xs := false, idxhi := false,
                  lost := s.status.lost, errcode := .none }
      results := { outLen := 0, inUsed := 0, clsCount := 0, clsFirst := 0xFFFFFFFF, errPos := 0 }
      phase := .busy
        { cmdw := w, src := s.operands.srcAddr, slen := s.operands.srcLen,
          dst := s.operands.dstAddr, cap := s.operands.dstCap, n := s.operands.pixcnt,
          w := s.operands.geom.extractLsb' 0 16, h := s.operands.geom.extractLsb' 16 16,
          tail := s.ctrl.tailMode, pe := s.palEnc, pd := s.palDec, hazard := false } }

/-- R60: a command word written while BUSY is dropped, and LOST is set. -/
def Obligations.CommandWrittenWhileBusyIsDropped : Prop :=
  ∀ (s : State) (j : Job) (w : Word), s.phase = .busy j →
    hostAccess (.write 0x00C (.word w)) s =
      .next { s with response := .written, status := { s.status with lost := true } }

/-- R34: a write of `w` to STATUS clears each bit 1 to 6 that is 1 in `w`, and changes no other bit
of STATUS, BUSY or IDLE. -/
def Obligations.StatusWriteClearsExactlyItsOnes : Prop :=
  ∀ (s : State) (w : Word),
    ∃ t, hostAccess (.write 0x008 (.word w)) s = .next t ∧
      (∀ i < 32, (readReg t .status).getLsbD i =
        ((readReg s .status).getLsbD i && !(decide (1 ≤ i ∧ i ≤ 6) && w.getLsbD i))) ∧
      t = { s with response := .written, status := t.status }

/-- R22, R23, R25: a write to CTRL with bit 31 = 0 sets bits [2:0] and nothing else, and CTRL reads back
with every reserved bit 0. -/
def Obligations.ControlWriteSetsThreeBits : Prop :=
  ∀ (s : State) (w : Word), w.getLsbD 31 = false →
    ∃ t, hostAccess (.write 0x004 (.word w)) s = .next t ∧
      (∀ i < 32, (readReg t .ctrl).getLsbD i = (decide (i < 3) && w.getLsbD i)) ∧
      t = { s with response := .written, ctrl := t.ctrl }

/-- R24, R361: a write to CTRL with bit 31 = 1 is a soft reset, whatever its other bits: every register
reads its power-on value, the engine is IDLE, the interrupt is low, and no buffer byte changes but
those of an abandoned job's DST region, and those only when that region passes its check. -/
def Obligations.SoftResetKeepsTheBuffer : Prop :=
  ∀ (s : State) (w : Word), s.Inv → w.getLsbD 31 = true →
    ∃ t, hostAccess (.write 0x004 (.word w)) s = .next t ∧
      (∀ r, readReg t r = readReg (State.powerOn s.params []) r) ∧
      t.phase = .idle ∧ t.irq = false ∧ t.params = s.params ∧
      (s.phase = .idle → SameBytes s t) ∧
      (∀ j, s.phase = .busy j →
        (j.dst.toNat + j.cap.toNat ≤ s.params.bufBytes →
          SameBytesOutside s t j.dst.toNat j.cap.toNat) ∧
        (s.params.bufBytes < j.dst.toNat + j.cap.toNat → SameBytes s t))

/-- R21: ID reads 0x5350_0001 and ignores writes. R20, R47: so do the reserved slots, which read 0, and
the result registers. -/
def Obligations.ReadOnlyAndReservedSlotsIgnoreWrites : Prop :=
  ∀ (s : State) (off : WindowOffset) (v : Word), off.toNat % 4 = 0 →
    ((off = 0x000 ∨ (0x028 ≤ off.toNat ∧ off.toNat ≤ 0x038) ∨ off = 0x03C ∨ off = 0x04C ∨
        (0x060 ≤ off.toNat ∧ off.toNat ≤ 0x0FC)) →
      hostAccess (.write off (.word v)) s = .next { s with response := .written }) ∧
    (off = 0x000 →
      hostAccess (.read off .w32) s = .next { s with response := .read (.word 0x53500001) }) ∧
    ((off = 0x03C ∨ off = 0x04C ∨ (0x060 ≤ off.toNat ∧ off.toNat ≤ 0x0FC)) →
      hostAccess (.read off .w32) s = .next { s with response := .read (.word 0) })

/-- R86 and the register map: a word read at the offset of each register returns that register and changes
nothing (`response` is the model's own, log 6). R20, R22 to R25, R26 to R33, R35 to R50: what each
reads, from the fields of the state; the codes are those of R321. -/
def Obligations.EveryRegisterReadsAtItsOffset : Prop :=
  (∀ (s : State) (off : WindowOffset) (r : Reg),
    (off, r) ∈ [((0x000 : WindowOffset), Reg.id), (0x004, .ctrl), (0x008, .status), (0x00C, .cmd),
      (0x010, .srcAddr), (0x014, .srcLen), (0x018, .dstAddr), (0x01C, .dstCap), (0x020, .pixcnt),
      (0x024, .geom), (0x028, .outLen), (0x02C, .inUsed), (0x030, .clsCount), (0x034, .clsFirst),
      (0x038, .errPos), (0x040, .palEnc0), (0x044, .palEnc1), (0x048, .palEnc2), (0x050, .palDec0),
      (0x054, .palDec1), (0x058, .palDec2), (0x05C, .palDec3)] →
    hostAccess (.read off .w32) s = .next { s with response := .read (.word (readReg s r)) }) ∧
  (∀ (s : State) (r : Reg) (v : Word),
    (r, v) ∈ [(Reg.id, 0x53500001), (.cmd, s.cmd), (.srcAddr, s.operands.srcAddr),
      (.srcLen, s.operands.srcLen), (.dstAddr, s.operands.dstAddr), (.dstCap, s.operands.dstCap),
      (.pixcnt, s.operands.pixcnt), (.geom, s.operands.geom), (.outLen, s.results.outLen),
      (.inUsed, s.results.inUsed), (.clsCount, s.results.clsCount), (.clsFirst, s.results.clsFirst),
      (.errPos, s.results.errPos), (.palEnc0, s.palEnc.c0.setWidth 32),
      (.palEnc1, s.palEnc.c1.setWidth 32), (.palEnc2, s.palEnc.c2.setWidth 32),
      (.palDec0, s.palDec.c0), (.palDec1, s.palDec.c1), (.palDec2, s.palDec.c2),
      (.palDec3, s.palDec.c3)] →
    readReg s r = v) ∧
  (∀ s : State,
    let ctrl := readReg s .ctrl
    let status := readReg s .status
    (ctrl.getLsbD 0 = s.ctrl.ieDone ∧ ctrl.getLsbD 1 = s.ctrl.ieErr ∧
      (ctrl.getLsbD 2 = true ↔ s.ctrl.tailMode = .reclassify) ∧ ctrl.extractLsb' 3 29 = 0) ∧
    ((status.getLsbD 0 = true ↔ s.phase ≠ .idle) ∧ status.getLsbD 1 = s.status.done ∧
      status.getLsbD 2 = s.status.err ∧ status.getLsbD 3 = s.status.cls ∧
      status.getLsbD 4 = s.status.xs ∧ status.getLsbD 5 = s.status.idxhi ∧
      status.getLsbD 6 = s.status.lost ∧ status.getLsbD 7 = false ∧
      status.extractLsb' 16 16 = 0) ∧
    ∀ (e : ErrCode) (n : Byte),
      (e, n) ∈ [(ErrCode.none, 0x00), (.illegalCmd, 0x01), (.range, 0x02), (.overlap, 0x03),
        (.widthLimit, 0x04), (.truncated, 0x05), (.dstOverflow, 0x06)] →
      s.status.errcode = e → status.extractLsb' 8 8 = n)

/-- R36 to R41, R48, R50: a read-write register holds the value written to its offset (an encoder
palette register without bits [31:24]), BUSY or IDLE; no other register, no buffer byte and no
running job changes. -/
def Obligations.WrittenRegisterReadsBack : Prop :=
  ∀ (s : State) (v : Word) (off : WindowOffset) (r : Reg),
    (off, r) ∈ [((0x010 : WindowOffset), Reg.srcAddr), (0x014, .srcLen), (0x018, .dstAddr),
      (0x01C, .dstCap), (0x020, .pixcnt), (0x024, .geom), (0x040, .palEnc0), (0x044, .palEnc1),
      (0x048, .palEnc2), (0x050, .palDec0), (0x054, .palDec1), (0x058, .palDec2), (0x05C, .palDec3)] →
    ∃ t u, hostAccess (.write off (.word v)) s = .next t ∧
      hostAccess (.read off .w32) t = .next u ∧
      u.response = .read (.word
        (if r = .palEnc0 ∨ r = .palEnc1 ∨ r = .palEnc2 then v &&& 0x00FFFFFF else v)) ∧
      (∀ r', r' ≠ r → readReg t r' = readReg s r') ∧
      t.mem = s.mem ∧ t.phase = s.phase ∧ t.irq = s.irq

/-- R57: IRQ is `(STATUS.DONE AND CTRL.IE_DONE) OR (STATUS.ERR AND CTRL.IE_ERR)`, read off the two
registers, and it is low at reset. -/
def Obligations.InterruptIsDrivenByDoneAndErr : Prop :=
  (∀ s : State, s.irq =
    (((readReg s .status).getLsbD 1 && (readReg s .ctrl).getLsbD 0) ||
     ((readReg s .status).getLsbD 2 && (readReg s .ctrl).getLsbD 1))) ∧
  (∀ p ram, (State.powerOn p ram).irq = false)

/-- R334: every completion, of a command, of an illegal word or of a hazarded job, sets DONE and interrupts
with IE_DONE; with only IE_ERR exactly the failing ones interrupt; and writing 1 to the DONE and ERR
bits of STATUS drops the line. -/
def Obligations.CompletionInterruptsAndAcknowledgeDropsIt : Prop :=
  (∀ (s t : State) (j : Job), s.phase = .busy j → engineStep j s = .next t →
    t.status.done = true ∧
    t.irq = (s.ctrl.ieDone || (s.ctrl.ieErr && decide (t.status.errcode ≠ .none)))) ∧
  (∀ (s t : State) (j : Job) (i : Instr), s.phase = .busy j → exec i s = .next t →
    t.status.done = true ∧
    t.irq = (s.ctrl.ieDone || (s.ctrl.ieErr && decide (t.status.errcode ≠ .none)))) ∧
  (∀ (s t : State) (w : Word), w.getLsbD 1 = true → w.getLsbD 2 = true →
    hostAccess (.write 0x008 (.word w)) s = .next t → t.irq = false)

/-! ## The buffer RAM and the bus -/

/-- R80 to R84: which host accesses get a bus error, and which one. That an access which is unmapped and
misaligned too faults as `unmapped`, and the three names, are the model's choice (log 8). -/
def Obligations.BusErrorsAreExactlyTheIllegalAccesses : Prop :=
  ∀ (s : State) (a : HostAccess),
    let off := (accessOffset a).toNat
    let n := widthBytes (accessWidth a)
    (hostAccess a s = .fault .registerAccess ↔ off < 0x100 ∧ ¬ (n = 4 ∧ off % 4 = 0)) ∧
    (hostAccess a s = .fault .unmapped ↔
      0x100 ≤ off ∧ (off < 0x400000 ∨ 0x400000 + s.params.bufBytes < off + n)) ∧
    (hostAccess a s = .fault .misaligned ↔
      0x400000 ≤ off ∧ off + n ≤ 0x400000 + s.params.bufBytes ∧ off % n ≠ 0) ∧
    ((∃ t, hostAccess a s = .next t) ↔ LegalAccess s.params off n)

/-- R83, R366: a legal buffer write stores its value little-endian and changes no other byte and no
register; it marks the running job exactly when it touches the job's SRC or DST region. -/
def Obligations.BufferWriteIsLittleEndian : Prop :=
  ∀ (s : State) (off : WindowOffset) (d : BusData), s.Inv → 0x400000 ≤ off.toNat →
    LegalAccess s.params off.toNat (widthBytes (dataWidth d)) →
    ∃ t, hostAccess (.write off d) s = .next t ∧
      (∀ k < widthBytes (dataWidth d),
        t.mem.read (off.toNat - 0x400000 + k) = (dataWord d).extractLsb' (8 * k) 8) ∧
      SameBytesOutside s t (off.toNat - 0x400000) (widthBytes (dataWidth d)) ∧
      (∀ r, readReg t r = readReg s r) ∧
      (s.phase = .idle → t.phase = .idle) ∧
      (∀ j, s.phase = .busy j → ∃ hz, t.phase = .busy { j with hazard := hz } ∧
        (hz = true ↔ j.hazard = true ∨
          touchesJob s (off.toNat - 0x400000) (widthBytes (dataWidth d))))

/-- R83, R86, R367: a legal buffer read returns the bytes there, little-endian, but for bytes of the
running job's DST region, whose value is free; it changes no byte, no register and no job. That in a
wider read which touches that region the bytes outside it are those of the RAM is the model's own
reading (log 18). -/
def Obligations.BufferReadIsLittleEndianAndPure : Prop :=
  ∀ (s : State) (off : WindowOffset) (w : BusWidth), 0x400000 ≤ off.toNat →
    LegalAccess s.params off.toNat (widthBytes w) →
    ∃ t d, hostAccess (.read off w) s = .next t ∧
      t = { s with response := .read d, draws := t.draws } ∧ dataWidth d = w ∧
      (∀ k < widthBytes w, ¬ touchesOutput s (off.toNat - 0x400000 + k) 1 →
        (dataWord d).extractLsb' (8 * k) 8 = s.mem.read (off.toNat - 0x400000 + k)) ∧
      (¬ touchesOutput s (off.toNat - 0x400000) (widthBytes w) → t.draws = s.draws)

/-- R58, R99, R364: whatever the host does while BUSY, the running job keeps every latched operand; only
its hazard mark can change, and only to 1. A soft reset alone ends it. -/
def Obligations.RunningJobKeepsItsOperands : Prop :=
  ∀ (s t : State) (j : Job) (op : BusOp), s.phase = .busy j → hostStep op s = .next t →
    (∃ hz, t.phase = .busy { j with hazard := hz } ∧ (j.hazard = true → hz = true)) ∨
    (t.phase = .idle ∧ ∃ w : Word, w.getLsbD 31 = true ∧
      op = .access (.write 0x004 (.word w)))

/-- R368: a host that keeps its duties loses no command and never makes an outcome unspecified. -/
def Obligations.DutifulHostLosesNothing : Prop :=
  ∀ (s t : State) (a : HostAccess), Dutiful s a → hostAccess a s = .next t →
    (t.status.lost = true → s.status.lost = true) ∧
    (∀ j, s.phase = .busy j → t.phase = .busy j ∧ t.draws = s.draws ∨
      ∃ w : Word, w.getLsbD 31 = true ∧ a = .write 0x004 (.word w))

/-- R366: a hazarded job completes with DONE and an error code of the table; ERR agrees with it; no byte
outside the DST region changes, nor any operand, palette, CTRL, CMD or LOST. Every other part of the
outcome is a free value, and nothing is said of it. -/
def Obligations.HazardedCompletionIsBounded : Prop :=
  ∀ (s : State) (j : Job), Ready s j → j.hazard = true →
    (s.host = [] ∨ s.sched.head? ≠ some .host) →
    ∃ t, step s = .next t ∧ t.phase = .idle ∧ t.status.done = true ∧
      (t.status.err = true ↔ t.status.errcode ≠ .none) ∧ t.status.lost = s.status.lost ∧
      SameBytesOutside s t j.dst.toNat j.cap.toNat ∧
      t.mem.inside s.params.bufBytes = true ∧
      t.operands = s.operands ∧ t.palEnc = s.palEnc ∧ t.palDec = s.palDec ∧ t.ctrl = s.ctrl ∧
      t.cmd = s.cmd ∧ t.params = s.params ∧ t.host = s.host

/-! ## Reset and the invariant -/

/-- R360: the state after power-on, with any parameters and whatever power-on left in the buffer RAM. -/
def Obligations.PowerOnGivesTheResetValues : Prop :=
  ∀ (p : Params) (ram : Memory),
    let s := State.powerOn p ram
    readReg s .id = 0x53500001 ∧
    (∀ r ∈ [Reg.ctrl, .status, .cmd, .srcAddr, .srcLen, .dstAddr, .dstCap, .pixcnt, .geom,
      .outLen, .inUsed, .clsCount, .errPos], readReg s r = 0) ∧
    readReg s .clsFirst = 0xFFFFFFFF ∧
    readReg s .palEnc0 = 0x00000000 ∧ readReg s .palEnc1 = 0x0000FFFF ∧
    readReg s .palEnc2 = 0x00FFFFFF ∧
    readReg s .palDec0 = 0xFF000000 ∧ readReg s .palDec1 = 0xFF00FFFF ∧
    readReg s .palDec2 = 0xFFFFFFFF ∧ readReg s .palDec3 = 0xFFFFFFFF ∧
    s.phase = .idle ∧ s.irq = false ∧ s.mem = ram

/-- The invariant holds after power-on, with any legal parameters and any buffer contents, and at
`State.reset`, whose parameters and buffer contents are the model's choice (logs 1 and 2). -/
def Obligations.PowerOnMeetsTheInvariant : Prop :=
  (∀ (p : Params) (ram : Memory), p.legal = true → ram.wf = true → ram.inside p.bufBytes = true →
    (State.powerOn p ram).Inv) ∧
  State.reset.Inv

/-- From every state that meets it, a step of either agent keeps the invariant, and the parameters:
the buffer RAM keeps its canonical form and its size, ERR has a code, and while BUSY STATUS shows no
outcome, the result registers read their acceptance values and CMD is the job's word. -/
def Obligations.StepKeepsTheInvariant : Prop :=
  ∀ s t : State, s.Inv → step s = .next t → t.Inv ∧ t.params = s.params

/-! ## The commands -/

/-- R290: NOP completes from every ready state, ignores every operand, and does nothing else. -/
def Obligations.NopOnlyCompletes : Prop :=
  ∀ (s : State) (j : Job), Ready s j →
    exec .nop s = .next { s with
      phase := .idle
      status := { done := true, err := false, cls := false, xs := false, idxhi := false,
                  lost := s.status.lost, errcode := .none } }

/-- R164: RLE_ENC. -/
def Obligations.RleEncStoresTheEncodedStream : Prop :=
  CompletesWith .rleEnc fun s j t =>
    let out := rleEncode j.tail (inputOf s j)
    Stored s t j.dst.toNat (out.take j.cap.toNat) ∧
    ResultsAre t (min out.length j.cap.toNat) j.slen.toNat 0 0xFFFFFFFF 0 ∧
    (out.length ≤ j.cap.toNat → Finished s t .none False False False) ∧
    (j.cap.toNat < out.length → Finished s t .dstOverflow False False False)

/-- R166, R168, R169: RLE_DEC, on the one way its input splits into complete tokens and a rest. -/
def Obligations.RleDecExpandsTheTokens : Prop :=
  CompletesWith .rleDec fun s j t =>
    ∀ (ts : List Token) (rest : List Byte), (∀ k ∈ ts, k.legal = true) →
      inputOf s j = streamOf ts ++ rest → (decodedOf ts).length ≤ j.cap.toNat →
      (rest = [] →
        Stored s t j.dst.toNat (decodedOf ts) ∧
        ResultsAre t (decodedOf ts).length j.slen.toNat 0 0xFFFFFFFF 0 ∧
        Finished s t .none False False False) ∧
      (PartialEscape rest →
        Stored s t j.dst.toNat (decodedOf ts) ∧
        ResultsAre t (decodedOf ts).length (streamOf ts).length 0 0xFFFFFFFF (streamOf ts).length ∧
        Finished s t .truncated False False False) ∧
      (∀ (tk : Token) (more : List Byte), tk.legal = true → rest = tk.stream ++ more →
        j.cap.toNat < (decodedOf ts).length + tk.bytes.length →
        Stored s t j.dst.toNat ((decodedOf ts ++ tk.bytes).take j.cap.toNat) ∧
        ResultsAre t j.cap.toNat (streamOf ts).length 0 0xFFFFFFFF 0 ∧
        Finished s t .dstOverflow False False False)

/-- R202, R90: PACK puts bits [1:0] of index byte `i` in lane `i mod 4` of packed byte `i / 4`, and 0
in the lanes of missing pixels. -/
def Obligations.PackFillsTheLanes : Prop :=
  CompletesWith .pack fun s j t =>
    (∀ i < j.n.toNat, (t.mem.read (j.dst.toNat + i / 4)).extractLsb' (2 * (i % 4)) 2 =
      (s.mem.read (j.src.toNat + i)).extractLsb' 0 2) ∧
    (∀ i, j.n.toNat ≤ i → i < 4 * packedLen j.n.toNat →
      (t.mem.read (j.dst.toNat + i / 4)).extractLsb' (2 * (i % 4)) 2 = 0) ∧
    SameBytesOutside s t j.dst.toNat (packedLen j.n.toNat) ∧
    ResultsAre t (packedLen j.n.toNat) j.n.toNat 0 0xFFFFFFFF 0 ∧
    Finished s t .none False (j.n.toNat < j.slen.toNat)
      (∃ i < j.n.toNat, (s.mem.read (j.src.toNat + i)).extractLsb' 2 6 ≠ 0)

/-- R203, R201: UNPACK writes lane `i mod 4` of packed byte `i / 4` as index byte `i`, bits [7:2] zero. -/
def Obligations.UnpackReadsTheLanes : Prop :=
  CompletesWith .unpack fun s j t =>
    (∀ i < j.n.toNat, t.mem.read (j.dst.toNat + i) =
      ((s.mem.read (j.src.toNat + i / 4)).extractLsb' (2 * (i % 4)) 2).setWidth 8) ∧
    SameBytesOutside s t j.dst.toNat j.n.toNat ∧
    ResultsAre t j.n.toNat (packedLen j.n.toNat) 0 0xFFFFFFFF 0 ∧
    Finished s t .none False (packedLen j.n.toNat < j.slen.toNat) False

/-- R232, R230: QENC writes the index of the lowest canonical colour that matches exactly, or 0, counts
the pixels that match none, and records the first. -/
def Obligations.QencClassifiesByExactMatch : Prop :=
  CompletesWith .qenc fun s j t =>
    (∀ i < j.n.toNat, t.mem.read (j.dst.toNat + i) =
      (if rgbAt s.mem j.src.toNat i = j.pe.c0 then 0x00
       else if rgbAt s.mem j.src.toNat i = j.pe.c1 then 0x01
       else if rgbAt s.mem j.src.toNat i = j.pe.c2 then 0x02 else 0x00)) ∧
    SameBytesOutside s t j.dst.toNat j.n.toNat ∧
    (∃ first, ResultsAre t j.n.toNat (4 * j.n.toNat)
        ((List.range j.n.toNat).filter fun i => OffPalette j.pe (rgbAt s.mem j.src.toNat i)).length
        first 0 ∧
      ((∀ i < j.n.toNat, ¬ OffPalette j.pe (rgbAt s.mem j.src.toNat i)) → first = 0xFFFFFFFF) ∧
      (∀ i < j.n.toNat, OffPalette j.pe (rgbAt s.mem j.src.toNat i) →
        (∀ k < i, ¬ OffPalette j.pe (rgbAt s.mem j.src.toNat k)) → first = i)) ∧
    Finished s t .none (∃ i < j.n.toNat, OffPalette j.pe (rgbAt s.mem j.src.toNat i))
      (4 * j.n.toNat < j.slen.toNat) False

/-- R233, R231: QDEC writes the four bytes of the decoder colour of each index byte, the sentinel for
any byte other than 0, 1 and 2. -/
def Obligations.QdecExpandsEachIndex : Prop :=
  CompletesWith .qdec fun s j t =>
    (∀ i < j.n.toNat, ∀ k < 4, t.mem.read (j.dst.toNat + 4 * i + k) =
      (if s.mem.read (j.src.toNat + i) = 0 then j.pd.c0
       else if s.mem.read (j.src.toNat + i) = 1 then j.pd.c1
       else if s.mem.read (j.src.toNat + i) = 2 then j.pd.c2 else j.pd.c3).extractLsb' (8 * k) 8) ∧
    SameBytesOutside s t j.dst.toNat (4 * j.n.toNat) ∧
    ResultsAre t (4 * j.n.toNat) j.n.toNat 0 0xFFFFFFFF 0 ∧
    Finished s t .none False (j.n.toNat < j.slen.toNat)
      (∃ i < j.n.toNat, (s.mem.read (j.src.toNat + i)).extractLsb' 2 6 ≠ 0)

/-- R269, R133: DITHER writes the dither bit of each pixel (OF = 0), DITHER with OF = 1 the palette
index 0x00 or 0x02. -/
def Obligations.DitherWritesOneBytePerPixel : Prop :=
  (CompletesWith .dither fun s j t =>
    Stored s t j.dst.toNat
      ((dither j.w.toNat j.h.toNat ((inputOf s j).take j.area)).map fun o =>
        if o then 0x01 else 0x00) ∧
    ResultsAre t j.area j.area 0 0xFFFFFFFF 0 ∧
    Finished s t .none False (j.area < j.slen.toNat) False) ∧
  (CompletesWith .ditherIdx fun s j t =>
    Stored s t j.dst.toNat
      ((dither j.w.toNat j.h.toNat ((inputOf s j).take j.area)).map fun o =>
        if o then 0x02 else 0x00) ∧
    ResultsAre t j.area j.area 0 0xFFFFFFFF 0 ∧
    Finished s t .none False (j.area < j.slen.toNat) False)

/-- R291: ENC_PLANE quantizes, packs, RLE-encodes and stores the first CAP bytes of the stream. -/
def Obligations.EncPlaneStoresTheEncodedPlane : Prop :=
  CompletesWith .encPlane fun s j t =>
    let n := j.n.toNat
    let colour := fun i => rgbAt s.mem j.src.toNat i
    let index : Nat → Index := fun i =>
      if colour i = j.pe.c0 then 0 else if colour i = j.pe.c1 then 1
      else if colour i = j.pe.c2 then 2 else 0
    let out := rleEncode j.tail (Machine.pack ((List.range n).map index))
    Stored s t j.dst.toNat (out.take j.cap.toNat) ∧
    (∃ first, ResultsAre t (min out.length j.cap.toNat) (4 * n)
        ((List.range n).filter fun i => OffPalette j.pe (colour i)).length first 0 ∧
      ((∀ i < n, ¬ OffPalette j.pe (colour i)) → first = 0xFFFFFFFF) ∧
      (∀ i < n, OffPalette j.pe (colour i) → (∀ k < i, ¬ OffPalette j.pe (colour k)) →
        first = i)) ∧
    (out.length ≤ j.cap.toNat →
      Finished s t .none (∃ i < n, OffPalette j.pe (colour i)) (4 * n < j.slen.toNat) False) ∧
    (j.cap.toNat < out.length →
      Finished s t .dstOverflow (∃ i < n, OffPalette j.pe (colour i)) (4 * n < j.slen.toNat) False)

/-- R292: DEC_PLANE, on the way its input splits into complete tokens and a rest. It stops with the token
that completes the plane; a stream that ends first is TRUNCATED, and the pixels so far are kept. -/
def Obligations.DecPlaneStopsWithThePlane : Prop :=
  CompletesWith .decPlane fun s j t =>
    let n := j.n.toNat
    let pixels : List Byte → List Byte := fun got =>
      (Machine.unpack got (min n (4 * got.length))).flatMap fun i => expand j.pd (i.setWidth 8)
    (n = 0 → SameBytes s t ∧ ResultsAre t 0 0 0 0xFFFFFFFF 0 ∧
      Finished s t .none False (0 < j.slen.toNat) False) ∧
    (∀ (ts : List Token) (last : Token) (rest : List Byte),
      (∀ k ∈ ts, k.legal = true) → last.legal = true →
      inputOf s j = streamOf ts ++ last.stream ++ rest →
      (decodedOf ts).length < packedLen n →
      packedLen n ≤ (decodedOf ts ++ last.bytes).length →
      Stored s t j.dst.toNat (pixels ((decodedOf ts ++ last.bytes).take (packedLen n))) ∧
      ResultsAre t (4 * n) (streamOf ts ++ last.stream).length 0 0xFFFFFFFF 0 ∧
      Finished s t .none False
        (packedLen n < (decodedOf ts ++ last.bytes).length ∨ rest ≠ []) False) ∧
    (∀ (ts : List Token) (rest : List Byte), (∀ k ∈ ts, k.legal = true) →
      inputOf s j = streamOf ts ++ rest → (decodedOf ts).length < packedLen n →
      (rest = [] →
        Stored s t j.dst.toNat (pixels (decodedOf ts)) ∧
        ResultsAre t (4 * min n (4 * (decodedOf ts).length)) j.slen.toNat 0 0xFFFFFFFF
          j.slen.toNat ∧
        Finished s t .truncated False False False) ∧
      (PartialEscape rest →
        Stored s t j.dst.toNat (pixels (decodedOf ts)) ∧
        ResultsAre t (4 * min n (4 * (decodedOf ts).length)) (streamOf ts).length 0 0xFFFFFFFF
          (streamOf ts).length ∧
        Finished s t .truncated False False False))

/-- R293: ENC_GRAY dithers, maps black to 0 and white to 2, packs, RLE-encodes and stores the first CAP
bytes of the stream. -/
def Obligations.EncGrayStoresTheEncodedImage : Prop :=
  CompletesWith .encGray fun s j t =>
    let bits := dither j.w.toNat j.h.toNat ((inputOf s j).take j.area)
    let out := rleEncode j.tail (Machine.pack (bits.map fun o => if o then 2 else 0))
    Stored s t j.dst.toNat (out.take j.cap.toNat) ∧
    ResultsAre t (min out.length j.cap.toNat) j.area 0 0xFFFFFFFF 0 ∧
    (out.length ≤ j.cap.toNat → Finished s t .none False (j.area < j.slen.toNat) False) ∧
    (j.cap.toNat < out.length → Finished s t .dstOverflow False (j.area < j.slen.toNat) False)

/-! ## Rules about every command -/

/-- R88, R59, R42: the frame of every command. It writes only the OUT_LEN bytes from DST on, at most CAP of
them; it changes no operand, palette, CTRL, CMD or LOST. That only the dither commands change the dither
error buffer, and only the RLE encoders the RLE run state, is the model's choice for this scratch, which
no program observes (log 3). -/
def Obligations.CommandsWriteOnlyTheirOutput : Prop :=
  ∀ (i : Instr) (s t : State) (j : Job), Ready s j → exec i s = .next t →
    SameBytesOutside s t j.dst.toNat t.results.outLen.toNat ∧
    t.results.outLen.toNat ≤ j.cap.toNat ∧
    t.phase = .idle ∧ t.status.done = true ∧ t.status.lost = s.status.lost ∧
    t.operands = s.operands ∧ t.palEnc = s.palEnc ∧ t.palDec = s.palDec ∧ t.ctrl = s.ctrl ∧
    t.cmd = s.cmd ∧ t.params = s.params ∧ t.response = s.response ∧ t.host = s.host ∧
    t.sched = s.sched ∧ t.draws = s.draws ∧
    (i ≠ .dither → i ≠ .ditherIdx → i ≠ .encGray → t.ditherBuf = s.ditherBuf) ∧
    (i ≠ .rleEnc → i ≠ .encPlane → i ≠ .encGray → t.rleRun = s.rleRun)

/-- R88, R96 (c), R324: no command changes a byte of its SRC region, whatever its operands. -/
def Obligations.CommandsNeverWriteTheirInput : Prop :=
  ∀ (i : Instr) (s t : State) (j : Job), Ready s j → exec i s = .next t →
    ∀ a, j.src.toNat ≤ a → a < j.src.toNat + j.slen.toNat → t.mem.read a = s.mem.read a

/-- R331, R46: which errors a command completes with, and that ERR_POS is 0 but for TRUNCATED. -/
def Obligations.EachCommandRaisesOnlyItsErrors : Prop :=
  ∀ (i : Instr) (s t : State) (j : Job), Ready s j → exec i s = .next t →
    (t.status.errcode = .none ∨ t.status.errcode ∈ commandErrors i) ∧
    (t.status.err = true ↔ t.status.errcode ≠ .none) ∧
    (t.status.errcode ≠ .truncated → t.results.errPos = 0)

/-- R328: CLS, XS and IDXHI are set only by their commands, CLS with CLS_COUNT; they come with an error
only as ENC_PLANE (CLS and XS) and ENC_GRAY (XS) give it, with DST_OVERFLOW. -/
def Obligations.ReportFlagsComeFromTheirCommands : Prop :=
  ∀ (i : Instr) (s t : State) (j : Job), Ready s j → exec i s = .next t →
    (t.status.cls = true ↔ 0 < t.results.clsCount.toNat) ∧
    (t.status.cls = true → i = .qenc ∨ i = .encPlane) ∧
    (t.status.xs = true → i ≠ .nop ∧ i ≠ .rleEnc ∧ i ≠ .rleDec) ∧
    (t.status.idxhi = true → i = .pack ∨ i = .qdec) ∧
    (t.status.errcode ≠ .none →
      t.status.idxhi = false ∧
      (t.status.cls = true → i = .encPlane ∧ t.status.errcode = .dstOverflow) ∧
      (t.status.xs = true → (i = .encPlane ∨ i = .encGray) ∧ t.status.errcode = .dstOverflow))

/-- R125, R270, and the document's "stateless pure functions over explicit inputs": the outcome of a
command is a function of its job and the bytes of its SRC region. Two machines with the same
parameters that agree on these give the same result registers, flags and output bytes, whatever else
differs. -/
def Obligations.OutcomeDependsOnlyOnJobAndInput : Prop :=
  ∀ (i : Instr) (s s' t t' : State) (j : Job), Ready s j → Ready s' j → s.params = s'.params →
    inputOf s j = inputOf s' j → exec i s = .next t → exec i s' = .next t' →
    t.results = t'.results ∧ { t.status with lost := false } = { t'.status with lost := false } ∧
    outputOf t j = outputOf t' j

/-! ## The RLE codec -/

/-- R160, R161, R162: a byte list that is the concatenation of maximal runs is encoded run by run: a
run of at most 3 bytes other than 0xFF literally, any other in chunks of 255 and a last chunk of `r`
bytes, which RECLASSIFY emits literally when `r <= 3` and the value is not 0xFF. -/
def Obligations.RleEncodeEmitsEachMaximalRun : Prop :=
  ∀ (tail : TailMode) (rs : List (Byte × Nat)), (∀ r ∈ rs, 1 ≤ r.2) →
    rs.IsChain (fun a b => a.1 ≠ b.1) →
    rleEncode tail (rs.flatMap fun r => List.replicate r.2 r.1) =
      rs.flatMap fun r =>
        let q := (r.2 - 1) / 255
        let last := r.2 - 255 * q
        if r.1 ≠ 0xFF ∧ r.2 ≤ 3 then List.replicate r.2 r.1
        else
          (List.replicate q [0xFF, 0xFF, r.1]).flatten ++
            (if tail = .reclassify ∧ r.1 ≠ 0xFF ∧ last ≤ 3 then List.replicate last r.1
             else [0xFF, BitVec.ofNat 8 last, r.1])

/-- R170: for every byte list and both tail modes, RLE_DEC of its encoding succeeds and writes it back. -/
def Obligations.RleRoundTrip : Prop :=
  ∀ (tail : TailMode) (x : List Byte) (s : State) (j : Job), Ready s j →
    InRam s.params j → ¬ Overlap j → inputOf s j = rleEncode tail x → x.length ≤ j.cap.toNat →
    ∃ t, exec .rleDec s = .next t ∧ Stored s t j.dst.toNat x ∧
      ResultsAre t x.length j.slen.toNat 0 0xFFFFFFFF 0 ∧ Finished s t .none False False False

/-- R171: the size bounds of encoding and decoding. -/
def Obligations.RleSizeBounds : Prop :=
  (∀ (tail : TailMode) (x : List Byte), (rleEncode tail x).length ≤ 3 * x.length ∧
    ((rleEncode tail x).length = 3 * x.length ↔ x = [] ∨ x = [0xFF])) ∧
  (∀ (v : Byte) (n : Nat), 4 ≤ n →
    (rleEncode .escape (List.replicate n v)).length = 3 * ((n + 254) / 255)) ∧
  (∀ (ts : List Token) (rest : List Byte),
    (decodedOf ts).length ≤
      255 * ((streamOf ts ++ rest).length / 3) + (streamOf ts ++ rest).length % 3)

/-- R56, R163: the encoder as a pass over its input that holds the run state (value, length, chunk
emitted) gives the output of `RleEncode`. The run state's reading is the model's own (log 3). -/
def Obligations.RunStateEncoderAgrees : Prop :=
  ∀ (tail : TailMode) (x : List Byte), (rleStream tail .started x).1 = rleEncode tail x

/-! ## The bit packer -/

/-- R204: unpacking a packed list gives it back; and UNPACK of PACK's output writes back the indices. -/
def Obligations.UnpackUndoesPack : Prop :=
  (∀ ix : List Index, Machine.unpack (Machine.pack ix) ix.length = ix) ∧
  (∀ (s t s' t' : State) (j j' : Job), Succeeds .pack s j t → Succeeds .unpack s' j' t' →
    j'.n = j.n → (inputOf s' j').take (packedLen j.n.toNat) = outputOf t j →
    outputOf t' j' = ((inputOf s j).take j.n.toNat).map fun b => b &&& 0x03)

/-- R205: packing an unpacked plane gives the plane with its padding lanes set to 0. -/
def Obligations.PackUndoesUnpackButForPadding : Prop :=
  ∀ (n : Nat) (bs : List Byte), bs.length = packedLen n →
    (Machine.pack (Machine.unpack bs n)).length = bs.length ∧
    (∀ i, i < 4 * bs.length →
      ((Machine.pack (Machine.unpack bs n)).getD (i / 4) 0).extractLsb' (2 * (i % 4)) 2 =
        if i < n then (bs.getD (i / 4) 0).extractLsb' (2 * (i % 4)) 2 else 0) ∧
    (Machine.pack (Machine.unpack bs n) = bs ↔
      n % 4 = 0 ∨ ∀ i, n ≤ i → i < 4 * bs.length →
        (bs.getD (i / 4) 0).extractLsb' (2 * (i % 4)) 2 = 0)

/-! ## The quantizer -/

/-- R234: with palettes that agree on RGB, QDEC of QENC's output gives back every pixel whose RGB matched,
with the alpha of the decoder colour of its index, and PD[0] for a pixel that matched none. -/
def Obligations.QuantizedPixelsComeBack : Prop :=
  ∀ (s t s' t' : State) (j j' : Job), Succeeds .qenc s j t → Succeeds .qdec s' j' t' →
    j'.n = j.n → (inputOf s' j').take j.n.toNat = outputOf t j →
    j'.pd.c0.setWidth 24 = j.pe.c0 → j'.pd.c1.setWidth 24 = j.pe.c1 →
    j'.pd.c2.setWidth 24 = j.pe.c2 →
    ∀ i < j.n.toNat,
      let c := rgbAt s.mem j.src.toNat i
      let pixel : Word := t'.mem.read (j'.dst.toNat + 4 * i + 3) ++ rgbAt t'.mem j'.dst.toNat i
      pixel = (if c = j.pe.c0 then j'.pd.c0 else if c = j.pe.c1 then j'.pd.c1
        else if c = j.pe.c2 then j'.pd.c2 else j'.pd.c0) ∧
      (¬ OffPalette j.pe c → pixel.setWidth 24 = c)

/-! ## The ditherer -/

/-- R268: at every pixel of every image, the accumulated errors, the adjusted value and the diffused
amount stay in their bounds, so a signed 16-bit entry never overflows. -/
def Obligations.DitherValuesStayInBounds : Prop :=
  ∀ (w h : Nat) (g : List Byte), g.length = w * h → ∀ i (hi : i < g.length),
    let errs := errorsAfter w h (g.take i) 0 (List.replicate (w * h) 0)
    let v := adjusted g[i] (errs.getD i 0)
    (∀ e ∈ errs, -1530 ≤ e ∧ e ≤ 1524) ∧ -1530 ≤ v ∧ v ≤ 5604 ∧
    -255 ≤ diffused v ∧ diffused v ≤ 254

/-- R260 to R266, pixel by pixel: there is one adjusted value for each pixel, 16 times its gray code plus
the amounts diffused to it by the six pixels whose mask reaches it, those outside the image giving
nothing; and the output bit says whether it is at least 2040. -/
def Obligations.DitherGathersNeighbourErrors : Prop :=
  ∀ (w h : Nat) (g : List Byte), g.length = w * h →
    ∃ value : Nat → Int, ∀ i (hi : i < g.length),
      let x : Int := (i % w : Nat)
      let y := i / w
      let amount : Int → Nat → Int := fun dx dy =>
        if dy ≤ y ∧ 0 ≤ x - dx ∧ x - dx < w then
          let v := value ((y - dy) * w + (x - dx).toNat)
          (v - if 2040 ≤ v then 4080 else 0) / 8
        else 0
      value i = 16 * (g[i].toNat : Int) + amount 1 0 + amount 2 0 + amount (-1) 1 + amount 0 1 +
        amount 1 1 + amount 0 2 ∧
      (dither w h g)[i]? = some (decide (2040 ≤ value i))

/-- R267: the sliding form, with a buffer of `2W + 1` signed 16-bit entries, gives the outputs of R266. -/
def Obligations.SlidingBufferGivesTheSameBits : Prop :=
  ∀ (w h : Nat) (g : List Byte), g.length = w * h → (slideDither w h g).1 = dither w h g

/-! ## The fused pipelines -/

/-- R294, first law: ENC_PLANE is QENC, then PACK, then RLE_ENC. -/
def Obligations.EncPlaneIsQencPackRleEnc : Prop :=
  ∀ (s t s1 t1 s2 t2 s3 t3 : State) (j j1 j2 j3 : Job),
    Succeeds .encPlane s j t → Succeeds .qenc s1 j1 t1 → Succeeds .pack s2 j2 t2 →
    Succeeds .rleEnc s3 j3 t3 →
    j1.n = j.n → j1.pe = j.pe → j2.n = j.n → j3.tail = j.tail →
    (inputOf s1 j1).take (4 * j.n.toNat) = (inputOf s j).take (4 * j.n.toNat) →
    (inputOf s2 j2).take j.n.toNat = outputOf t1 j1 → inputOf s3 j3 = outputOf t2 j2 →
    outputOf t j = outputOf t3 j3 ∧ t.results.clsCount = t1.results.clsCount ∧
      t.results.clsFirst = t1.results.clsFirst

/-- R294, second law: ENC_GRAY is DITHER with OF = 1, then PACK, then RLE_ENC. -/
def Obligations.EncGrayIsDitherPackRleEnc : Prop :=
  ∀ (s t s1 t1 s2 t2 s3 t3 : State) (j j1 j2 j3 : Job),
    Succeeds .encGray s j t → Succeeds .ditherIdx s1 j1 t1 → Succeeds .pack s2 j2 t2 →
    Succeeds .rleEnc s3 j3 t3 →
    j1.w = j.w → j1.h = j.h → j2.n.toNat = j.area → j3.tail = j.tail →
    (inputOf s1 j1).take j.area = (inputOf s j).take j.area →
    (inputOf s2 j2).take j.area = outputOf t1 j1 → inputOf s3 j3 = outputOf t2 j2 →
    outputOf t j = outputOf t3 j3

/-- R294, third law: DEC_PLANE, on a stream that decodes to exactly `ceil(N/4)` bytes, is RLE_DEC, then
UNPACK, then QDEC. -/
def Obligations.DecPlaneIsRleDecUnpackQdec : Prop :=
  ∀ (s t s1 t1 s2 t2 s3 t3 : State) (j j1 j2 j3 : Job),
    Succeeds .decPlane s j t → Succeeds .rleDec s1 j1 t1 → Succeeds .unpack s2 j2 t2 →
    Succeeds .qdec s3 j3 t3 →
    j2.n = j.n → j3.n = j.n → j3.pd = j.pd → inputOf s1 j1 = inputOf s j →
    t1.results.outLen.toNat = packedLen j.n.toNat →
    (inputOf s2 j2).take (packedLen j.n.toNat) = outputOf t1 j1 →
    (inputOf s3 j3).take j.n.toNat = outputOf t2 j2 →
    outputOf t j = outputOf t3 j3

/-- R295: the plane round trip. DEC_PLANE of what ENC_PLANE wrote succeeds, uses the whole stream, has
no surplus, and gives back each matched pixel's colour and PD[0] for each mismatched pixel. -/
def Obligations.PlaneRoundTrip : Prop :=
  ∀ (s t s' : State) (j j' : Job), Succeeds .encPlane s j t → Ready s' j' →
    j'.n = j.n → inputOf s' j' = outputOf t j → InRam s'.params j' → ¬ Overlap j' →
    4 * j.n.toNat ≤ j'.cap.toNat →
    j'.pd.c0.setWidth 24 = j.pe.c0 → j'.pd.c1.setWidth 24 = j.pe.c1 →
    j'.pd.c2.setWidth 24 = j.pe.c2 →
    ∃ t', exec .decPlane s' = .next t' ∧ t'.status.errcode = .none ∧ t'.status.xs = false ∧
      t'.results.inUsed = t.results.outLen ∧
      ∀ i < j.n.toNat,
        let c := rgbAt s.mem j.src.toNat i
        let pixel : Word :=
          t'.mem.read (j'.dst.toNat + 4 * i + 3) ++ rgbAt t'.mem j'.dst.toNat i
        pixel = (if c = j.pe.c0 then j'.pd.c0 else if c = j.pe.c1 then j'.pd.c1
          else if c = j.pe.c2 then j'.pd.c2 else j'.pd.c0) ∧
        (¬ OffPalette j.pe c → pixel.setWidth 24 = c)
end

