-- ==== Sys2Proof/Laws/State.lean ====
section
/-! SUPPORT. One lemma for each field of State under each operation that makes a new state, so that
no later proof unfolds a record update. -/

namespace Sys2Proof.Machine

/-! ### Acceptance (R58) -/

@[simp] theorem accept_params (w : Word) (s : State) :
    (accept w s).params = s.params := rfl
@[simp] theorem accept_ctrl (w : Word) (s : State) :
    (accept w s).ctrl = s.ctrl := rfl
@[simp] theorem accept_status (w : Word) (s : State) :
    (accept w s).status = s.status.atAcceptance := rfl
@[simp] theorem accept_cmd (w : Word) (s : State) :
    (accept w s).cmd = w := rfl
@[simp] theorem accept_operands (w : Word) (s : State) :
    (accept w s).operands = s.operands := rfl
@[simp] theorem accept_results (w : Word) (s : State) :
    (accept w s).results = .accepted := rfl
@[simp] theorem accept_palEnc (w : Word) (s : State) :
    (accept w s).palEnc = s.palEnc := rfl
@[simp] theorem accept_palDec (w : Word) (s : State) :
    (accept w s).palDec = s.palDec := rfl
@[simp] theorem accept_mem (w : Word) (s : State) :
    (accept w s).mem = s.mem := rfl
@[simp] theorem accept_phase (w : Word) (s : State) :
    (accept w s).phase = .busy (latch s w) := rfl
@[simp] theorem accept_ditherBuf (w : Word) (s : State) :
    (accept w s).ditherBuf = s.ditherBuf := rfl
@[simp] theorem accept_rleRun (w : Word) (s : State) :
    (accept w s).rleRun = s.rleRun := rfl
@[simp] theorem accept_response (w : Word) (s : State) :
    (accept w s).response = s.response := rfl
@[simp] theorem accept_host (w : Word) (s : State) :
    (accept w s).host = s.host := rfl
@[simp] theorem accept_sched (w : Word) (s : State) :
    (accept w s).sched = s.sched := rfl
@[simp] theorem accept_draws (w : Word) (s : State) :
    (accept w s).draws = s.draws := rfl

/-! ### Completion (R59) -/

@[simp] theorem complete_params (s : State) (j : Job) (e : Effects) :
    (complete s j e).params = s.params := rfl
@[simp] theorem complete_ctrl (s : State) (j : Job) (e : Effects) :
    (complete s j e).ctrl = s.ctrl := rfl
@[simp] theorem complete_status (s : State) (j : Job) (e : Effects) :
    (complete s j e).status = s.status.atCompletion (clsFlag e.results.clsCount) e.xs e.idxhi e.errcode := rfl
@[simp] theorem complete_cmd (s : State) (j : Job) (e : Effects) :
    (complete s j e).cmd = s.cmd := rfl
@[simp] theorem complete_operands (s : State) (j : Job) (e : Effects) :
    (complete s j e).operands = s.operands := rfl
@[simp] theorem complete_results (s : State) (j : Job) (e : Effects) :
    (complete s j e).results = e.results := rfl
@[simp] theorem complete_palEnc (s : State) (j : Job) (e : Effects) :
    (complete s j e).palEnc = s.palEnc := rfl
@[simp] theorem complete_palDec (s : State) (j : Job) (e : Effects) :
    (complete s j e).palDec = s.palDec := rfl
@[simp] theorem complete_mem (s : State) (j : Job) (e : Effects) :
    (complete s j e).mem = s.mem.writeBytes j.dst.toNat e.out := rfl
@[simp] theorem complete_phase (s : State) (j : Job) (e : Effects) :
    (complete s j e).phase = .idle := rfl
@[simp] theorem complete_ditherBuf (s : State) (j : Job) (e : Effects) :
    (complete s j e).ditherBuf = e.ditherBuf := rfl
@[simp] theorem complete_rleRun (s : State) (j : Job) (e : Effects) :
    (complete s j e).rleRun = e.rleRun := rfl
@[simp] theorem complete_response (s : State) (j : Job) (e : Effects) :
    (complete s j e).response = s.response := rfl
@[simp] theorem complete_host (s : State) (j : Job) (e : Effects) :
    (complete s j e).host = s.host := rfl
@[simp] theorem complete_sched (s : State) (j : Job) (e : Effects) :
    (complete s j e).sched = s.sched := rfl
@[simp] theorem complete_draws (s : State) (j : Job) (e : Effects) :
    (complete s j e).draws = s.draws := rfl

/-! ### Completion of a hazarded job (R366) -/

@[simp] theorem hazardCompletion_params (s : State) (j : Job) :
    (hazardCompletion s j).params = s.params := rfl
@[simp] theorem hazardCompletion_ctrl (s : State) (j : Job) :
    (hazardCompletion s j).ctrl = s.ctrl := rfl
@[simp] theorem hazardCompletion_status (s : State) (j : Job) :
    (hazardCompletion s j).status = s.status.atCompletion (Config.freeBit s.draws) (Config.freeBit (s.draws + 1)) (Config.freeBit (s.draws + 2)) (.ofNumber (Config.freeErrCode s.draws)) := rfl
@[simp] theorem hazardCompletion_cmd (s : State) (j : Job) :
    (hazardCompletion s j).cmd = s.cmd := rfl
@[simp] theorem hazardCompletion_operands (s : State) (j : Job) :
    (hazardCompletion s j).operands = s.operands := rfl
@[simp] theorem hazardCompletion_results (s : State) (j : Job) :
    (hazardCompletion s j).results = freeResults s.draws := rfl
@[simp] theorem hazardCompletion_palEnc (s : State) (j : Job) :
    (hazardCompletion s j).palEnc = s.palEnc := rfl
@[simp] theorem hazardCompletion_palDec (s : State) (j : Job) :
    (hazardCompletion s j).palDec = s.palDec := rfl
@[simp] theorem hazardCompletion_mem (s : State) (j : Job) :
    (hazardCompletion s j).mem = s.mem.writeBytes j.dst.toNat (freeBytes s.draws (dstInside s.params j)) := rfl
@[simp] theorem hazardCompletion_phase (s : State) (j : Job) :
    (hazardCompletion s j).phase = .idle := rfl
@[simp] theorem hazardCompletion_ditherBuf (s : State) (j : Job) :
    (hazardCompletion s j).ditherBuf = s.ditherBuf := rfl
@[simp] theorem hazardCompletion_rleRun (s : State) (j : Job) :
    (hazardCompletion s j).rleRun = s.rleRun := rfl
@[simp] theorem hazardCompletion_response (s : State) (j : Job) :
    (hazardCompletion s j).response = s.response := rfl
@[simp] theorem hazardCompletion_host (s : State) (j : Job) :
    (hazardCompletion s j).host = s.host := rfl
@[simp] theorem hazardCompletion_sched (s : State) (j : Job) :
    (hazardCompletion s j).sched = s.sched := rfl
@[simp] theorem hazardCompletion_draws (s : State) (j : Job) :
    (hazardCompletion s j).draws = s.draws + dstInside s.params j + 5 := rfl

/-! ### The soft reset (R361) -/

@[simp] theorem softReset_params (s : State) :
    (softReset s).params = s.params := rfl
@[simp] theorem softReset_ctrl (s : State) :
    (softReset s).ctrl = (State.powerOn s.params []).ctrl := rfl
@[simp] theorem softReset_status (s : State) :
    (softReset s).status = (State.powerOn s.params []).status := rfl
@[simp] theorem softReset_cmd (s : State) :
    (softReset s).cmd = 0 := rfl
@[simp] theorem softReset_operands (s : State) :
    (softReset s).operands = (State.powerOn s.params []).operands := rfl
@[simp] theorem softReset_results (s : State) :
    (softReset s).results = .accepted := rfl
@[simp] theorem softReset_palEnc (s : State) :
    (softReset s).palEnc = .reset := rfl
@[simp] theorem softReset_palDec (s : State) :
    (softReset s).palDec = .reset := rfl
@[simp] theorem softReset_mem (s : State) :
    (softReset s).mem = softResetMem s := rfl
@[simp] theorem softReset_phase (s : State) :
    (softReset s).phase = .idle := rfl
@[simp] theorem softReset_ditherBuf (s : State) :
    (softReset s).ditherBuf = (State.powerOn s.params []).ditherBuf := rfl
@[simp] theorem softReset_rleRun (s : State) :
    (softReset s).rleRun = (State.powerOn s.params []).rleRun := rfl
@[simp] theorem softReset_response (s : State) :
    (softReset s).response = s.response := rfl
@[simp] theorem softReset_host (s : State) :
    (softReset s).host = s.host := rfl
@[simp] theorem softReset_sched (s : State) :
    (softReset s).sched = s.sched := rfl
@[simp] theorem softReset_draws (s : State) :
    (softReset s).draws = s.draws + abandonedBytes s := rfl

/-! ### A host write of STATUS (R34) -/

@[simp] theorem writeStatus_params (v : Word) (s : State) :
    (writeStatus v s).params = s.params := rfl
@[simp] theorem writeStatus_ctrl (v : Word) (s : State) :
    (writeStatus v s).ctrl = s.ctrl := rfl
@[simp] theorem writeStatus_status (v : Word) (s : State) :
    (writeStatus v s).status = s.status.clear v := rfl
@[simp] theorem writeStatus_cmd (v : Word) (s : State) :
    (writeStatus v s).cmd = s.cmd := rfl
@[simp] theorem writeStatus_operands (v : Word) (s : State) :
    (writeStatus v s).operands = s.operands := rfl
@[simp] theorem writeStatus_results (v : Word) (s : State) :
    (writeStatus v s).results = s.results := rfl
@[simp] theorem writeStatus_palEnc (v : Word) (s : State) :
    (writeStatus v s).palEnc = s.palEnc := rfl
@[simp] theorem writeStatus_palDec (v : Word) (s : State) :
    (writeStatus v s).palDec = s.palDec := rfl
@[simp] theorem writeStatus_mem (v : Word) (s : State) :
    (writeStatus v s).mem = s.mem := rfl
@[simp] theorem writeStatus_phase (v : Word) (s : State) :
    (writeStatus v s).phase = s.phase := rfl
@[simp] theorem writeStatus_ditherBuf (v : Word) (s : State) :
    (writeStatus v s).ditherBuf = s.ditherBuf := rfl
@[simp] theorem writeStatus_rleRun (v : Word) (s : State) :
    (writeStatus v s).rleRun = s.rleRun := rfl
@[simp] theorem writeStatus_response (v : Word) (s : State) :
    (writeStatus v s).response = s.response := rfl
@[simp] theorem writeStatus_host (v : Word) (s : State) :
    (writeStatus v s).host = s.host := rfl
@[simp] theorem writeStatus_sched (v : Word) (s : State) :
    (writeStatus v s).sched = s.sched := rfl
@[simp] theorem writeStatus_draws (v : Word) (s : State) :
    (writeStatus v s).draws = s.draws := rfl

/-! ### A host read of the buffer RAM (R83) -/

@[simp] theorem readBuffer_params (s : State) (a : Nat) (w : BusWidth) :
    (readBuffer s a w).params = s.params := rfl
@[simp] theorem readBuffer_ctrl (s : State) (a : Nat) (w : BusWidth) :
    (readBuffer s a w).ctrl = s.ctrl := rfl
@[simp] theorem readBuffer_status (s : State) (a : Nat) (w : BusWidth) :
    (readBuffer s a w).status = s.status := rfl
@[simp] theorem readBuffer_cmd (s : State) (a : Nat) (w : BusWidth) :
    (readBuffer s a w).cmd = s.cmd := rfl
@[simp] theorem readBuffer_operands (s : State) (a : Nat) (w : BusWidth) :
    (readBuffer s a w).operands = s.operands := rfl
@[simp] theorem readBuffer_results (s : State) (a : Nat) (w : BusWidth) :
    (readBuffer s a w).results = s.results := rfl
@[simp] theorem readBuffer_palEnc (s : State) (a : Nat) (w : BusWidth) :
    (readBuffer s a w).palEnc = s.palEnc := rfl
@[simp] theorem readBuffer_palDec (s : State) (a : Nat) (w : BusWidth) :
    (readBuffer s a w).palDec = s.palDec := rfl
@[simp] theorem readBuffer_mem (s : State) (a : Nat) (w : BusWidth) :
    (readBuffer s a w).mem = s.mem := rfl
@[simp] theorem readBuffer_phase (s : State) (a : Nat) (w : BusWidth) :
    (readBuffer s a w).phase = s.phase := rfl
@[simp] theorem readBuffer_ditherBuf (s : State) (a : Nat) (w : BusWidth) :
    (readBuffer s a w).ditherBuf = s.ditherBuf := rfl
@[simp] theorem readBuffer_rleRun (s : State) (a : Nat) (w : BusWidth) :
    (readBuffer s a w).rleRun = s.rleRun := rfl
@[simp] theorem readBuffer_response (s : State) (a : Nat) (w : BusWidth) :
    (readBuffer s a w).response = .read (dataOfBytes (hostReadByte s a) w) := rfl
@[simp] theorem readBuffer_host (s : State) (a : Nat) (w : BusWidth) :
    (readBuffer s a w).host = s.host := rfl
@[simp] theorem readBuffer_sched (s : State) (a : Nat) (w : BusWidth) :
    (readBuffer s a w).sched = s.sched := rfl
@[simp] theorem readBuffer_draws (s : State) (a : Nat) (w : BusWidth) :
    (readBuffer s a w).draws = s.draws + readDraws s a (widthBytes w) := rfl

/-! ### A host write of the buffer RAM (R83) -/

@[simp] theorem writeBuffer_params (s : State) (a : Nat) (d : BusData) :
    (writeBuffer s a d).params = s.params := rfl
@[simp] theorem writeBuffer_ctrl (s : State) (a : Nat) (d : BusData) :
    (writeBuffer s a d).ctrl = s.ctrl := rfl
@[simp] theorem writeBuffer_status (s : State) (a : Nat) (d : BusData) :
    (writeBuffer s a d).status = s.status := rfl
@[simp] theorem writeBuffer_cmd (s : State) (a : Nat) (d : BusData) :
    (writeBuffer s a d).cmd = s.cmd := rfl
@[simp] theorem writeBuffer_operands (s : State) (a : Nat) (d : BusData) :
    (writeBuffer s a d).operands = s.operands := rfl
@[simp] theorem writeBuffer_results (s : State) (a : Nat) (d : BusData) :
    (writeBuffer s a d).results = s.results := rfl
@[simp] theorem writeBuffer_palEnc (s : State) (a : Nat) (d : BusData) :
    (writeBuffer s a d).palEnc = s.palEnc := rfl
@[simp] theorem writeBuffer_palDec (s : State) (a : Nat) (d : BusData) :
    (writeBuffer s a d).palDec = s.palDec := rfl
@[simp] theorem writeBuffer_mem (s : State) (a : Nat) (d : BusData) :
    (writeBuffer s a d).mem = s.mem.writeBytes a (dataBytes d) := rfl
@[simp] theorem writeBuffer_phase (s : State) (a : Nat) (d : BusData) :
    (writeBuffer s a d).phase = s.phase.afterBufferWrite a (dataBytes d).length := rfl
@[simp] theorem writeBuffer_ditherBuf (s : State) (a : Nat) (d : BusData) :
    (writeBuffer s a d).ditherBuf = s.ditherBuf := rfl
@[simp] theorem writeBuffer_rleRun (s : State) (a : Nat) (d : BusData) :
    (writeBuffer s a d).rleRun = s.rleRun := rfl
@[simp] theorem writeBuffer_response (s : State) (a : Nat) (d : BusData) :
    (writeBuffer s a d).response = .written := rfl
@[simp] theorem writeBuffer_host (s : State) (a : Nat) (d : BusData) :
    (writeBuffer s a d).host = s.host := rfl
@[simp] theorem writeBuffer_sched (s : State) (a : Nat) (d : BusData) :
    (writeBuffer s a d).sched = s.sched := rfl
@[simp] theorem writeBuffer_draws (s : State) (a : Nat) (d : BusData) :
    (writeBuffer s a d).draws = s.draws := rfl

/-! ### The state `withFetchWord` gives (log 9) -/

@[simp] theorem present_params (w : Word) (s : State) :
    (present w s).params = s.params := rfl
@[simp] theorem present_ctrl (w : Word) (s : State) :
    (present w s).ctrl = s.ctrl := rfl
@[simp] theorem present_status (w : Word) (s : State) :
    (present w s).status = s.status.atAcceptance := rfl
@[simp] theorem present_cmd (w : Word) (s : State) :
    (present w s).cmd = w := rfl
@[simp] theorem present_operands (w : Word) (s : State) :
    (present w s).operands = s.operands := rfl
@[simp] theorem present_results (w : Word) (s : State) :
    (present w s).results = .accepted := rfl
@[simp] theorem present_palEnc (w : Word) (s : State) :
    (present w s).palEnc = s.palEnc := rfl
@[simp] theorem present_palDec (w : Word) (s : State) :
    (present w s).palDec = s.palDec := rfl
@[simp] theorem present_mem (w : Word) (s : State) :
    (present w s).mem = s.mem := rfl
@[simp] theorem present_phase (w : Word) (s : State) :
    (present w s).phase = .busy (latch s w) := rfl
@[simp] theorem present_ditherBuf (w : Word) (s : State) :
    (present w s).ditherBuf = s.ditherBuf := rfl
@[simp] theorem present_rleRun (w : Word) (s : State) :
    (present w s).rleRun = s.rleRun := rfl
@[simp] theorem present_response (w : Word) (s : State) :
    (present w s).response = s.response := rfl
@[simp] theorem present_host (w : Word) (s : State) :
    (present w s).host = s.host := rfl
@[simp] theorem present_sched (w : Word) (s : State) :
    (present w s).sched = .engine :: s.sched := rfl
@[simp] theorem present_draws (w : Word) (s : State) :
    (present w s).draws = s.draws := rfl

/-! ### The power-on state -/

@[simp] theorem State.powerOn_params (p : Params) (ram : Memory) :
    (State.powerOn p ram).params = p := rfl
@[simp] theorem State.powerOn_mem (p : Params) (ram : Memory) :
    (State.powerOn p ram).mem = ram := rfl
@[simp] theorem State.powerOn_phase (p : Params) (ram : Memory) :
    (State.powerOn p ram).phase = .idle := rfl
@[simp] theorem State.powerOn_results (p : Params) (ram : Memory) :
    (State.powerOn p ram).results = .accepted := rfl
@[simp] theorem State.powerOn_palEnc (p : Params) (ram : Memory) :
    (State.powerOn p ram).palEnc = .reset := rfl
@[simp] theorem State.powerOn_palDec (p : Params) (ram : Memory) :
    (State.powerOn p ram).palDec = .reset := rfl
@[simp] theorem State.powerOn_cmd (p : Params) (ram : Memory) :
    (State.powerOn p ram).cmd = 0 := rfl
@[simp] theorem State.powerOn_host (p : Params) (ram : Memory) :
    (State.powerOn p ram).host = [] := rfl
@[simp] theorem State.powerOn_sched (p : Params) (ram : Memory) :
    (State.powerOn p ram).sched = [] := rfl

/-! ### STATUS -/

@[simp] theorem Status.atAcceptance_done (s : Status) : s.atAcceptance.done = false := rfl
@[simp] theorem Status.atCompletion_done (s : Status) (cls xs idxhi : Bool) (e : ErrCode) :
    (s.atCompletion cls xs idxhi e).done = true := rfl
@[simp] theorem Status.clear_done (s : Status) (w : Word) : (s.clear w).done = (s.done && !w.getLsbD 1) := rfl
@[simp] theorem Status.atAcceptance_err (s : Status) : s.atAcceptance.err = false := rfl
@[simp] theorem Status.atCompletion_err (s : Status) (cls xs idxhi : Bool) (e : ErrCode) :
    (s.atCompletion cls xs idxhi e).err = errFlag e := rfl
@[simp] theorem Status.clear_err (s : Status) (w : Word) : (s.clear w).err = (s.err && !w.getLsbD 2) := rfl
@[simp] theorem Status.atAcceptance_cls (s : Status) : s.atAcceptance.cls = false := rfl
@[simp] theorem Status.atCompletion_cls (s : Status) (cls xs idxhi : Bool) (e : ErrCode) :
    (s.atCompletion cls xs idxhi e).cls = cls := rfl
@[simp] theorem Status.clear_cls (s : Status) (w : Word) : (s.clear w).cls = (s.cls && !w.getLsbD 3) := rfl
@[simp] theorem Status.atAcceptance_xs (s : Status) : s.atAcceptance.xs = false := rfl
@[simp] theorem Status.atCompletion_xs (s : Status) (cls xs idxhi : Bool) (e : ErrCode) :
    (s.atCompletion cls xs idxhi e).xs = xs := rfl
@[simp] theorem Status.clear_xs (s : Status) (w : Word) : (s.clear w).xs = (s.xs && !w.getLsbD 4) := rfl
@[simp] theorem Status.atAcceptance_idxhi (s : Status) : s.atAcceptance.idxhi = false := rfl
@[simp] theorem Status.atCompletion_idxhi (s : Status) (cls xs idxhi : Bool) (e : ErrCode) :
    (s.atCompletion cls xs idxhi e).idxhi = idxhi := rfl
@[simp] theorem Status.clear_idxhi (s : Status) (w : Word) : (s.clear w).idxhi = (s.idxhi && !w.getLsbD 5) := rfl
@[simp] theorem Status.atAcceptance_lost (s : Status) : s.atAcceptance.lost = s.lost := rfl
@[simp] theorem Status.atCompletion_lost (s : Status) (cls xs idxhi : Bool) (e : ErrCode) :
    (s.atCompletion cls xs idxhi e).lost = s.lost := rfl
@[simp] theorem Status.clear_lost (s : Status) (w : Word) : (s.clear w).lost = (s.lost && !w.getLsbD 6) := rfl
@[simp] theorem Status.atAcceptance_errcode (s : Status) : s.atAcceptance.errcode = .none := rfl
@[simp] theorem Status.atCompletion_errcode (s : Status) (cls xs idxhi : Bool) (e : ErrCode) :
    (s.atCompletion cls xs idxhi e).errcode = e := rfl
@[simp] theorem Status.clear_errcode (s : Status) (w : Word) : (s.clear w).errcode = (s.errcode) := rfl

end Sys2Proof.Machine
end

