-- ==== Sys2Proof/Laws/Memory.lean ====
section
/-! SUPPORT. The laws of the buffer RAM: read after write, and the canonical form. -/

namespace Sys2Proof.Machine

/-! ### Read after write -/

theorem Memory.read_of_keys_gt (m : Memory) (a : Nat) (h : ∀ c ∈ m, a < c.1) :
    m.read a = Memory.unlisted := by
  induction m with
  | nil => rfl
  | cons c m ih =>
    obtain ⟨k, b⟩ := c
    have hk : a < k := h (k, b) (by simp)
    simp only [Memory.read, if_neg (by omega : ¬ k = a)]
    exact ih fun c hc => h c (by simp [hc])

theorem Memory.wf_cons {k : Nat} {b : Byte} {m : Memory} :
    Memory.wf ((k, b) :: m) = true ↔
      b ≠ Memory.unlisted ∧ (∀ c ∈ m, k < c.1) ∧ Memory.wf m = true := by
  simp [Memory.wf, and_assoc]

/-- What a write does to every byte, on a memory in canonical form. -/
theorem Memory.read_write {m : Memory} (hm : m.wf = true) (a a' : Nat) (v : Byte) :
    (m.write a v).read a' = if a' = a then v else m.read a' := by
  induction m with
  | nil =>
    have hne : a' ≠ a → ¬ a = a' := fun h h' => h h'.symm
    by_cases hv : v = Memory.unlisted <;> by_cases ha : a' = a <;>
      simp_all [Memory.write, Memory.read]
  | cons c m ih =>
    obtain ⟨k, b⟩ := c
    obtain ⟨-, hk, hw⟩ := Memory.wf_cons.mp hm
    have ih := ih hw
    by_cases hlt : k < a
    · by_cases ha : a' = a
      · subst ha
        simp [Memory.write, hlt, Memory.read, ih, Nat.ne_of_lt hlt]
      · simp [Memory.write, hlt, Memory.read, ih, ha]
    · by_cases heq : k = a
      · subst heq
        have hk0 : Memory.read m k = Memory.unlisted := Memory.read_of_keys_gt m k hk
        have hne : a' ≠ k → ¬ k = a' := fun h h' => h h'.symm
        by_cases hv : v = Memory.unlisted <;> by_cases ha : a' = k <;>
          simp_all [Memory.write, Memory.read]
      · have hka : a < k := by omega
        have h0 : Memory.read ((k, b) :: m) a = Memory.unlisted :=
          Memory.read_of_keys_gt _ a (by
            intro c hc
            rcases List.mem_cons.mp hc with rfl | hc
            · exact hka
            · exact lt_trans hka (hk c hc))
        by_cases hv : v = Memory.unlisted
        · by_cases ha : a' = a
          · subst ha; simp [Memory.write, hlt, heq, hv, h0]
          · simp [Memory.write, hlt, heq, hv, ha]
        · by_cases ha : a' = a
          · subst ha; simp [Memory.write, hlt, heq, hv, Memory.read]
          · have ha' : ¬ a = a' := fun h => ha h.symm
            rw [if_neg ha]
            simp [Memory.write, hlt, heq, hv, Memory.read, ha']

theorem Memory.write_keys {m : Memory} {a : Nat} {v : Byte} {c : Host.Cell} (h : c ∈ m.write a v) :
    c ∈ m ∨ c = (a, v) := by
  induction m with
  | nil => by_cases hv : v = Memory.unlisted <;> simp_all [Memory.write]
  | cons c' m ih =>
    obtain ⟨k, b⟩ := c'
    unfold Memory.write at h
    split at h
    · rcases List.mem_cons.mp h with rfl | h
      · simp
      · rcases ih h with h | h
        · simp [h]
        · exact Or.inr h
    · split at h
      · split at h
        · simp [h]
        · rcases List.mem_cons.mp h with rfl | h
          · exact Or.inr rfl
          · simp [h]
      · split at h
        · exact Or.inl h
        · rcases List.mem_cons.mp h with rfl | h
          · exact Or.inr rfl
          · exact Or.inl h

/-! ### Every memory operation keeps the canonical form -/

theorem Memory.wf_write {m : Memory} (hm : m.wf = true) (a : Nat) (v : Byte) :
    (m.write a v).wf = true := by
  induction m with
  | nil => by_cases hv : v = Memory.unlisted <;> simp [Memory.write, Memory.wf, hv]
  | cons c m ih =>
    obtain ⟨k, b⟩ := c
    obtain ⟨hb, hk, hw⟩ := Memory.wf_cons.mp hm
    unfold Memory.write
    split
    · rename_i hlt
      refine Memory.wf_cons.mpr ⟨hb, fun c hc => ?_, ih hw⟩
      rcases Memory.write_keys hc with hc | rfl
      · exact hk c hc
      · exact hlt
    · split
      · rename_i heq
        split
        · exact hw
        · rename_i hv
          exact Memory.wf_cons.mpr ⟨hv, fun c hc => heq ▸ hk c hc, hw⟩
      · split
        · exact hm
        · rename_i hlt hne hv
          refine Memory.wf_cons.mpr ⟨hv, fun c hc => ?_, hm⟩
          rcases List.mem_cons.mp hc with rfl | hc
          · show a < k
            omega
          · exact lt_trans (by omega) (hk c hc)

theorem Memory.wf_writeBytes {m : Memory} (hm : m.wf = true) (a : Nat) (bs : List Byte) :
    (m.writeBytes a bs).wf = true := by
  induction bs generalizing m a with
  | nil => exact hm
  | cons b bs ih => exact ih (Memory.wf_write hm a b) (a + 1)

theorem Memory.inside_iff {m : Memory} {n : Nat} : m.inside n = true ↔ ∀ c ∈ m, c.1 < n := by
  simp [Memory.inside]

theorem Memory.inside_write {m : Memory} {n a : Nat} (hm : m.inside n = true) (ha : a < n) (v : Byte) :
    (m.write a v).inside n = true := by
  refine Memory.inside_iff.mpr fun c hc => ?_
  rcases Memory.write_keys hc with hc | rfl
  · exact Memory.inside_iff.mp hm c hc
  · exact ha

theorem Memory.inside_writeBytes {m : Memory} {n a : Nat} (hm : m.inside n = true) (bs : List Byte)
    (ha : a + bs.length ≤ n) : (m.writeBytes a bs).inside n = true := by
  induction bs generalizing m a with
  | nil => exact hm
  | cons b bs ih =>
    simp only [List.length_cons] at ha
    exact ih (Memory.inside_write hm (by omega) b) (by omega)

/-- Reading outside the bytes a multi-byte write stores to. -/
theorem Memory.read_writeBytes_outside {m : Memory} (hm : m.wf = true) (a : Nat) (bs : List Byte)
    (b : Nat) (h : b < a ∨ a + bs.length ≤ b) : (m.writeBytes a bs).read b = m.read b := by
  induction bs generalizing m a with
  | nil => rfl
  | cons v bs ih =>
    simp only [List.length_cons] at h
    rw [Memory.writeBytes, ih (Memory.wf_write hm a v) (a + 1) (by omega), Memory.read_write hm,
      if_neg (by omega)]

/-- Reading one of the bytes a multi-byte write stores. -/
theorem Memory.read_writeBytes_inside {m : Memory} (hm : m.wf = true) (a : Nat) (bs : List Byte)
    (k : Nat) (h : k < bs.length) : (m.writeBytes a bs).read (a + k) = bs[k] := by
  induction bs generalizing m a k with
  | nil => simp at h
  | cons v bs ih =>
    cases k with
    | zero =>
      rw [Memory.writeBytes, Memory.read_writeBytes_outside (Memory.wf_write hm a v) _ _ _ (by omega),
        Memory.read_write hm]
      simp
    | succ k =>
      have := ih (Memory.wf_write hm a v) (a + 1) k (by simpa using h)
      rw [Memory.writeBytes, show a + (k + 1) = a + 1 + k by omega, this]
      rfl

@[simp] theorem Memory.length_readBytes (m : Memory) (a n : Nat) : (m.readBytes a n).length = n := by
  simp [Memory.readBytes]

theorem Memory.getElem_readBytes (m : Memory) (a n k : Nat) (h : k < (m.readBytes a n).length) :
    (m.readBytes a n)[k] = m.read (a + k) := by
  simp [Memory.readBytes]

/-- Two memories in canonical form that read alike are equal: equal memories are equal data. -/
theorem Memory.ext_of_wf {m m' : Memory} (hm : m.wf = true) (hm' : m'.wf = true)
    (h : ∀ a, m.read a = m'.read a) : m = m' := by
  induction m generalizing m' with
  | nil =>
    cases m' with
    | nil => rfl
    | cons c m' =>
      obtain ⟨k, b⟩ := c
      have := h k
      simp [Memory.read] at this
      exact absurd this.symm (Memory.wf_cons.mp hm').1
  | cons c m ih =>
    obtain ⟨k, b⟩ := c
    obtain ⟨hb, hk, hw⟩ := Memory.wf_cons.mp hm
    cases m' with
    | nil =>
      have := h k
      simp [Memory.read] at this
      exact absurd this hb
    | cons c' m' =>
      obtain ⟨k', b'⟩ := c'
      obtain ⟨hb', hk', hw'⟩ := Memory.wf_cons.mp hm'
      have hkk : k = k' := by
        rcases Nat.lt_trichotomy k k' with hlt | heq | hgt
        · have h1 := h k
          rw [Memory.read_of_keys_gt ((k', b') :: m') k (by
            intro c hc
            rcases List.mem_cons.mp hc with rfl | hc
            · exact hlt
            · exact lt_trans hlt (hk' c hc))] at h1
          simp [Memory.read] at h1
          exact absurd h1 hb
        · exact heq
        · have h1 := h k'
          rw [Memory.read_of_keys_gt ((k, b) :: m) k' (by
            intro c hc
            rcases List.mem_cons.mp hc with rfl | hc
            · exact hgt
            · exact lt_trans hgt (hk c hc))] at h1
          simp [Memory.read] at h1
          exact absurd h1.symm hb'
      subst hkk
      have hbb : b = b' := by simpa [Memory.read] using h k
      subst hbb
      refine congrArg _ (ih hw hw' fun a => ?_)
      by_cases ha : k = a
      · subst ha
        rw [Memory.read_of_keys_gt m k hk, Memory.read_of_keys_gt m' k hk']
      · simpa [Memory.read, ha] using h a

end Sys2Proof.Machine
end

