-- ==== Sys2Proof/Laws/Ops.lean ====
section
/-! SUPPORT. What each shared operation can do, said once: the prologue, raising an error, completion,
the engine's step, a host access, and one step of the machine. -/

namespace Sys2Proof.Machine

/-! ### The prologue -/

theorem regionOk_iff (p : Params) (j : Job) :
    (!srcRegionOk p j || !dstRegionOk p j) = true ↔ ¬ InRam p j := by
  simp only [srcRegionOk, dstRegionOk, Bool.or_eq_true, Bool.not_eq_true', decide_eq_false_iff_not]
  omega

theorem regionsOverlap_iff (j : Job) : regionsOverlap j = true ↔ Overlap j := by
  simp [regionsOverlap, and_assoc]

theorem need_iff (j : Job) (c : Checks) :
    (c.need.any fun k => decide (j.slen.toNat < k)) = true ↔ FailsNeed j c := by
  cases h : c.need <;> simp [FailsNeed, h]

theorem outsize_iff (j : Job) (c : Checks) :
    (c.outsize.any fun k => decide (j.cap.toNat < k)) = true ↔ FailsSize j c := by
  cases h : c.outsize <;> simp [FailsSize, h]

/-- The prologue as a cascade of its five checks (R329). -/
theorem prologue_eq (p : Params) (j : Job) (c : Checks) [Decidable (InRam p j)]
    [Decidable (FailsNeed j c)] [Decidable (FailsSize j c)] :
    prologue p j c =
      if FailsWidth p j c then some (.widthLimit, 0)
      else if ¬ InRam p j then some (.range, 0)
      else if Overlap j then some (.overlap, 0)
      else if FailsNeed j c then some (.truncated, j.slen.toNat)
      else if FailsSize j c then some (.dstOverflow, 0)
      else none := by
  simp only [prologue, regionOk_iff, regionsOverlap_iff, need_iff, outsize_iff]

theorem cascade_none {P1 P2 P3 P4 P5 : Prop} [Decidable P1] [Decidable P2] [Decidable P3]
    [Decidable P4] [Decidable P5] {x1 x2 x3 x4 x5 : ErrCode × Nat} :
    (if P1 then some x1 else if ¬ P2 then some x2 else if P3 then some x3
      else if P4 then some x4 else if P5 then some x5 else none) = none ↔
      ¬ P1 ∧ P2 ∧ ¬ P3 ∧ ¬ P4 ∧ ¬ P5 := by
  split_ifs <;> simp_all

theorem cascade_some {P1 P2 P3 P4 P5 : Prop} [Decidable P1] [Decidable P2] [Decidable P3]
    [Decidable P4] [Decidable P5] {x1 x2 x3 x4 x5 y : ErrCode × Nat} :
    (if P1 then some x1 else if ¬ P2 then some x2 else if P3 then some x3
      else if P4 then some x4 else if P5 then some x5 else none) = some y ↔
      (P1 ∧ x1 = y) ∨ (¬ P1 ∧ ¬ P2 ∧ x2 = y) ∨ (¬ P1 ∧ P2 ∧ P3 ∧ x3 = y) ∨
      (¬ P1 ∧ P2 ∧ ¬ P3 ∧ P4 ∧ x4 = y) ∨ (¬ P1 ∧ P2 ∧ ¬ P3 ∧ ¬ P4 ∧ P5 ∧ x5 = y) := by
  split_ifs <;> simp_all

/-- The prologue lets a command through exactly when every check passes (R329). -/
theorem prologue_none_iff (p : Params) (j : Job) (c : Checks) :
    prologue p j c = none ↔ Passes p j c := by
  classical
  rw [prologue_eq, cascade_none]

/-- The prologue raises exactly the first check that fails (R329). -/
theorem prologue_some_iff (p : Params) (j : Job) (c : Checks) (code : ErrCode) (pos : Nat) :
    prologue p j c = some (code, pos) ↔ FirstFailure p j c code pos := by
  classical
  rw [prologue_eq, cascade_some]
  cases code <;> simp only [FirstFailure, Prod.mk.injEq, reduceCtorEq, false_and, and_false,
    or_false, false_or, true_and, eq_comm]

/-! ### Effects -/

@[simp] theorem Effects.start_out (s : State) : (Effects.start s).out = [] := rfl
@[simp] theorem Effects.start_results (s : State) : (Effects.start s).results = s.results := rfl
@[simp] theorem Effects.start_xs (s : State) : (Effects.start s).xs = false := rfl
@[simp] theorem Effects.start_idxhi (s : State) : (Effects.start s).idxhi = false := rfl
@[simp] theorem Effects.start_errcode (s : State) : (Effects.start s).errcode = .none := rfl
@[simp] theorem Effects.start_ditherBuf (s : State) : (Effects.start s).ditherBuf = s.ditherBuf := rfl
@[simp] theorem Effects.start_rleRun (s : State) : (Effects.start s).rleRun = s.rleRun := rfl

section
variable (e : Effects) (code : ErrCode) (info : Nat)
@[simp] theorem Effects.raise_out : (e.raise code info).out = e.out := rfl
@[simp] theorem Effects.raise_outLen : (e.raise code info).results.outLen = e.results.outLen := rfl
@[simp] theorem Effects.raise_inUsed : (e.raise code info).results.inUsed = e.results.inUsed := rfl
@[simp] theorem Effects.raise_clsCount :
    (e.raise code info).results.clsCount = e.results.clsCount := rfl
@[simp] theorem Effects.raise_clsFirst :
    (e.raise code info).results.clsFirst = e.results.clsFirst := rfl
@[simp] theorem Effects.raise_errPos :
    (e.raise code info).results.errPos =
      if code = .truncated then BitVec.ofNat 32 info else 0 := rfl
@[simp] theorem Effects.raise_xs : (e.raise code info).xs = e.xs := rfl
@[simp] theorem Effects.raise_idxhi : (e.raise code info).idxhi = e.idxhi := rfl
@[simp] theorem Effects.raise_errcode : (e.raise code info).errcode = code := rfl
@[simp] theorem Effects.raise_ditherBuf : (e.raise code info).ditherBuf = e.ditherBuf := rfl
@[simp] theorem Effects.raise_rleRun : (e.raise code info).rleRun = e.rleRun := rfl
end

/-! ### Completion -/

theorem runCommand_busy (rule : State → Job → Effects) {s : State} {j : Job}
    (h : s.phase = .busy j) : runCommand rule s = .next (complete s j (rule s j)) := by
  simp [runCommand, h]

theorem runCommand_idle (rule : State → Job → Effects) {s : State} (h : s.phase = .idle) :
    runCommand rule s = .next s := by
  simp [runCommand, h]

/-- The rule of each command. -/
def ruleOf : Instr → State → Job → Effects
  | .nop => nopRule
  | .rleEnc => rleEncRule
  | .rleDec => rleDecRule
  | .pack => packRule
  | .unpack => unpackRule
  | .qenc => qencRule
  | .qdec => qdecRule
  | .dither => ditherRule false
  | .ditherIdx => ditherRule true
  | .encPlane => encPlaneRule
  | .decPlane => decPlaneRule
  | .encGray => encGrayRule

/-- Every command completes, with what its rule leaves. -/
theorem exec_busy (i : Instr) {s : State} {j : Job} (h : s.phase = .busy j) :
    exec i s = .next (complete s j (ruleOf i s j)) := by
  cases i <;> exact runCommand_busy _ h

theorem exec_idle (i : Instr) {s : State} (h : s.phase = .idle) : exec i s = .next s := by
  cases i <;> exact runCommand_idle _ h

/-- After a prologue error the rule has done nothing but raise it (R329). -/
theorem ruleOf_of_prologue {i : Instr} {s : State} {j : Job} {c : Checks} {code : ErrCode}
    {pos : Nat} (hc : commandChecks i j = some c) (hp : prologue s.params j c = some (code, pos)) :
    ruleOf i s j = (Effects.start s).raise code pos := by
  cases i <;> simp only [commandChecks, Option.some.injEq, reduceCtorEq] at hc <;> subst hc <;>
    simp only [ruleOf, rleEncRule, rleDecRule, packRule, unpackRule, qencRule, qdecRule, ditherRule,
      encPlaneRule, decPlaneRule, encGrayRule, hp]

/-! ### The engine's step and the host's -/

/-- The completion step always gives a next state: the hazard outcome, or the completion of the
command's rule or of ILLEGAL_CMD (R59). -/
theorem engineStep_cases {s : State} {j : Job} (h : s.phase = .busy j) :
    (j.hazard = true ∧ engineStep j s = .next (hazardCompletion s j)) ∨
    (j.hazard = false ∧ (∃ e, decode j.cmdw = .error e) ∧
      engineStep j s = .next (illegalCompletion s j)) ∨
    (j.hazard = false ∧ ∃ i, decode j.cmdw = .ok i ∧
      engineStep j s = .next (complete s j (ruleOf i s j))) := by
  unfold engineStep
  cases hz : j.hazard
  · cases hd : decode j.cmdw with
    | error e => exact Or.inr (Or.inl ⟨rfl, ⟨e, rfl⟩, by simp⟩)
    | ok i => exact Or.inr (Or.inr ⟨rfl, i, rfl, by simp [exec_busy i h]⟩)
  · exact Or.inl ⟨rfl, by simp⟩

/-- Everything a host access can do (R80 to R86). -/
theorem hostAccess_cases (a : HostAccess) (s : State) :
    (∃ f, hostAccess a s = .fault f) ∨
    (∃ off, off < 0x100 ∧ off % 4 = 0 ∧
      ((∃ o, a = .read o .w32 ∧ o.toNat = off ∧
        hostAccess a s = .next { s with response := .read (.word (readSlot s off)) }) ∨
       (∃ o v, a = .write o (.word v) ∧ o.toNat = off ∧
        hostAccess a s = .next { writeSlot off v s with response := .written }))) ∨
    (∃ b, (accessOffset a).toNat = 0x400000 + b ∧
      b + widthBytes (accessWidth a) ≤ s.params.bufBytes ∧
      ((∃ o w, a = .read o w ∧ hostAccess a s = .next (readBuffer s b w)) ∨
       (∃ o d, a = .write o d ∧ hostAccess a s = .next (writeBuffer s b d)))) := by
  unfold hostAccess
  by_cases h1 : (accessOffset a).toNat < 0x100
  · by_cases h2 : widthBytes (accessWidth a) = 4 ∧ (accessOffset a).toNat % 4 = 0
    · refine Or.inr (Or.inl ⟨(accessOffset a).toNat, h1, h2.2, ?_⟩)
      rw [busTarget, if_pos h1, if_pos h2]
      cases a with
      | read o w =>
        cases w <;> simp [accessWidth, widthBytes] at h2
        exact Or.inl ⟨o, rfl, rfl, rfl⟩
      | write o d =>
        cases d <;> simp [accessWidth, dataWidth, widthBytes] at h2
        exact Or.inr ⟨o, _, rfl, rfl, rfl⟩
    · exact Or.inl ⟨.registerAccess, by rw [busTarget, if_pos h1, if_neg h2]⟩
  · by_cases h2 : (accessOffset a).toNat < 0x400000 ∨
        0x400000 + s.params.bufBytes < (accessOffset a).toNat + widthBytes (accessWidth a)
    · exact Or.inl ⟨.unmapped, by rw [busTarget, if_neg h1, if_pos h2]⟩
    · by_cases h3 : (accessOffset a).toNat % widthBytes (accessWidth a) ≠ 0
      · exact Or.inl ⟨.misaligned, by rw [busTarget, if_neg h1, if_neg h2, if_pos h3]⟩
      · refine Or.inr (Or.inr ⟨(accessOffset a).toNat - 0x400000, by omega, by omega, ?_⟩)
        rw [busTarget, if_neg h1, if_neg h2, if_neg h3]
        cases a with
        | read o w => exact Or.inl ⟨o, w, rfl, rfl⟩
        | write o d => exact Or.inr ⟨o, d, rfl, rfl⟩

/-- A register stands at its own offset, and at no other (10_state.md, register map). -/
theorem regAt_eq_some_iff (off : Nat) (r : Reg) : regAt off = some r ↔ off = (regOffset r).toNat := by
  constructor
  · intro h
    unfold regAt at h
    split at h <;> simp only [Option.some.injEq, reduceCtorEq] at h <;> subst h <;> rfl
  · rintro rfl
    cases r <;> rfl

/-- A word write to a word slot of the register space (R82). -/
theorem hostAccess_write_slot (s : State) (off : WindowOffset) (v : Word) (h : off.toNat < 0x100)
    (h4 : off.toNat % 4 = 0) :
    hostAccess (.write off (.word v)) s =
      .next { writeSlot off.toNat v s with response := .written } := by
  simp [hostAccess, accessOffset, accessWidth, dataWidth, widthBytes, busTarget, h, h4, accessTarget,
    dataWord]

/-- A word read of a word slot of the register space (R82). -/
theorem hostAccess_read_slot (s : State) (off : WindowOffset) (h : off.toNat < 0x100)
    (h4 : off.toNat % 4 = 0) :
    hostAccess (.read off .w32) s =
      .next { s with response := .read (.word (readSlot s off.toNat)) } := by
  simp [hostAccess, accessOffset, accessWidth, widthBytes, busTarget, h, h4, accessTarget]

/-- The target of a buffer access that gets no bus error (R83). -/
theorem busTarget_buffer {p : Params} {off n : Nat} (h : 0x400000 ≤ off)
    (h1 : off + n ≤ 0x400000 + p.bufBytes) (h2 : off % n = 0) :
    busTarget p off n = .ok (.buffer (off - 0x400000)) := by
  unfold busTarget
  rw [if_neg (by omega), if_neg (by omega), if_neg (by omega)]

/-- A write to the buffer half of the window that gets no bus error (R83). -/
theorem hostAccess_write_buffer (s : State) (off : WindowOffset) (d : BusData)
    (h : 0x400000 ≤ off.toNat) (hl : LegalAccess s.params off.toNat (widthBytes (dataWidth d))) :
    hostAccess (.write off d) s = .next (writeBuffer s (off.toNat - 0x400000) d) := by
  rcases hl with hl | hl
  · omega
  · simp only [hostAccess, accessOffset, accessWidth, busTarget_buffer h hl.2.1 hl.2.2, accessTarget]

/-- A read of the buffer half of the window that gets no bus error (R83). -/
theorem hostAccess_read_buffer (s : State) (off : WindowOffset) (w : BusWidth)
    (h : 0x400000 ≤ off.toNat) (hl : LegalAccess s.params off.toNat (widthBytes w)) :
    hostAccess (.read off w) s = .next (readBuffer s (off.toNat - 0x400000) w) := by
  rcases hl with hl | hl
  · omega
  · simp only [hostAccess, accessOffset, accessWidth, busTarget_buffer h hl.2.1 hl.2.2, accessTarget]

/-- Everything one step can do: wait, a host operation, or the engine's completion (R95, log 4). -/
theorem step_cases (s : State) :
    (s.phase = .idle ∧ s.host = [] ∧ step s = .next s) ∨
    (∃ op rest, s.host = op :: rest ∧
      ((s.phase = .idle ∧ step s = hostStep op { s with host := rest }) ∨
       (∃ j later, s.phase = .busy j ∧ s.sched = .host :: later ∧
         step s = hostStep op { s with host := rest, sched := later }))) ∨
    (∃ j, s.phase = .busy j ∧ (s.host = [] ∨ s.sched.head? ≠ some .host) ∧
      step s = engineStep j { s with sched := s.sched.tail }) := by
  cases hp : s.phase with
  | idle =>
    cases hh : s.host with
    | nil => exact Or.inl ⟨rfl, rfl, by simp [step, nextMover, hp, hh]⟩
    | cons op rest =>
      exact Or.inr (Or.inl ⟨op, rest, rfl, Or.inl ⟨rfl, by simp [step, nextMover, hp, hh]⟩⟩)
  | busy j =>
    cases hs : s.sched with
    | nil => exact Or.inr (Or.inr ⟨j, rfl, by simp, by simp [step, nextMover, hp, hs]⟩)
    | cons g later =>
      cases g with
      | engine => exact Or.inr (Or.inr ⟨j, rfl, by simp, by simp [step, nextMover, hp, hs]⟩)
      | host =>
        cases hh : s.host with
        | nil => exact Or.inr (Or.inr ⟨j, rfl, by simp, by simp [step, nextMover, hp, hs, hh]⟩)
        | cons op rest =>
          exact Or.inr (Or.inl ⟨op, rest, rfl,
            Or.inr ⟨j, later, rfl, rfl, by simp [step, nextMover, hp, hs, hh]⟩⟩)

end Sys2Proof.Machine
end

