-- ==== Sys2Proof/Laws/Codec.lean ====
section
/-! SUPPORT. The first facts about the codec's pure functions: the lengths of what they give, the runs
of a byte list, and how a stream splits into tokens. -/

namespace Sys2Proof.Machine

/-! ### Bit packer -/

theorem packedLen_add_four (n : Nat) : packedLen (n + 4) = packedLen n + 1 := by
  unfold packedLen; omega

@[simp] theorem length_pack (ix : List Index) : (pack ix).length = packedLen ix.length := by
  induction ix using pack.induct with
  | case1 => rfl
  | case2 => simp [pack, packedLen]
  | case3 => simp [pack, packedLen]
  | case4 => simp [pack, packedLen]
  | case5 a b c d rest ih => simp [pack, ih, packedLen_add_four]

@[simp] theorem length_unpackByte (b : Byte) : (unpackByte b).length = 4 := rfl

theorem length_flatMap_of_const {α β : Type} (f : α → List β) (k : Nat) (h : ∀ a, (f a).length = k)
    (l : List α) : (l.flatMap f).length = k * l.length := by
  induction l with
  | nil => simp
  | cons a l ih => simp [ih, h, Nat.mul_add, Nat.add_comm]

theorem length_unpack (bs : List Byte) (n : Nat) (h : packedLen n ≤ bs.length) :
    (unpack bs n).length = n := by
  unfold unpack
  rw [List.length_take, length_flatMap_of_const _ 4 length_unpackByte, List.length_take,
    Nat.min_eq_left h]
  unfold packedLen
  omega

/-! ### Quantizer -/

@[simp] theorem length_expand (pd : DecPalette) (b : Byte) : (expand pd b).length = 4 := rfl

@[simp] theorem length_classes (m : Memory) (j : Job) (n : Nat) : (classes m j n).length = n := by
  simp [classes]

@[simp] theorem length_srcBytes (m : Memory) (j : Job) (n : Nat) : (srcBytes m j n).length = n := by
  simp [srcBytes]

theorem length_planePixels (pd : DecPalette) (n : Nat) (got : List Byte) :
    (planePixels pd n got).length = 4 * min n (4 * got.length) := by
  unfold planePixels
  rw [length_flatMap_of_const _ 4 (fun i => length_expand pd (indexByte i)), length_unpack]
  unfold packedLen
  omega

/-! ### Ditherer -/

theorem length_ditherFrom (w h : Nat) (g : List Byte) (i : Nat) (errs : List Int) :
    (ditherFrom w h g i errs).length = g.length := by
  induction g generalizing i errs with
  | nil => rfl
  | cons b g ih => simp [ditherFrom, ih]

@[simp] theorem length_dither (w h : Nat) (g : List Byte) : (dither w h g).length = g.length :=
  length_ditherFrom w h g 0 _

/-- Adding to some entries of a list keeps its length. -/
theorem length_foldl_modify {α β : Type} (f : List α → β → List α)
    (hf : ∀ l b, (f l b).length = l.length) (bs : List β) (l : List α) :
    (bs.foldl f l).length = l.length := by
  induction bs generalizing l with
  | nil => rfl
  | cons b bs ih => rw [List.foldl_cons, ih, hf]

@[simp] theorem length_diffuse (w h x y : Nat) (d : Int) (errs : List Int) :
    (diffuse w h x y d errs).length = errs.length := by
  apply length_foldl_modify
  intro l b
  split <;> simp

@[simp] theorem length_slideDiffuse (w h x y : Nat) (d : Int) (buf : List (BitVec 16)) :
    (slideDiffuse w h x y d buf).length = buf.length := by
  apply length_foldl_modify
  intro l b
  split <;> simp

theorem length_slideFrom (w h : Nat) (g : List Byte) (i : Nat) (buf : List (BitVec 16))
    (hb : buf ≠ []) :
    (slideFrom w h g i buf).1.length = g.length ∧ (slideFrom w h g i buf).2.length = buf.length := by
  induction g generalizing i buf with
  | nil => simp [slideFrom]
  | cons b g ih =>
    have hlen : ∀ d, ((slideDiffuse w h (i % w) (i / w) d buf).tail ++ [0]).length = buf.length := by
      intro d
      have := List.length_pos_of_ne_nil hb
      simp
      omega
    have := ih (i + 1)
      ((slideDiffuse w h (i % w) (i / w) (diffused (adjusted b (buf.headD 0).toInt)) buf).tail ++ [0])
      (by simp)
    simp only [slideFrom, List.length_cons]
    rw [this.1, this.2, hlen]
    exact ⟨rfl, rfl⟩

theorem length_finalDitherBuf (p : Params) (w h : Nat) (g : List Byte) (hw : w ≤ p.maxWidth) :
    (finalDitherBuf p w h g).length = 2 * p.maxWidth + 1 := by
  unfold finalDitherBuf slideDither
  rw [List.length_append, (length_slideFrom w h g 0 _ (by simp)).2]
  simp
  omega

/-! ### RLE encoder -/

/-- The runs of a byte list, put back together, are the list (R160). -/
theorem runs_join (x : List Byte) : (runs x).flatMap (fun r => List.replicate r.2 r.1) = x := by
  induction x with
  | nil => rfl
  | cons b x ih =>
    unfold runs
    split
    · rename_i h
      rw [h] at ih
      simp [← ih]
    · rename_i v n rs h
      rw [h] at ih
      split
      · rename_i hv
        subst hv
        simp only [List.flatMap_cons] at ih ⊢
        rw [List.replicate_succ, List.cons_append, ih]
      · simp only [List.flatMap_cons] at ih ⊢
        simp [ih]

/-- Every run has at least one byte (R160). -/
theorem runs_pos (x : List Byte) : ∀ r ∈ runs x, 1 ≤ r.2 := by
  induction x with
  | nil => simp [runs]
  | cons b x ih =>
    unfold runs
    split
    · simp
    · rename_i v n rs h
      rw [h] at ih
      split
      · intro r hr
        rcases List.mem_cons.mp hr with rfl | hr
        · simp
        · exact ih r (by simp [hr])
      · intro r hr
        rcases List.mem_cons.mp hr with rfl | hr
        · simp
        · exact ih r hr

/-- Neighbouring runs have different values: runs are maximal (R160). -/
theorem runs_maximal (x : List Byte) : (runs x).IsChain (fun a b => a.1 ≠ b.1) := by
  induction x with
  | nil => simp [runs]
  | cons b x ih =>
    unfold runs
    split
    · simp
    · rename_i v n rs h
      rw [h] at ih
      split
      · cases rs with
        | nil => simp
        | cons r rs =>
          rw [List.isChain_cons_cons] at ih ⊢
          exact ⟨ih.1, ih.2⟩
      · rename_i hv
        rw [List.isChain_cons_cons]
        exact ⟨fun h => hv h.symm, ih⟩

/-! ### RLE decoder -/

/-- A stream that begins with a legal token is read as that token (R165). -/
theorem tokens_cons (t : Token) (ht : t.legal = true) (rest : List Byte) :
    tokens (t.stream ++ rest) = (t :: (tokens rest).1, (tokens rest).2) := by
  cases t with
  | lit b =>
    have hb : b ≠ escapeByte := by simpa [Token.legal, escapeByte] using ht
    show tokens (b :: rest) = _
    rw [tokens.eq_def]
    simp [hb]
  | esc c v => simp [Token.stream, tokens, escapeByte]

/-- The tokens of a stream that is cut into complete tokens and a rest (R165). -/
theorem tokens_append (ts : List Token) (hts : ∀ t ∈ ts, t.legal = true) (rest : List Byte) :
    tokens (streamOf ts ++ rest) = (ts ++ (tokens rest).1, (tokens rest).2) := by
  induction ts with
  | nil => simp [streamOf]
  | cons t ts ih =>
    have hs : streamOf (t :: ts) ++ rest = t.stream ++ (streamOf ts ++ rest) := by
      simp [streamOf]
    rw [hs, tokens_cons t (hts t (by simp)), ih fun t' h => hts t' (by simp [h])]
    simp

theorem tokens_partial {rest : List Byte} (h : PartialEscape rest) : tokens rest = ([], true) := by
  rcases h with rfl | ⟨c, rfl⟩ <;> simp [tokens, escapeByte]

@[simp] theorem length_stream (t : Token) : t.stream.length = t.size := by cases t <;> rfl

/-- The decoder never writes past `cap` (R169). -/
theorem rleDecode_fits (cap : Nat) (trunc : Bool) (ts : List Token) (p k : Nat) (hk : k ≤ cap) :
    k + (rleDecode cap trunc ts p k).out.length ≤ cap := by
  induction ts generalizing p k with
  | nil => simpa [rleDecode] using hk
  | cons t ts ih =>
    unfold rleDecode
    split
    · rename_i hle
      have := ih (p + t.size) (k + t.bytes.length) hle
      simp only [List.length_append]
      omega
    · simp only [List.length_take]
      omega

/-- DEC_PLANE never gathers more packed bytes than it wants (R292). -/
theorem gather_fits (m slen : Nat) (trunc : Bool) (ts : List Token) (p k : Nat) (sur : Bool)
    (hk : k ≤ m) : k + (gather m slen trunc ts p k sur).got.length ≤ m := by
  induction ts generalizing p k sur with
  | nil => simpa [gather] using hk
  | cons t ts ih =>
    unfold gather
    split
    · simpa using hk
    · have := ih (p + t.size) (k + min t.bytes.length (m - k))
        (decide (min t.bytes.length (m - k) < t.bytes.length)) (by omega)
      simp only [List.length_append, List.length_take]
      omega

/-- Stepping the decoder over a token that fits (R166). -/
theorem rleDecode_cons_fits (cap : Nat) (trunc : Bool) (t : Token) (ts : List Token) (p k : Nat)
    (h : k + t.bytes.length ≤ cap) :
    rleDecode cap trunc (t :: ts) p k =
      { rleDecode cap trunc ts (p + t.size) (k + t.bytes.length) with
        out := t.bytes ++ (rleDecode cap trunc ts (p + t.size) (k + t.bytes.length)).out } := by
  rw [rleDecode, if_pos h]

end Sys2Proof.Machine
end

