-- ==== Sys2Proof/Laws/Commands.lean ====
section
/-! SUPPORT. Facts about the rules of the commands: what they write fits the DST region, and OUT_LEN
counts it. -/

namespace Sys2Proof.Machine

/-- The encoders write at most CAP bytes. -/
theorem encodeInto_out (e : Effects) (j : Job) (used : Nat) (x : List Byte) :
    (encodeInto e j used x).out = (rleEncode j.tail x).take j.cap.toNat ∧
    (encodeInto e j used x).results.outLen =
      BitVec.ofNat 32 (min (rleEncode j.tail x).length j.cap.toNat) := by
  unfold encodeInto
  constructor <;> dsimp only <;> split <;> simp [List.take_eq_take_iff, Nat.min_comm]

/-- What a rule does when its prologue passes, and NOP, is bounded by the job: it writes at most CAP
bytes, and OUT_LEN counts them (R42, R88). -/
theorem ruleOf_fits_of_passes {i : Instr} {s : State} {j : Job} {c : Checks}
    (hc : commandChecks i j = some c) (hp : Passes s.params j c) :
    (ruleOf i s j).out.length ≤ j.cap.toNat ∧
    (ruleOf i s j).results.outLen = BitVec.ofNat 32 (ruleOf i s j).out.length := by
  have hn := (prologue_none_iff s.params j c).mpr hp
  have hsize := hp.2.2.2.2
  cases i <;> simp only [commandChecks, Option.some.injEq, reduceCtorEq] at hc <;> subst hc <;>
    simp only [FailsSize, Option.mem_def, Option.some.injEq, exists_eq_left', not_lt,
      reduceCtorEq, false_and, exists_false, not_false_eq_true] at hsize
  case rleEnc =>
    simp only [ruleOf, rleEncRule, hn, encodeInto_out, List.length_take]
    exact ⟨by omega, by rw [Nat.min_comm]⟩
  case rleDec =>
    have := rleDecode_fits j.cap.toNat (tokens (srcBytes s.mem j j.slen.toNat)).2
      (tokens (srcBytes s.mem j j.slen.toNat)).1 0 0 (by omega)
    simp only [ruleOf, rleDecRule, hn]
    cases h : (rleDecode j.cap.toNat (tokens (srcBytes s.mem j j.slen.toNat)).2
      (tokens (srcBytes s.mem j j.slen.toNat)).1 0 0).error <;>
      simp only [Effects.raise?, Effects.raise_out, Effects.raise_outLen, and_true] <;> omega
  case pack => simp only [ruleOf, packRule, hn]; simp [hsize]
  case unpack =>
    simp only [ruleOf, unpackRule, hn, List.length_map]
    rw [length_unpack _ _ (by simp)]
    exact ⟨hsize, rfl⟩
  case qenc => simp only [ruleOf, qencRule, hn]; simp [hsize]
  case qdec =>
    simp only [ruleOf, qdecRule, hn]
    rw [length_flatMap_of_const _ 4 (length_expand j.pd)]
    simp [hsize]
  case dither => simp only [ruleOf, ditherRule, hn]; simp [hsize]
  case ditherIdx => simp only [ruleOf, ditherRule, hn]; simp [hsize]
  case encPlane =>
    simp only [ruleOf, encPlaneRule, hn, encodeInto_out, List.length_take]
    exact ⟨by omega, by rw [Nat.min_comm]⟩
  case decPlane =>
    simp only [ruleOf, decPlaneRule, hn]
    cases h : (gather (packedLen j.n.toNat) j.slen.toNat (tokens (srcBytes s.mem j j.slen.toNat)).2
      (tokens (srcBytes s.mem j j.slen.toNat)).1 0 0 false).error <;>
      simp only [Effects.raise_out, Effects.raise_outLen, length_planePixels, and_true] <;> omega
  case encGray =>
    simp only [ruleOf, encGrayRule, hn, encodeInto_out, List.length_take]
    exact ⟨by omega, by rw [Nat.min_comm]⟩

/-- Every command writes at most CAP bytes, and only when both regions lie in the buffer RAM. -/
theorem ruleOf_fits (i : Instr) (s : State) (j : Job) :
    (ruleOf i s j).out = [] ∨ (InRam s.params j ∧ ¬ Overlap j ∧ (ruleOf i s j).out.length ≤ j.cap.toNat) := by
  cases hc : commandChecks i j with
  | none => cases i <;> simp [commandChecks, ruleOf, nopRule] at hc ⊢
  | some c =>
    cases hp : prologue s.params j c with
    | none =>
      have h := (prologue_none_iff s.params j c).mp hp
      exact Or.inr ⟨h.2.1, h.2.2.1, (ruleOf_fits_of_passes hc h).1⟩
    | some e =>
      left
      obtain ⟨code, pos⟩ := e
      rw [ruleOf_of_prologue hc hp]
      rfl

end Sys2Proof.Machine
end

