-- ==== Sys2Proof/Laws/Invariant.lean ====
section
/-! SUPPORT. First steps towards the invariant: power-on and acceptance meet it, a completed command
keeps it, and what a finished command has written reads back. -/

namespace Sys2Proof.Machine

/-- Acceptance keeps the invariant in IDLE (R58). -/
theorem inv_accept {s : State} (h : s.Inv) (w : Word) : (accept w s).Inv where
  params_legal := h.params_legal
  mem_wf := h.mem_wf
  mem_inside := h.mem_inside
  dither_len := h.dither_len
  err_code := by simp [accept, Status.atAcceptance]
  busy_status := by simp [accept, Status.atAcceptance]
  busy_results := by simp [accept]
  busy_cmd := by simp [accept, latch]

/-- A state that is IDLE meets the invariant when its parts do. -/
theorem inv_of_idle {s : State} (hp : s.params.legal = true) (hm : s.mem.wf = true)
    (hi : s.mem.inside s.params.bufBytes = true)
    (hd : s.ditherBuf.length = 2 * s.params.maxWidth + 1)
    (he : s.status.err = true → s.status.errcode ≠ .none) (h : s.phase = .idle) : s.Inv where
  params_legal := hp
  mem_wf := hm
  mem_inside := hi
  dither_len := hd
  err_code := he
  busy_status := by simp [h]
  busy_results := by simp [h]
  busy_cmd := by simp [h]

/-- What a finished command has written reads back (R42, R88). -/
theorem outputOf_complete {s : State} {j : Job} {e : Effects} (hm : s.mem.wf = true)
    (he : e.results.outLen.toNat = e.out.length) : outputOf (complete s j e) j = e.out := by
  apply List.ext_getElem
  · simp [outputOf, complete, he]
  · intro k h1 h2
    simp only [outputOf, complete, Memory.getElem_readBytes]
    rw [Memory.read_writeBytes_inside hm _ _ _ h2]

/-! ### What a completion leaves -/

/-- A completed command has stored what its rule wrote, and nothing else (R88). -/
theorem stored_complete {s : State} (j : Job) (e : Effects) (hm : s.mem.wf = true) :
    Stored s (complete s j e) j.dst.toNat e.out :=
  ⟨fun k h => Memory.read_writeBytes_inside hm _ _ k h,
    fun b hb => Memory.read_writeBytes_outside hm _ _ b hb⟩

theorem clsFlag_iff (n : Word) : clsFlag n = true ↔ 0 < n.toNat := by
  rw [clsFlag, decide_eq_true_iff]

theorem errFlag_iff (c : ErrCode) : errFlag c = true ↔ c ≠ .none := by cases c <;> simp [errFlag]

/-- STATUS after a completion (R59). -/
theorem finished_complete (s : State) (j : Job) (e : Effects) :
    Finished s (complete s j e) e.errcode (0 < e.results.clsCount.toNat) (e.xs = true)
      (e.idxhi = true) :=
  ⟨rfl, rfl, errFlag_iff _, rfl, clsFlag_iff _, Iff.rfl, Iff.rfl, rfl⟩

/-- `Finished` in other words. -/
theorem Finished.congr {s t : State} {code : ErrCode} {p q r p' q' r' : Prop}
    (h : Finished s t code p q r) (hp : p ↔ p') (hq : q ↔ q') (hr : r ↔ r') :
    Finished s t code p' q' r' := by
  unfold Finished at *
  rwa [← hp, ← hq, ← hr]

/-- A command whose rule does the right thing when its prologue passes completes as its statement says:
the prologue's errors are the same for every command (R329). -/
theorem completesWith_of {i : Instr} {success : State → Job → State → Prop}
    (h : ∀ (s : State) (j : Job) (c : Checks), Ready s j → commandChecks i j = some c →
      prologue s.params j c = none → success s j (complete s j (ruleOf i s j))) :
    CompletesWith i success := by
  intro s j c hr hc
  refine ⟨_, exec_busy i hr.1, fun code pos hf => ?_, fun hp => ?_⟩
  · rw [ruleOf_of_prologue hc ((prologue_some_iff _ _ _ _ _).mpr hf)]
    have hres := hr.2.busy_results j hr.1
    refine ⟨fun a => rfl, ?_, ?_⟩
    · refine ⟨?_, ?_, ?_, ?_, ?_⟩
      · simp [complete, hres, Results.accepted]
      · simp [complete, hres, Results.accepted]
      · simp [complete, hres, Results.accepted]
      · simp [complete, hres, Results.accepted]
      · cases code <;> simp only [FirstFailure] at hf <;>
          simp [complete, Nat.mod_eq_of_lt, hf]
    · exact (finished_complete s j _).congr (by simp [hres, Results.accepted]) (by simp) (by simp)
  · exact h s j c hr hc ((prologue_none_iff _ _ _).mpr hp)

/-- The numbers in the result registers when the rule gave them as `BitVec.ofNat`. -/
theorem toNat_ofNat_of_le {n : Nat} {w : Word} (h : n ≤ w.toNat) : (BitVec.ofNat 32 n).toNat = n := by
  have := w.isLt
  simp only [BitVec.toNat_ofNat]
  omega

end Sys2Proof.Machine
end

