-- ==== Sys2Proof/Laws/PerInstr.lean ====
section
/-! SUPPORT. One fact about every command as syntax: its word is legal and no longer than nine bits. -/

namespace Sys2Proof.Laws.WordLegal

/-- The word of a command is legal (30_encoding.md R123) and holds no operand (R120). -/
def Statement (i : Instr) : Prop := legalWord (encode i) = true ∧ (encode i).toNat < 512

theorem nop : Statement .nop := ⟨by decide, by decide⟩
theorem rleEnc : Statement .rleEnc := ⟨by decide, by decide⟩
theorem rleDec : Statement .rleDec := ⟨by decide, by decide⟩
theorem pack : Statement .pack := ⟨by decide, by decide⟩
theorem unpack : Statement .unpack := ⟨by decide, by decide⟩
theorem qenc : Statement .qenc := ⟨by decide, by decide⟩
theorem qdec : Statement .qdec := ⟨by decide, by decide⟩
theorem dither : Statement .dither := ⟨by decide, by decide⟩
theorem ditherIdx : Statement .ditherIdx := ⟨by decide, by decide⟩
theorem encPlane : Statement .encPlane := ⟨by decide, by decide⟩
theorem decPlane : Statement .decPlane := ⟨by decide, by decide⟩
theorem encGray : Statement .encGray := ⟨by decide, by decide⟩

end Sys2Proof.Laws.WordLegal
end

