-- ==== Sys2Proof/Tests/Slice0.lean ====
section
/-! SUPPORT. Tests of the model against the words and vectors of the spec (95_test_vectors.md and the
rules named), and for each obligation with hypotheses a witness that meets them. -/

namespace Sys2Proof.Tests

open Sys2Proof.Machine

/-! ## Well-formedness refuses ill-formed terms -/

theorem test_params_legal : Params.vectors.legal = true := by decide
theorem test_params_no_buffer : (Params.mk 0 4).legal = false := by decide
theorem test_params_buffer_too_big : (Params.mk 0x400001 4).legal = false := by decide
theorem test_params_no_width : (Params.mk 64 0).legal = false := by decide
theorem test_params_width_too_big : (Params.mk 64 65536).legal = false := by decide
theorem test_regRef_misaligned : (RegRef.offset 0x02).wf = false := by decide
theorem test_hostOp_wr_misaligned : (HostOp.wr (.offset 0x02) 0).wf = false := by decide
theorem test_hostOp_rd_misaligned : (HostOp.rd (.offset 0x01)).wf = false := by decide
theorem test_hostOp_wrb_outside : (HostOp.wrb 0x400000 [0]).wf = false := by decide
theorem test_hostOp_rdb_outside : (HostOp.rdb 0x3FFFFF 2).wf = false := by decide

/-! ## Decoding: words written out bit by bit, RSVD (23 bits), OF (1 bit), OPC (8 bits) (R120, R121) -/

theorem test_decode_nop : decode (0#23 ++ 0b0#1 ++ 0b00000000#8) = .ok .nop := by decide
theorem test_decode_rleEnc : decode (0#23 ++ 0b0#1 ++ 0b00000001#8) = .ok .rleEnc := by decide
theorem test_decode_rleDec : decode (0#23 ++ 0b0#1 ++ 0b00000010#8) = .ok .rleDec := by decide
theorem test_decode_pack : decode (0#23 ++ 0b0#1 ++ 0b00000011#8) = .ok .pack := by decide
theorem test_decode_unpack : decode (0#23 ++ 0b0#1 ++ 0b00000100#8) = .ok .unpack := by decide
theorem test_decode_qenc : decode (0#23 ++ 0b0#1 ++ 0b00000101#8) = .ok .qenc := by decide
theorem test_decode_qdec : decode (0#23 ++ 0b0#1 ++ 0b00000110#8) = .ok .qdec := by decide
theorem test_decode_dither : decode (0#23 ++ 0b0#1 ++ 0b00000111#8) = .ok .dither := by decide
theorem test_decode_ditherIdx : decode (0#23 ++ 0b1#1 ++ 0b00000111#8) = .ok .ditherIdx := by decide
theorem test_decode_encPlane : decode (0#23 ++ 0b0#1 ++ 0b00001000#8) = .ok .encPlane := by decide
theorem test_decode_decPlane : decode (0#23 ++ 0b0#1 ++ 0b00001001#8) = .ok .decPlane := by decide
theorem test_decode_encGray : decode (0#23 ++ 0b0#1 ++ 0b00001010#8) = .ok .encGray := by decide

/-- The illegal words of V1: each check of R123, at its boundary. -/
theorem test_decode_illegal :
    decode 0x0000000B = .error .reservedOpcode ∧ decode 0x000000FF = .error .reservedOpcode ∧
    decode 0x00000100 = .error .formatBit ∧ decode 0x00000101 = .error .formatBit ∧
    decode 0x0000010A = .error .formatBit ∧
    decode 0x00000200 = .error .reservedBits ∧ decode 0x80000001 = .error .reservedBits := by decide

theorem test_legalWord_refuses :
    legalWord 0x0000000B = false ∧ legalWord 0x00000100 = false ∧ legalWord 0x00000200 = false ∧
    legalWord 0x00000107 = true := by decide

theorem test_tableWord_ditherIdx : decodeTableWord 32 0x107 = some .ditherIdx := by decide
theorem test_tableWord_too_long : decodeTableWord 64 0x100000007 = none := by decide

/-! ## Small machines -/

/-- A buffer RAM of 128 bytes and images at most 4 wide. -/
def tiny : Params := { bufBytes := 128, maxWidth := 4 }

/-- A buffer RAM with `bs` from `a` on. -/
def ram (a : Nat) (bs : List Byte) : Memory := Memory.writeBytes [] a bs

/-- The machine in IDLE with its operand registers set. -/
def ready (m : Memory) (o : Operands) : State := { State.powerOn tiny m with operands := o }

/-- The machine BUSY with the word `w`. -/
def start (w : Word) (m : Memory) (o : Operands) : State := accept w (ready m o)

/-- The job of `start`. -/
def job (w : Word) (m : Memory) (o : Operands) : Job := latch (ready m o) w

/-- Operands with the SRC region at 0x00 and the DST region at 0x40. -/
def ops (slen cap n geom : Word) : Operands :=
  { srcAddr := 0x00, srcLen := slen, dstAddr := 0x40, dstCap := cap, pixcnt := n, geom := geom }

/-- What a command leaves: the OUT_LEN bytes from DST on, IN_USED, ERR_POS, and STATUS. -/
def outcome (i : Instr) (m : Memory) (o : Operands) : Option (List Byte × Word × Word × Word) :=
  match exec i (start (encode i) m o) with
  | .next t => some (outputOf t (job (encode i) m o), readReg t .inUsed, readReg t .errPos,
      readReg t .status)
  | .fault _ => none
  | .refused _ => none

/-! ## Commands: vectors of 95_test_vectors.md -/

theorem test_nop : outcome .nop [] (ops 5 5 5 5) = some ([], 0, 0, 0x002) := by decide

/-- V3, the mixed row. -/
theorem test_rleEnc_mixed :
    outcome .rleEnc (ram 0 [0x01, 2, 2, 3, 3, 3, 4, 4, 4, 4, 0xFF, 5]) (ops 12 16 0 0) =
      some ([0x01, 2, 2, 3, 3, 3, 0xFF, 4, 4, 0xFF, 1, 0xFF, 5], 12, 0, 0x002) := by decide
/-- V3, overflow row `41*4`, CAP 2. -/
theorem test_rleEnc_overflow :
    outcome .rleEnc (ram 0 [0x41, 0x41, 0x41, 0x41]) (ops 4 2 0 0) =
      some ([0xFF, 4], 4, 0, 0x606) := by decide
/-- V3, `00*258` and `00*259`, both tail modes. -/
theorem test_rleEncode_tails :
    rleEncode .escape (List.replicate 258 0) = [0xFF, 0xFF, 0, 0xFF, 3, 0] ∧
    rleEncode .reclassify (List.replicate 258 0) = [0xFF, 0xFF, 0, 0, 0, 0] ∧
    rleEncode .reclassify (List.replicate 259 0) = [0xFF, 0xFF, 0, 0xFF, 4, 0] := by decide +kernel
theorem test_rleEncode_all_escape :
    rleEncode .reclassify (List.replicate 256 0xFF) = [0xFF, 0xFF, 0xFF, 0xFF, 1, 0xFF] ∧
    (rleStream .reclassify .started (List.replicate 256 0xFF)).1 =
      [0xFF, 0xFF, 0xFF, 0xFF, 1, 0xFF] := by decide +kernel

/-- V4, `01 FF 03`: truncated inside an escape sequence. -/
theorem test_rleDec_truncated :
    outcome .rleDec (ram 0 [0x01, 0xFF, 0x03]) (ops 3 16 0 0) = some ([0x01], 1, 1, 0x506) := by decide
/-- V4, `01 02 FF 05 09`, CAP 4. -/
theorem test_rleDec_overflow :
    outcome .rleDec (ram 0 [0x01, 0x02, 0xFF, 0x05, 0x09]) (ops 5 4 0 0) =
      some ([0x01, 0x02, 0x09, 0x09], 2, 0, 0x606) := by decide

/-- V5, `02 02 02 02 01`. -/
theorem test_pack_five :
    outcome .pack (ram 0 [2, 2, 2, 2, 1]) (ops 5 16 5 0) = some ([0xAA, 0x01], 5, 0, 0x002) := by decide
/-- V5, `07 41`: IDXHI. -/
theorem test_pack_idxhi :
    outcome .pack (ram 0 [0x07, 0x41]) (ops 2 16 2 0) = some ([0x07], 2, 0, 0x022) := by decide

/-- V5, `E4 1B`, N 5. -/
theorem test_unpack_five :
    outcome .unpack (ram 0 [0xE4, 0x1B]) (ops 2 16 5 0) = some ([0, 1, 2, 3, 3], 2, 0, 0x002) := by decide
/-- V5, `E4`, N 5: TRUNCATED. -/
theorem test_unpack_truncated :
    outcome .unpack (ram 0 [0xE4]) (ops 1 16 5 0) = some ([], 0, 1, 0x506) := by decide

/-- V6, first row: CLS. -/
theorem test_qenc_mismatch :
    outcome .qenc
      (ram 0 [0, 0, 0, 0xFF, 0xFF, 0xFF, 0, 0xFF, 0xFF, 0xFF, 0xFF, 0xFF, 0xFF, 0, 0, 0xFF])
      (ops 16 16 4 0) = some ([0, 1, 2, 0], 16, 0, 0x00A) := by decide
/-- V6, third row: with PE1 = PE0 = black the lower index wins, and yellow no longer matches. -/
theorem test_qenc_lowest_index :
    classify { c0 := 0, c1 := 0, c2 := 0xFFFFFF } (rgbOf 0 0 0) = { index := 0, matched := true } ∧
    classify { c0 := 0, c1 := 0, c2 := 0xFFFFFF } (rgbOf 0xFF 0xFF 0) =
      { index := 0, matched := false } := by decide

/-- V6, `00 01 02 03 41`: the sentinel and IDXHI. -/
theorem test_qdec_sentinel :
    outcome .qdec (ram 0 [0, 1, 2, 3, 0x41]) (ops 5 20 5 0) =
      some ([0, 0, 0, 0xFF, 0xFF, 0xFF, 0, 0xFF, 0xFF, 0xFF, 0xFF, 0xFF, 0xFF, 0xFF, 0xFF, 0xFF,
        0xFF, 0xFF, 0xFF, 0xFF], 5, 0, 0x022) := by decide
/-- V6, `01` with PD1 = aqua: R, G, B, A in memory order. -/
theorem test_qdec_aqua :
    expand { c0 := 0, c1 := 0xFFFFFF00, c2 := 0, c3 := 0 } 1 = [0x00, 0xFF, 0xFF, 0xFF] := by decide

/-- V7, 3 by 2 `C8 0A C8 / 0A 0A C8`: the floor rounding of a negative error. -/
theorem test_dither_floor :
    outcome .dither (ram 0 [0xC8, 0x0A, 0xC8, 0x0A, 0x0A, 0xC8]) (ops 6 16 0 0x00020003) =
      some ([1, 0, 1, 0, 0, 1], 6, 0, 0x002) := by decide
/-- V7, W 2, H 2, SLEN 3: TRUNCATED. -/
theorem test_dither_truncated :
    outcome .dither (ram 0 [1, 1, 1]) (ops 3 16 0 0x00020002) = some ([], 0, 3, 0x506) := by decide
/-- W4, P4: 4 by 2 `80*8` with OF = 1. -/
theorem test_ditherIdx :
    outcome .ditherIdx (ram 0 (List.replicate 8 0x80)) (ops 8 16 0 0x00020004) =
      some ([2, 0, 0, 2, 0, 2, 2, 0], 8, 0, 0x002) := by decide
/-- V7: an image wider than P_MAX_WIDTH is refused even when it is empty, and before RANGE (R329). -/
theorem test_ditherIdx_width :
    outcome .ditherIdx [] (ops 0x1000 16 0 0x00000005) = some ([], 0, 0, 0x406) := by decide

/-- V8, one white pixel. -/
theorem test_encPlane_white :
    outcome .encPlane (ram 0 [0xFF, 0xFF, 0xFF, 0xFF]) (ops 4 16 1 0) = some ([0x02], 4, 0, 0x002) := by
  decide
/-- V8, 16 black pixels and one more byte, CAP 2: DST_OVERFLOW and XS. -/
theorem test_encPlane_overflow :
    outcome .encPlane [] { ops 65 2 16 0 with dstAddr := 0x50 } =
      some ([0xFF, 4], 64, 0, 0x616) := by decide

/-- V9, `FF 05 00`, N 16: surplus. -/
theorem test_decPlane_surplus :
    outcome .decPlane (ram 0 [0xFF, 0x05, 0x00]) (ops 3 64 16 0) =
      some ((List.replicate 16 [0, 0, 0, 0xFF]).flatten, 3, 0, 0x012) := by decide
/-- V9, `E4 FF 03`, N 16: TRUNCATED, and the pixels so far are kept. -/
theorem test_decPlane_truncated :
    outcome .decPlane (ram 0 [0xE4, 0xFF, 0x03]) (ops 3 64 16 0) =
      some ([0, 0, 0, 0xFF, 0xFF, 0xFF, 0, 0xFF, 0xFF, 0xFF, 0xFF, 0xFF, 0xFF, 0xFF, 0xFF, 0xFF],
        1, 1, 0x506) := by decide

/-- V10, 4 by 2 `80*8`. -/
theorem test_encGray :
    outcome .encGray (ram 0 (List.replicate 8 0x80)) (ops 8 16 0 0x00020004) =
      some ([0x82, 0x28], 8, 0, 0x002) := by decide
/-- V10, the same with CAP 1. -/
theorem test_encGray_overflow :
    outcome .encGray (ram 0 (List.replicate 8 0x80)) (ops 8 1 0 0x00020004) =
      some ([0x82], 8, 0, 0x606) := by decide

/-! ## Registers, bus and steps -/

/-- What a register reads after one host write from `s`. -/
def afterWrite (s : State) (off : WindowOffset) (v : Word) (r : Reg) : Option Word :=
  match hostAccess (.write off (.word v)) s with
  | .next t => some (readReg t r)
  | .fault _ => none
  | .refused _ => none

/-- V12. -/
theorem test_reset_registers :
    readReg State.reset .id = 0x53500001 ∧ readReg State.reset .status = 0 ∧
    readReg State.reset .clsFirst = 0xFFFFFFFF ∧ readReg State.reset .palEnc1 = 0x0000FFFF ∧
    readReg State.reset .palDec0 = 0xFF000000 ∧ readSlot State.reset 0x3C = 0 := by decide
/-- The register map: IN_USED at 0x02C and CLS_FIRST at 0x034, on the bus, with each its own value. -/
theorem test_result_registers_on_the_bus :
    readSlot { ready [] (ops 0 0 0 0) with results :=
      { outLen := 1, inUsed := 2, clsCount := 3, clsFirst := 4, errPos := 5 } } 0x2C = 2 ∧
    readSlot { ready [] (ops 0 0 0 0) with results :=
      { outLen := 1, inUsed := 2, clsCount := 3, clsFirst := 4, errPos := 5 } } 0x34 = 4 := by decide
/-- V11, first row: W1C leaves ERRCODE. -/
theorem test_status_acknowledge :
    afterWrite { ready [] (ops 0 0 0 0) with status :=
      { done := true, err := true, cls := false, xs := false, idxhi := false, lost := false,
        errcode := .dstOverflow } } 0x008 0x00000006 .status = some 0x600 := by decide
/-- V11: a word written while BUSY is dropped and LOST is set. -/
theorem test_cmd_while_busy :
    afterWrite (start 1 [] (ops 0 0 0 0)) 0x00C 0x00000002 .status = some 0x041 ∧
    afterWrite (start 1 [] (ops 0 0 0 0)) 0x00C 0x00000002 .cmd = some 0x001 := by decide
/-- R25, R48: reserved bits of CTRL and of the encoder palette are not stored. -/
theorem test_reserved_bits :
    afterWrite (ready [] (ops 0 0 0 0)) 0x004 0x7FFFFFFF .ctrl = some 0x7 ∧
    afterWrite (ready [] (ops 0 0 0 0)) 0x040 0xAB123456 .palEnc0 = some 0x123456 := by decide
/-- R24, R361: SRST. -/
theorem test_soft_reset :
    afterWrite (ready [] (ops 1 2 3 4)) 0x004 0x80000007 .srcLen = some 0 ∧
    afterWrite (ready [] (ops 1 2 3 4)) 0x004 0x80000007 .ctrl = some 0 := by decide
/-- R81, R82, R84: one bus error of each kind. -/
theorem test_bus_errors :
    hostAccess (.read 0x008 .w8) (ready [] (ops 0 0 0 0)) = .fault .registerAccess ∧
    hostAccess (.read 0x100 .w32) (ready [] (ops 0 0 0 0)) = .fault .unmapped ∧
    hostAccess (.read 0x400001 .w16) (ready [] (ops 0 0 0 0)) = .fault .misaligned := by
  refine ⟨rfl, rfl, rfl⟩
/-- R83: a buffer write is little-endian. -/
theorem test_buffer_little_endian :
    (writeBuffer (ready [] (ops 0 0 0 0)) 4 (.word 0x44332211)).mem.readBytes 4 4 =
      [0x11, 0x22, 0x33, 0x44] := by decide
/-- V1: an illegal word completes with STATUS 0x106. -/
theorem test_illegal_step :
    ((match step (start 0x0000000B [] (ops 0 0 0 0)) with
      | .next t => some (readReg t .status)
      | .fault _ => none
      | .refused _ => none) : Option Word) = some 0x106 := by decide
/-- A word the host stores runs as the first command after reset. -/
theorem test_first_command :
    ((match step (State.reset.withFetchWord 32 0) with
      | .next t => some (readReg t .status)
      | .fault _ => none
      | .refused _ => none) : Option Word) = some 0x002 := by decide +kernel
/-- P6: the schedule gives both end states of a command written while BUSY, LOST or not. -/
theorem test_schedule_both_ways :
    (match nextMover { start 0 [] (ops 0 0 0 0) with
        host := [.access (.write 0x00C (.word 0))], sched := [.host] } with
      | (.host _, _) => true | (.engine _, _) => false | (.nobody, _) => false) = true ∧
    (match nextMover { start 0 [] (ops 0 0 0 0) with
        host := [.access (.write 0x00C (.word 0))], sched := [.engine] } with
      | (.host _, _) => false | (.engine _, _) => true | (.nobody, _) => false) = true := by decide

/-! ## Witnesses: states and operands that meet the hypotheses of the obligations -/

theorem ready_inv {m : Memory} (o : Operands) (hm : m.wf = true) (hi : m.inside 128 = true) :
    (ready m o).Inv :=
  inv_of_idle rfl hm hi rfl (by simp [ready, State.powerOn]) rfl

/-- `start` is ready to complete its job. -/
theorem start_ready {m : Memory} (w : Word) (o : Operands) (hm : m.wf = true)
    (hi : m.inside 128 = true) : Ready (start w m o) (job w m o) :=
  ⟨rfl, inv_accept (ready_inv o hm hi) w⟩

/-- The state a command leaves. -/
def finish (i : Instr) (m : Memory) (o : Operands) : State :=
  complete (start (encode i) m o) (job (encode i) m o)
    (ruleOf i (start (encode i) m o) (job (encode i) m o))

theorem exec_finish (i : Instr) (m : Memory) (o : Operands) :
    exec i (start (encode i) m o) = .next (finish i m o) := exec_busy i rfl

theorem succeeds {m : Memory} (i : Instr) (o : Operands) (hm : m.wf = true)
    (hi : m.inside 128 = true) (h : (finish i m o).status.errcode = .none) :
    Succeeds i (start (encode i) m o) (job (encode i) m o) (finish i m o) :=
  ⟨start_ready _ o hm hi, exec_finish i m o, h⟩

/-! ### Encoding and steps -/

theorem witness_DecodeAndEncodeAgree :
    Instr.ditherIdx.wf = true ∧ decode 0x00000107 = .ok .ditherIdx := by decide

theorem witness_IllegalWordsAreExactlyTheReservedOnes :
    (0x00000200 : Word).extractLsb' 9 23 ≠ 0 ∧ 0x0A < ((0x0000000B : Word).extractLsb' 0 8).toNat ∧
    ((0x00000106 : Word).getLsbD 8 = true ∧ (0x00000106 : Word).extractLsb' 0 8 ≠ 0x07) ∧
    decode 0x0000000A = .ok .encGray := by decide

theorem witness_StepRunsTheDecodedCommand :
    (start 1 [] (ops 0 0 0 0)).phase = .busy (job 1 [] (ops 0 0 0 0)) ∧
    (job 1 [] (ops 0 0 0 0)).hazard = false ∧
    decode (job 1 [] (ops 0 0 0 0)).cmdw = .ok .rleEnc ∧ (start 1 [] (ops 0 0 0 0)).host = [] := by
  decide

theorem witness_StepMakesTheHostsAccess_idle :
    ({ ready [] (ops 0 0 0 0) with host := [.wait] } : State).host = .wait :: [] ∧
    ({ ready [] (ops 0 0 0 0) with host := [.wait] } : State).phase = .idle := by decide

theorem witness_StepMakesTheHostsAccess_busy :
    ({ start 0 [] (ops 0 0 0 0) with host := [.wait], sched := [.host] } : State).host = [.wait] ∧
    ({ start 0 [] (ops 0 0 0 0) with host := [.wait], sched := [.host] } : State).phase =
      .busy (job 0 [] (ops 0 0 0 0)) ∧
    ({ start 0 [] (ops 0 0 0 0) with host := [.wait], sched := [.host] } : State).sched =
      .host :: [] := by decide

/-- One word for each of the three checks (R123). -/
theorem witness_IllegalWordCompletesWithIllegalCmd :
    (Ready (start 0x200 [] (ops 0 0 0 0)) (job 0x200 [] (ops 0 0 0 0)) ∧
      (job 0x200 [] (ops 0 0 0 0)).cmdw.extractLsb' 9 23 ≠ 0) ∧
    (Ready (start 0x0B [] (ops 0 0 0 0)) (job 0x0B [] (ops 0 0 0 0)) ∧
      0x0A < ((job 0x0B [] (ops 0 0 0 0)).cmdw.extractLsb' 0 8).toNat) ∧
    (Ready (start 0x100 [] (ops 0 0 0 0)) (job 0x100 [] (ops 0 0 0 0)) ∧
      (job 0x100 [] (ops 0 0 0 0)).cmdw.getLsbD 8 = true ∧
      (job 0x100 [] (ops 0 0 0 0)).cmdw.extractLsb' 0 8 ≠ 0x07) ∧
    (job 0x100 [] (ops 0 0 0 0)).hazard = false ∧ (start 0x100 [] (ops 0 0 0 0)).host = [] :=
  ⟨⟨start_ready _ _ rfl rfl, by decide⟩, ⟨start_ready _ _ rfl rfl, by decide⟩,
    ⟨start_ready _ _ rfl rfl, by decide⟩, by decide⟩

/-- Also the witness of `EveryJobEnds` and `CommandWrittenWhileBusyIsDropped`. -/
theorem witness_EngineIsNeverStuck :
    (start 0x0B [] (ops 0 0 0 0)).phase = .busy (job 0x0B [] (ops 0 0 0 0)) := rfl

/-! ### Registers -/

theorem witness_AcceptanceLatchesTheJob : (ready [] (ops 1 2 3 4)).phase = .idle := rfl

theorem witness_ControlWriteSetsThreeBits : (0x7FFFFFFF : Word).getLsbD 31 = false := by decide

/-- IDLE; a DST region that ends with the buffer RAM; and one that ends one byte past it. -/
theorem witness_SoftResetKeepsTheBuffer :
    (0x80000000 : Word).getLsbD 31 = true ∧ (ready [] (ops 0 0 0 0)).Inv ∧
    (ready [] (ops 0 0 0 0)).phase = .idle ∧
    (Ready (start 0 [] (ops 0 64 0 0)) (job 0 [] (ops 0 64 0 0)) ∧
      (job 0 [] (ops 0 64 0 0)).dst.toNat + (job 0 [] (ops 0 64 0 0)).cap.toNat ≤ 128) ∧
    (Ready (start 0 [] (ops 0 65 0 0)) (job 0 [] (ops 0 65 0 0)) ∧
      128 < (job 0 [] (ops 0 65 0 0)).dst.toNat + (job 0 [] (ops 0 65 0 0)).cap.toNat) :=
  ⟨by decide, ready_inv _ rfl rfl, rfl, ⟨start_ready _ _ rfl rfl, by decide⟩,
    ⟨start_ready _ _ rfl rfl, by decide⟩⟩

/-- The ends of each range of offsets. -/
theorem witness_ReadOnlyAndReservedSlotsIgnoreWrites :
    (0x000 : WindowOffset).toNat % 4 = 0 ∧
    ((0x028 : WindowOffset).toNat % 4 = 0 ∧ 0x028 ≤ (0x028 : WindowOffset).toNat ∧
      (0x028 : WindowOffset).toNat ≤ 0x038) ∧
    ((0x038 : WindowOffset).toNat % 4 = 0 ∧ (0x038 : WindowOffset).toNat ≤ 0x038) ∧
    (0x03C : WindowOffset).toNat % 4 = 0 ∧ (0x04C : WindowOffset).toNat % 4 = 0 ∧
    ((0x060 : WindowOffset).toNat % 4 = 0 ∧ 0x060 ≤ (0x060 : WindowOffset).toNat) ∧
    ((0x0FC : WindowOffset).toNat % 4 = 0 ∧ (0x0FC : WindowOffset).toNat ≤ 0x0FC) := by decide

/-- The first and last register of the map, one whose value is a field, and an error code. -/
theorem witness_EveryRegisterReadsAtItsOffset :
    ((0x000 : WindowOffset), Reg.id) ∈ [((0x000 : WindowOffset), Reg.id), (0x05C, .palDec3)] ∧
    ((0x05C : WindowOffset), Reg.palDec3) ∈ [((0x000 : WindowOffset), Reg.id), (0x05C, .palDec3)] ∧
    (Reg.srcLen, (ready [] (ops 1 2 3 4)).operands.srcLen) ∈ [(Reg.srcLen, (1 : Word))] ∧
    (ready [] (ops 0 0 0 0)).status.errcode = .none := by decide

/-- The first and last register of the list, and one it does not name. -/
theorem witness_WrittenRegisterReadsBack :
    ((0x010 : WindowOffset), Reg.srcAddr) ∈ [((0x010 : WindowOffset), Reg.srcAddr), (0x05C, .palDec3)] ∧
    ((0x05C : WindowOffset), Reg.palDec3) ∈ [((0x010 : WindowOffset), Reg.srcAddr), (0x05C, .palDec3)] ∧
    Reg.status ≠ Reg.srcAddr := by decide

/-- A completed command, an illegal word, and a hazarded job. -/
theorem witness_CompletionInterruptsAndAcknowledgeDropsIt :
    (∃ t, engineStep (job 0x0B [] (ops 0 0 0 0)) (start 0x0B [] (ops 0 0 0 0)) = .next t) ∧
    (∃ t, engineStep { job 1 [] (ops 1 1 0 0) with hazard := true }
      { start 1 [] (ops 1 1 0 0) with phase := .busy { job 1 [] (ops 1 1 0 0) with hazard := true } } =
        .next t) ∧
    exec .pack (start 3 [] (ops 0 0 0 0)) = .next (finish .pack [] (ops 0 0 0 0)) ∧
    (start 3 [] (ops 0 0 0 0)).phase = .busy (job 3 [] (ops 0 0 0 0)) ∧
    (∃ t, hostAccess (.write 0x008 (.word 0x0000007E)) (ready [] (ops 0 0 0 0)) = .next t) ∧
    (0x0000007E : Word).getLsbD 1 = true ∧ (0x0000007E : Word).getLsbD 2 = true :=
  ⟨⟨_, rfl⟩, ⟨_, rfl⟩, exec_finish .pack _ _, rfl, ⟨_, rfl⟩, by decide⟩

/-! ### The bus -/

/-- The ends of each range: the last register byte and the first unmapped one, the last byte of the gap
and the first buffer byte, the last buffer byte and the first past it. -/
theorem witness_BusErrorsAreExactlyTheIllegalAccesses :
    LegalAccess tiny 0x0FC 4 ∧ ¬ LegalAccess tiny 0x0FE 4 ∧ ¬ LegalAccess tiny 0x0FF 1 ∧
    ¬ LegalAccess tiny 0x100 4 ∧ ¬ LegalAccess tiny 0x3FFFFC 4 ∧ LegalAccess tiny 0x400000 4 ∧
    LegalAccess tiny 0x40007F 1 ∧ ¬ LegalAccess tiny 0x400080 1 ∧ ¬ LegalAccess tiny 0x40007F 2 ∧
    ¬ LegalAccess tiny 0x400001 2 := by decide

/-- The last word of the buffer RAM; a job that it touches, and one that it does not. -/
theorem witness_BufferWriteIsLittleEndian :
    (start 0 [] (ops 0 64 0 0)).Inv ∧ 0x400000 ≤ (0x40007C : WindowOffset).toNat ∧
    LegalAccess tiny (0x40007C : WindowOffset).toNat (widthBytes (dataWidth (.word 0))) ∧
    touchesJob (start 0 [] (ops 0 64 0 0)) 0x7C 4 ∧
    ¬ touchesJob (start 0 [] (ops 0 60 0 0)) 0x7C 4 ∧ (ready [] (ops 0 0 0 0)).Inv :=
  ⟨(start_ready _ _ rfl rfl).2, by decide, by decide, ⟨_, rfl, 3, by decide, by decide⟩,
    fun ⟨_, h, i, hi, ht⟩ => by
      cases h
      revert i
      decide,
    ready_inv _ rfl rfl⟩

/-- The last word of the buffer RAM, outside the running job's DST region. -/
theorem witness_BufferReadIsLittleEndianAndPure :
    0x400000 ≤ (0x40007C : WindowOffset).toNat ∧
    LegalAccess tiny (0x40007C : WindowOffset).toNat (widthBytes .w32) ∧
    ¬ touchesOutput (start 0 [] (ops 0 60 0 0)) 0x7C 4 :=
  ⟨by decide, by decide, fun ⟨_, h, i, hi, ht⟩ => by
    cases h
    revert i
    decide⟩

theorem witness_RunningJobKeepsItsOperands :
    (∃ t, hostStep (.access (.write 0x010 (.word 5))) (start 0 [] (ops 1 1 0 0)) = .next t) ∧
    (∃ t, hostStep (.access (.write 0x400040 (.byte 5))) (start 0 [] (ops 1 1 0 0)) = .next t) ∧
    (∃ t, hostStep (.access (.write 0x004 (.word 0x80000000))) (start 0 [] (ops 1 1 0 0)) = .next t) :=
  ⟨⟨_, rfl⟩, ⟨_, rfl⟩, ⟨_, rfl⟩⟩

theorem witness_DutifulHostLosesNothing :
    Dutiful (start 0 [] (ops 1 1 0 0)) (.write 0x010 (.word 5)) ∧
    (∃ t, hostAccess (.write 0x010 (.word 5)) (start 0 [] (ops 1 1 0 0)) = .next t) ∧
    Dutiful (ready [] (ops 1 1 0 0)) (.write 0x00C (.word 0)) ∧
    Dutiful (start 0 [] (ops 1 1 0 0)) (.read 0x008 .w32) :=
  ⟨⟨by decide, Or.inr (by decide)⟩, ⟨_, rfl⟩, ⟨fun _ => rfl, Or.inr (by decide)⟩, Or.inr (by decide)⟩

/-- A running job into whose SRC region the host has written. -/
theorem witness_HazardedCompletionIsBounded :
    ∃ s j, Ready s j ∧ j.hazard = true ∧ s.host = [] := by
  refine ⟨{ start 1 [] (ops 1 1 0 0) with phase := .busy { job 1 [] (ops 1 1 0 0) with hazard := true } },
    _, ⟨rfl, ?_⟩, rfl, rfl⟩
  have h := (start_ready 1 (ops 1 1 0 0) (m := []) rfl rfl).2
  exact ⟨h.params_legal, h.mem_wf, h.mem_inside, h.dither_len, h.err_code,
    fun _ _ => h.busy_status _ rfl, fun _ _ => h.busy_results _ rfl, by rintro j ⟨⟩; rfl⟩

/-! ### Reset and the invariant -/

theorem witness_PowerOnMeetsTheInvariant :
    tiny.legal = true ∧ (ram 127 [0xAA]).wf = true ∧ (ram 127 [0xAA]).inside tiny.bufBytes = true := by
  decide

theorem witness_StepKeepsTheInvariant :
    (start 1 (ram 0 [0x41]) (ops 1 1 0 0)).Inv ∧
    ∃ t, step (start 1 (ram 0 [0x41]) (ops 1 1 0 0)) = .next t :=
  ⟨(start_ready _ _ (by decide) (by decide)).2, ⟨_, rfl⟩⟩

/-! ### Commands: the prologue at its boundaries, and every clause of the results -/

/-- Also the witness of `CommandsWriteOnlyTheirOutput`, `CommandsNeverWriteTheirInput`,
`EachCommandRaisesOnlyItsErrors` and `ReportFlagsComeFromTheirCommands`. -/
theorem witness_NopOnlyCompletes :
    Ready (start 0 [] (ops 0 0 0 0)) (job 0 [] (ops 0 0 0 0)) ∧
    exec .nop (start 0 [] (ops 0 0 0 0)) = .next (finish .nop [] (ops 0 0 0 0)) :=
  ⟨start_ready _ _ rfl rfl, exec_finish .nop _ _⟩

/-- A command's prologue, on the job of `ops`: every check passes. -/
def PassesAt (i : Instr) (o : Operands) : Prop :=
  Ready (start (encode i) [] o) (job (encode i) [] o) ∧
    ∃ c, commandChecks i (job (encode i) [] o) = some c ∧ Passes tiny (job (encode i) [] o) c

/-- A command's prologue, on the job of `o`: `code` is the first error. -/
def FailsAt (i : Instr) (o : Operands) (code : ErrCode) (pos : Nat) : Prop :=
  Ready (start (encode i) [] o) (job (encode i) [] o) ∧
    ∃ c, commandChecks i (job (encode i) [] o) = some c ∧
      FirstFailure tiny (job (encode i) [] o) c code pos

theorem passesAt {i : Instr} {o : Operands} {c : Checks}
    (hc : commandChecks i (job (encode i) [] o) = some c)
    (hp : prologue tiny (job (encode i) [] o) c = none) : PassesAt i o :=
  ⟨start_ready _ _ rfl rfl, c, hc, (prologue_none_iff _ _ _).mp hp⟩

theorem failsAt {i : Instr} {o : Operands} {c : Checks} {code : ErrCode} {pos : Nat}
    (hc : commandChecks i (job (encode i) [] o) = some c)
    (hp : prologue tiny (job (encode i) [] o) c = some (code, pos)) : FailsAt i o code pos :=
  ⟨start_ready _ _ rfl rfl, c, hc, (prologue_some_iff _ _ _ _ _).mp hp⟩

/-- The clauses of `RleEncStoresTheEncodedStream`: regions that meet at 0x40 and end at 0x80 pass; one
byte more is RANGE, or OVERLAP. -/
theorem witness_RleEncStoresTheEncodedStream :
    PassesAt .rleEnc (ops 64 64 0 0) ∧ FailsAt .rleEnc (ops 64 65 0 0) .range 0 ∧
    FailsAt .rleEnc (ops 65 64 0 0) .overlap 0 :=
  ⟨passesAt rfl rfl, failsAt rfl rfl, failsAt rfl rfl⟩

theorem witness_RleDecExpandsTheTokens :
    PassesAt .rleDec (ops 64 64 0 0) ∧ FailsAt .rleDec (ops 64 65 0 0) .range 0 ∧
    FailsAt .rleDec (ops 65 64 0 0) .overlap 0 :=
  ⟨passesAt rfl rfl, failsAt rfl rfl, failsAt rfl rfl⟩

theorem witness_PackFillsTheLanes :
    PassesAt .pack (ops 5 2 5 0) ∧ FailsAt .pack (ops 4 2 5 0) .truncated 4 ∧
    FailsAt .pack (ops 5 1 5 0) .dstOverflow 0 ∧ FailsAt .pack (ops 0 65 5 0) .range 0 ∧
    FailsAt .pack (ops 65 1 5 0) .overlap 0 :=
  ⟨passesAt rfl rfl, failsAt rfl rfl, failsAt rfl rfl, failsAt rfl rfl, failsAt rfl rfl⟩

theorem witness_UnpackReadsTheLanes :
    PassesAt .unpack (ops 2 5 5 0) ∧ FailsAt .unpack (ops 1 5 5 0) .truncated 1 ∧
    FailsAt .unpack (ops 2 4 5 0) .dstOverflow 0 ∧ FailsAt .unpack (ops 0 65 5 0) .range 0 ∧
    FailsAt .unpack (ops 65 1 5 0) .overlap 0 :=
  ⟨passesAt rfl rfl, failsAt rfl rfl, failsAt rfl rfl, failsAt rfl rfl, failsAt rfl rfl⟩

theorem witness_QencClassifiesByExactMatch :
    PassesAt .qenc (ops 20 5 5 0) ∧ FailsAt .qenc (ops 19 5 5 0) .truncated 19 ∧
    FailsAt .qenc (ops 20 4 5 0) .dstOverflow 0 ∧ FailsAt .qenc (ops 0 65 5 0) .range 0 ∧
    FailsAt .qenc (ops 65 1 5 0) .overlap 0 :=
  ⟨passesAt rfl rfl, failsAt rfl rfl, failsAt rfl rfl, failsAt rfl rfl, failsAt rfl rfl⟩

theorem witness_QdecExpandsEachIndex :
    PassesAt .qdec (ops 5 20 5 0) ∧ FailsAt .qdec (ops 4 20 5 0) .truncated 4 ∧
    FailsAt .qdec (ops 5 19 5 0) .dstOverflow 0 ∧ FailsAt .qdec (ops 0 65 5 0) .range 0 ∧
    FailsAt .qdec (ops 65 1 5 0) .overlap 0 :=
  ⟨passesAt rfl rfl, failsAt rfl rfl, failsAt rfl rfl, failsAt rfl rfl, failsAt rfl rfl⟩

/-- A 4 by 2 image is as wide as P_MAX_WIDTH; a 5 by 0 image is wider. -/
theorem witness_DitherWritesOneBytePerPixel :
    PassesAt .dither (ops 8 8 0 0x00020004) ∧ FailsAt .dither (ops 0 0 0 0x00000005) .widthLimit 0 ∧
    FailsAt .dither (ops 7 8 0 0x00020004) .truncated 7 ∧
    FailsAt .dither (ops 8 7 0 0x00020004) .dstOverflow 0 ∧
    FailsAt .dither (ops 8 65 0 0x00020004) .range 0 ∧
    FailsAt .dither (ops 65 8 0 0x00020004) .overlap 0 :=
  ⟨passesAt rfl rfl, failsAt rfl rfl, failsAt rfl rfl, failsAt rfl rfl, failsAt rfl rfl,
    failsAt rfl rfl⟩

theorem witness_DitherWritesOneBytePerPixel_idx :
    PassesAt .ditherIdx (ops 8 8 0 0x00020004) ∧
    FailsAt .ditherIdx (ops 0 0 0 0x00000005) .widthLimit 0 ∧
    FailsAt .ditherIdx (ops 7 8 0 0x00020004) .truncated 7 ∧
    FailsAt .ditherIdx (ops 8 7 0 0x00020004) .dstOverflow 0 :=
  ⟨passesAt rfl rfl, failsAt rfl rfl, failsAt rfl rfl, failsAt rfl rfl⟩

theorem witness_EncPlaneStoresTheEncodedPlane :
    PassesAt .encPlane (ops 20 0 5 0) ∧ FailsAt .encPlane (ops 19 0 5 0) .truncated 19 ∧
    FailsAt .encPlane (ops 20 65 5 0) .range 0 ∧ FailsAt .encPlane (ops 65 1 5 0) .overlap 0 :=
  ⟨passesAt rfl rfl, failsAt rfl rfl, failsAt rfl rfl, failsAt rfl rfl⟩

theorem witness_DecPlaneStopsWithThePlane :
    PassesAt .decPlane (ops 0 20 5 0) ∧ FailsAt .decPlane (ops 0 19 5 0) .dstOverflow 0 ∧
    FailsAt .decPlane (ops 0 65 5 0) .range 0 ∧ FailsAt .decPlane (ops 65 20 5 0) .overlap 0 :=
  ⟨passesAt rfl rfl, failsAt rfl rfl, failsAt rfl rfl, failsAt rfl rfl⟩

theorem witness_EncGrayStoresTheEncodedImage :
    PassesAt .encGray (ops 8 0 0 0x00020004) ∧ FailsAt .encGray (ops 0 0 0 0x00000005) .widthLimit 0 ∧
    FailsAt .encGray (ops 7 0 0 0x00020004) .truncated 7 ∧
    FailsAt .encGray (ops 8 65 0 0x00020004) .range 0 ∧
    FailsAt .encGray (ops 65 8 0 0x00020004) .overlap 0 :=
  ⟨passesAt rfl rfl, failsAt rfl rfl, failsAt rfl rfl, failsAt rfl rfl, failsAt rfl rfl⟩

/-- The input of the job `start` runs. -/
def input (w : Word) (m : Memory) (o : Operands) : List Byte := inputOf (start w m o) (job w m o)

/-- The encoders' two clauses: a stream of exactly CAP bytes, and one byte more (V3, V8, V10). -/
theorem witness_encoders_fit_and_overflow :
    (rleEncode .escape (input 1 [] (ops 4 3 0 0))).length ≤ (3 : Word).toNat ∧
    (2 : Word).toNat < (rleEncode .escape (input 1 [] (ops 4 2 0 0))).length := by decide

/-- The clauses of `RleDecExpandsTheTokens`: the stream ends at a token, CAP exactly filled; it ends
inside an escape sequence, after the 0xFF or after the count; and a token does not fit, by one byte. -/
theorem witness_RleDecExpandsTheTokens_clauses :
    input 2 (ram 0 [0x01, 0xFF, 3, 7]) (ops 4 4 0 0) = streamOf [.lit 1, .esc 3 7] ++ [] ∧
    (decodedOf [.lit 1, .esc 3 7]).length ≤ (ops 4 4 0 0).dstCap.toNat ∧
    input 2 (ram 0 [0x01, 0xFF]) (ops 2 1 0 0) = streamOf [.lit 1] ++ [0xFF] ∧
    input 2 (ram 0 [0x01, 0xFF, 3]) (ops 3 1 0 0) = streamOf [.lit 1] ++ [0xFF, 3] ∧
    input 2 (ram 0 [0x01, 0xFF, 3, 7]) (ops 4 3 0 0) =
      streamOf [.lit 1] ++ (Token.stream (.esc 3 7) ++ []) ∧
    (ops 4 3 0 0).dstCap.toNat < (decodedOf [.lit 1]).length + (Token.bytes (.esc 3 7)).length ∧
    (∀ k ∈ [Token.lit 1, .esc 3 7], k.legal = true) := by decide

/-- The clauses of `DecPlaneStopsWithThePlane` that have tokens, for a plane of 5 pixels, which is 2
packed bytes: the last token completes it exactly, or with a surplus byte; the stream ends at a token
boundary, or inside an escape sequence. -/
theorem witness_DecPlaneStopsWithThePlane_clauses :
    packedLen 5 = 2 ∧
    input 9 (ram 0 [0xFF, 2, 7]) (ops 3 20 5 0) = streamOf [] ++ Token.stream (.esc 2 7) ++ [] ∧
    (decodedOf []).length < packedLen 5 ∧
    packedLen 5 ≤ (decodedOf [] ++ Token.bytes (.esc 2 7)).length ∧
    packedLen 5 < (decodedOf [.lit 1] ++ Token.bytes (.esc 2 7)).length ∧
    input 9 (ram 0 [1, 0xFF, 2, 7, 9]) (ops 5 20 5 0) =
      streamOf [.lit 1] ++ Token.stream (.esc 2 7) ++ [9] ∧
    input 9 (ram 0 [1]) (ops 1 20 5 0) = streamOf [.lit 1] ++ [] ∧
    input 9 (ram 0 [1, 0xFF]) (ops 2 20 5 0) = streamOf [.lit 1] ++ [0xFF] ∧
    (decodedOf [.lit 1]).length < packedLen 5 := by decide

/-- A pixel off the palette, and one on it (`QencClassifiesByExactMatch`, `EncPlaneStoresTheEncodedPlane`). -/
theorem witness_OffPalette :
    OffPalette .reset (rgbAt (ram 0 [0xFF, 0, 0, 0xFF]) 0 0) ∧ ¬ OffPalette .reset (rgbAt [] 0 0) := by
  decide

/-! ### Rules about every command, and the laws of the codec -/

/-- The machine of `start`, with LOST set. -/
def startLost (w : Word) (m : Memory) (o : Operands) : State :=
  accept w { ready m o with status := { (ready m o).status with lost := true } }

theorem startLost_ready {m : Memory} (w : Word) (o : Operands) (hm : m.wf = true)
    (hi : m.inside 128 = true) : Ready (startLost w m o) (job w m o) :=
  ⟨rfl, inv_accept (inv_of_idle rfl hm hi rfl (by simp [ready, State.powerOn]) rfl) w⟩

/-- Two machines with one job and one input that differ in LOST and in a byte outside the input. -/
theorem witness_OutcomeDependsOnlyOnJobAndInput :
    Ready (start 1 [] (ops 4 8 0 0)) (job 1 [] (ops 4 8 0 0)) ∧
    Ready (startLost 1 (ram 5 [9]) (ops 4 8 0 0)) (job 1 [] (ops 4 8 0 0)) ∧
    input 1 [] (ops 4 8 0 0) =
      inputOf (startLost 1 (ram 5 [9]) (ops 4 8 0 0)) (job 1 [] (ops 4 8 0 0)) ∧
    exec .rleEnc (start 1 [] (ops 4 8 0 0)) = .next (finish .rleEnc [] (ops 4 8 0 0)) ∧
    ∃ t, exec .rleEnc (startLost 1 (ram 5 [9]) (ops 4 8 0 0)) = .next t ∧ t.status.lost = true :=
  ⟨start_ready _ _ rfl rfl, startLost_ready _ _ (by decide) (by decide), by decide,
    exec_finish .rleEnc _ _, _, exec_busy .rleEnc rfl, rfl⟩

/-- Runs at the boundaries: 1, 3, 4, 255 and 256 bytes. -/
theorem witness_RleEncodeEmitsEachMaximalRun :
    (∀ r ∈ [((0xFF : Byte), 1), (0x41, 3), (0x42, 4), (0x41, 255), (0, 256)], 1 ≤ r.2) ∧
    [((0xFF : Byte), 1), (0x41, 3), (0x42, 4), (0x41, 255), (0, 256)].IsChain
      (fun a b => a.1 ≠ b.1) := by
  refine ⟨by decide, by simp⟩

/-- The output of exactly CAP bytes. -/
theorem witness_RleRoundTrip :
    Ready (start 2 (ram 0 [0xFF, 4, 0x41]) (ops 3 4 0 0)) (job 2 (ram 0 [0xFF, 4, 0x41]) (ops 3 4 0 0)) ∧
    InRam tiny (job 2 [] (ops 3 4 0 0)) ∧ ¬ Overlap (job 2 [] (ops 3 4 0 0)) ∧
    input 2 (ram 0 [0xFF, 4, 0x41]) (ops 3 4 0 0) = rleEncode .escape [0x41, 0x41, 0x41, 0x41] ∧
    ([0x41, 0x41, 0x41, 0x41] : List Byte).length ≤ (4 : Word).toNat :=
  ⟨start_ready _ _ (by decide) (by decide), by decide⟩

theorem witness_RleSizeBounds :
    (rleEncode .escape [0xFF]).length = 3 ∧ 4 ≤ (List.replicate 4 (0x41 : Byte)).length ∧
    (decodedOf [.esc 5 0]).length = 5 := by decide

/-- The index bytes of the chains below, and the memories their stages find. -/
def indices : List Byte := [2, 0, 1, 2, 1]

theorem witness_UnpackUndoesPack :
    Succeeds .pack (start 3 (ram 0 indices) (ops 5 8 5 0)) (job 3 (ram 0 indices) (ops 5 8 5 0))
      (finish .pack (ram 0 indices) (ops 5 8 5 0)) ∧
    Succeeds .unpack (start 4 (ram 0 [0x92, 0x01]) (ops 2 8 5 0)) (job 4 (ram 0 [0x92, 0x01]) (ops 2 8 5 0))
      (finish .unpack (ram 0 [0x92, 0x01]) (ops 2 8 5 0)) ∧
    (input 4 (ram 0 [0x92, 0x01]) (ops 2 8 5 0)).take (packedLen 5) =
      outputOf (finish .pack (ram 0 indices) (ops 5 8 5 0)) (job 3 (ram 0 indices) (ops 5 8 5 0)) :=
  ⟨succeeds .pack _ (by decide) (by decide) (by decide),
    succeeds .unpack _ (by decide) (by decide) (by decide), by decide⟩

theorem witness_PackUndoesUnpackButForPadding :
    ([0x92, 0xFD] : List Byte).length = packedLen 5 := by decide

/-- Two pixels, yellow and one off the palette: the chain QENC, QDEC. -/
def pixels : List Byte := [0xFF, 0xFF, 0, 0, 1, 2, 3, 4]

theorem witness_QuantizedPixelsComeBack :
    Succeeds .qenc (start 5 (ram 0 pixels) (ops 8 8 2 0)) (job 5 (ram 0 pixels) (ops 8 8 2 0))
      (finish .qenc (ram 0 pixels) (ops 8 8 2 0)) ∧
    Succeeds .qdec (start 6 (ram 0 [1, 0]) (ops 2 8 2 0)) (job 6 (ram 0 [1, 0]) (ops 2 8 2 0))
      (finish .qdec (ram 0 [1, 0]) (ops 2 8 2 0)) ∧
    (input 6 (ram 0 [1, 0]) (ops 2 8 2 0)).take 2 =
      outputOf (finish .qenc (ram 0 pixels) (ops 8 8 2 0)) (job 5 (ram 0 pixels) (ops 8 8 2 0)) ∧
    DecPalette.reset.c0.setWidth 24 = EncPalette.reset.c0 ∧
    DecPalette.reset.c1.setWidth 24 = EncPalette.reset.c1 ∧
    DecPalette.reset.c2.setWidth 24 = EncPalette.reset.c2 ∧
    OffPalette .reset (rgbAt (ram 0 pixels) 0 1) ∧ rgbAt (ram 0 pixels) 0 0 = EncPalette.reset.c1 :=
  ⟨succeeds .qenc _ (by decide) (by decide) (by decide),
    succeeds .qdec _ (by decide) (by decide) (by decide), by decide⟩

/-- Also the witness of `DitherGathersNeighbourErrors` and `SlidingBufferGivesTheSameBits`. -/
theorem witness_DitherValuesStayInBounds :
    ([0xC8, 0x0A, 0xC8, 0x0A, 0x0A, 0xC8] : List Byte).length = 3 * 2 ∧
    5 < ([0xC8, 0x0A, 0xC8, 0x0A, 0x0A, 0xC8] : List Byte).length := by decide

theorem witness_EncPlaneIsQencPackRleEnc :
    Succeeds .encPlane (start 8 (ram 0 pixels) (ops 8 8 2 0)) (job 8 (ram 0 pixels) (ops 8 8 2 0))
      (finish .encPlane (ram 0 pixels) (ops 8 8 2 0)) ∧
    Succeeds .qenc (start 5 (ram 0 pixels) (ops 8 8 2 0)) (job 5 (ram 0 pixels) (ops 8 8 2 0))
      (finish .qenc (ram 0 pixels) (ops 8 8 2 0)) ∧
    Succeeds .pack (start 3 (ram 0 [1, 0]) (ops 2 8 2 0)) (job 3 (ram 0 [1, 0]) (ops 2 8 2 0))
      (finish .pack (ram 0 [1, 0]) (ops 2 8 2 0)) ∧
    Succeeds .rleEnc (start 1 (ram 0 [1]) (ops 1 8 0 0)) (job 1 (ram 0 [1]) (ops 1 8 0 0))
      (finish .rleEnc (ram 0 [1]) (ops 1 8 0 0)) ∧
    (input 3 (ram 0 [1, 0]) (ops 2 8 2 0)).take 2 =
      outputOf (finish .qenc (ram 0 pixels) (ops 8 8 2 0)) (job 5 (ram 0 pixels) (ops 8 8 2 0)) ∧
    input 1 (ram 0 [1]) (ops 1 8 0 0) =
      outputOf (finish .pack (ram 0 [1, 0]) (ops 2 8 2 0)) (job 3 (ram 0 [1, 0]) (ops 2 8 2 0)) :=
  ⟨succeeds .encPlane _ (by decide) (by decide) (by decide),
    succeeds .qenc _ (by decide) (by decide) (by decide),
    succeeds .pack _ (by decide) (by decide) (by decide),
    succeeds .rleEnc _ (by decide) (by decide) (by decide), by decide⟩

theorem witness_EncGrayIsDitherPackRleEnc :
    Succeeds .encGray (start 10 (ram 0 [0x80, 0x80]) (ops 2 8 0 0x00010002))
      (job 10 (ram 0 [0x80, 0x80]) (ops 2 8 0 0x00010002))
      (finish .encGray (ram 0 [0x80, 0x80]) (ops 2 8 0 0x00010002)) ∧
    Succeeds .ditherIdx (start 0x107 (ram 0 [0x80, 0x80]) (ops 2 8 0 0x00010002))
      (job 0x107 (ram 0 [0x80, 0x80]) (ops 2 8 0 0x00010002))
      (finish .ditherIdx (ram 0 [0x80, 0x80]) (ops 2 8 0 0x00010002)) ∧
    Succeeds .pack (start 3 (ram 0 [2, 0]) (ops 2 8 2 0)) (job 3 (ram 0 [2, 0]) (ops 2 8 2 0))
      (finish .pack (ram 0 [2, 0]) (ops 2 8 2 0)) ∧
    Succeeds .rleEnc (start 1 (ram 0 [2]) (ops 1 8 0 0)) (job 1 (ram 0 [2]) (ops 1 8 0 0))
      (finish .rleEnc (ram 0 [2]) (ops 1 8 0 0)) ∧
    (job 10 (ram 0 [0x80, 0x80]) (ops 2 8 0 0x00010002)).area = 2 ∧
    (input 3 (ram 0 [2, 0]) (ops 2 8 2 0)).take 2 =
      outputOf (finish .ditherIdx (ram 0 [0x80, 0x80]) (ops 2 8 0 0x00010002))
        (job 0x107 (ram 0 [0x80, 0x80]) (ops 2 8 0 0x00010002)) ∧
    input 1 (ram 0 [2]) (ops 1 8 0 0) =
      outputOf (finish .pack (ram 0 [2, 0]) (ops 2 8 2 0)) (job 3 (ram 0 [2, 0]) (ops 2 8 2 0)) :=
  ⟨succeeds .encGray _ (by decide) (by decide) (by decide),
    succeeds .ditherIdx _ (by decide) (by decide) (by decide),
    succeeds .pack _ (by decide) (by decide) (by decide),
    succeeds .rleEnc _ (by decide) (by decide) (by decide), by decide⟩

/-- The stream `E4 1B` of 5 pixels (V9), through the single commands too. -/
theorem witness_DecPlaneIsRleDecUnpackQdec :
    Succeeds .decPlane (start 9 (ram 0 [0xE4, 0x1B]) (ops 2 20 5 0))
      (job 9 (ram 0 [0xE4, 0x1B]) (ops 2 20 5 0)) (finish .decPlane (ram 0 [0xE4, 0x1B]) (ops 2 20 5 0)) ∧
    Succeeds .rleDec (start 2 (ram 0 [0xE4, 0x1B]) (ops 2 20 5 0))
      (job 2 (ram 0 [0xE4, 0x1B]) (ops 2 20 5 0)) (finish .rleDec (ram 0 [0xE4, 0x1B]) (ops 2 20 5 0)) ∧
    Succeeds .unpack (start 4 (ram 0 [0xE4, 0x1B]) (ops 2 20 5 0))
      (job 4 (ram 0 [0xE4, 0x1B]) (ops 2 20 5 0)) (finish .unpack (ram 0 [0xE4, 0x1B]) (ops 2 20 5 0)) ∧
    Succeeds .qdec (start 6 (ram 0 [0, 1, 2, 3, 3]) (ops 5 20 5 0))
      (job 6 (ram 0 [0, 1, 2, 3, 3]) (ops 5 20 5 0)) (finish .qdec (ram 0 [0, 1, 2, 3, 3]) (ops 5 20 5 0)) ∧
    (finish .rleDec (ram 0 [0xE4, 0x1B]) (ops 2 20 5 0)).results.outLen.toNat = packedLen 5 ∧
    (input 4 (ram 0 [0xE4, 0x1B]) (ops 2 20 5 0)).take (packedLen 5) =
      outputOf (finish .rleDec (ram 0 [0xE4, 0x1B]) (ops 2 20 5 0))
        (job 2 (ram 0 [0xE4, 0x1B]) (ops 2 20 5 0)) ∧
    (input 6 (ram 0 [0, 1, 2, 3, 3]) (ops 5 20 5 0)).take 5 =
      outputOf (finish .unpack (ram 0 [0xE4, 0x1B]) (ops 2 20 5 0))
        (job 4 (ram 0 [0xE4, 0x1B]) (ops 2 20 5 0)) :=
  ⟨succeeds .decPlane _ (by decide) (by decide) (by decide),
    succeeds .rleDec _ (by decide) (by decide) (by decide),
    succeeds .unpack _ (by decide) (by decide) (by decide),
    succeeds .qdec _ (by decide) (by decide) (by decide), by decide⟩

theorem witness_PlaneRoundTrip :
    Succeeds .encPlane (start 8 (ram 0 pixels) (ops 8 8 2 0)) (job 8 (ram 0 pixels) (ops 8 8 2 0))
      (finish .encPlane (ram 0 pixels) (ops 8 8 2 0)) ∧
    Ready (start 9 (ram 0 [1]) (ops 1 8 2 0)) (job 9 (ram 0 [1]) (ops 1 8 2 0)) ∧
    input 9 (ram 0 [1]) (ops 1 8 2 0) =
      outputOf (finish .encPlane (ram 0 pixels) (ops 8 8 2 0)) (job 8 (ram 0 pixels) (ops 8 8 2 0)) ∧
    InRam tiny (job 9 (ram 0 [1]) (ops 1 8 2 0)) ∧ ¬ Overlap (job 9 (ram 0 [1]) (ops 1 8 2 0)) ∧
    4 * 2 ≤ (job 9 (ram 0 [1]) (ops 1 8 2 0)).cap.toNat :=
  ⟨succeeds .encPlane _ (by decide) (by decide) (by decide),
    start_ready _ _ (by decide) (by decide), by decide⟩

end Sys2Proof.Tests
end

section
/-! PROOFS of the family 00_scope: the invariant holds at power-on and is kept by every step. One lemma
for each operation that makes a new state says that it keeps the invariant; a step is one of them. -/

namespace Sys2Proof.Machine

/-! ### The invariant and the fields it speaks of -/

/-- The invariant reads seven fields: a state that agrees with `s` on them, mostly
by definition, meets it too. -/
theorem State.Inv.congr {s t : State} (h : s.Inv) (hparams : t.params = s.params := by rfl)
    (hstatus : t.status = s.status := by rfl) (hcmd : t.cmd = s.cmd := by rfl)
    (hresults : t.results = s.results := by rfl) (hmem : t.mem = s.mem := by rfl)
    (hphase : t.phase = s.phase := by rfl) (hbuf : t.ditherBuf = s.ditherBuf := by rfl) :
    t.Inv where
  params_legal := hparams ▸ h.params_legal
  mem_wf := hmem ▸ h.mem_wf
  mem_inside := hmem ▸ hparams ▸ h.mem_inside
  dither_len := hbuf ▸ hparams ▸ h.dither_len
  err_code := hstatus ▸ h.err_code
  busy_status j hj := hstatus ▸ h.busy_status j (hphase ▸ hj)
  busy_results j hj := hresults ▸ h.busy_results j (hphase ▸ hj)
  busy_cmd j hj := hcmd ▸ h.busy_cmd j (hphase ▸ hj)

/-- A new STATUS keeps the invariant when ERR still has a code and it still shows no outcome while
BUSY (R28, R33). -/
theorem State.Inv.withStatus {s : State} (h : s.Inv) {st : Status}
    (herr : st.err = true → st.errcode ≠ .none) (hclear : s.status.Clear → st.Clear) :
    ({ s with status := st } : State).Inv where
  params_legal := h.params_legal
  mem_wf := h.mem_wf
  mem_inside := h.mem_inside
  dither_len := h.dither_len
  err_code := herr
  busy_status j hj := hclear (h.busy_status j hj)
  busy_results := h.busy_results
  busy_cmd := h.busy_cmd

/-- The bus operations and the turns still to come are no part of the invariant (log 4). -/
theorem State.Inv.withTurns {s : State} (h : s.Inv) (ops : List BusOp) (turns : List Agent) :
    ({ s with host := ops, sched := turns } : State).Inv :=
  h.congr

/-! ### Power-on (R360) -/

theorem inv_powerOn {p : Params} {ram : Memory} (hp : p.legal = true) (hwf : ram.wf = true)
    (hin : ram.inside p.bufBytes = true) : (State.powerOn p ram).Inv :=
  inv_of_idle hp hwf hin (by simp [State.powerOn]) (by simp [State.powerOn]) rfl

/-! ### Bytes written to the buffer RAM stay inside it -/

/-- Writing no byte at all is harmless wherever it is aimed, so the bound is asked only of a write that
stores something: a job's DST may lie past the last buffer byte (R323). -/
theorem Memory.inside_writeBytes_of_nil_or_fits {m : Memory} {n a : Nat} {bs : List Byte}
    (hm : m.inside n = true) (h : bs = [] ∨ a + bs.length ≤ n) :
    (m.writeBytes a bs).inside n = true := by
  rcases h with rfl | h
  · exact hm
  · exact Memory.inside_writeBytes hm bs h

@[simp] theorem length_freeBytes (d n : Nat) : (freeBytes d n).length = n := by simp [freeBytes]

theorem length_dataBytes (d : BusData) : (dataBytes d).length = widthBytes (dataWidth d) := by
  cases d <;> rfl

/-- The bytes a hazarded completion draws lie in the buffer RAM (R366). -/
theorem hazard_bytes_fit (p : Params) (j : Job) (d : Nat) :
    freeBytes d (dstInside p j) = [] ∨
      j.dst.toNat + (freeBytes d (dstInside p j)).length ≤ p.bufBytes := by
  rw [← List.length_eq_zero_iff, length_freeBytes, dstInside]
  omega

/-- The bytes a soft reset draws for an abandoned job lie in the buffer RAM (R361). -/
theorem abandoned_bytes_fit {s : State} {j : Job} (hj : s.phase = .busy j) (d : Nat) :
    freeBytes d (abandonedBytes s) = [] ∨
      j.dst.toNat + (freeBytes d (abandonedBytes s)).length ≤ s.params.bufBytes := by
  rw [← List.length_eq_zero_iff, length_freeBytes, abandonedBytes, hj]
  by_cases hok : dstRegionOk s.params j
  · simp only [hok, if_true]
    exact Or.inr (of_decide_eq_true hok)
  · exact Or.inl (by simp [hok])

/-- A soft reset leaves a buffer RAM in canonical form, inside its size (R361). -/
theorem softResetMem_wf_inside {s : State} (h : s.Inv) :
    (softResetMem s).wf = true ∧ (softResetMem s).inside s.params.bufBytes = true := by
  unfold softResetMem
  split
  next => exact ⟨h.mem_wf, h.mem_inside⟩
  next j hj =>
    exact ⟨Memory.wf_writeBytes h.mem_wf _ _,
      Memory.inside_writeBytes_of_nil_or_fits h.mem_inside (abandoned_bytes_fit hj _)⟩

/-- What a command writes lies in the buffer RAM (R88, R89). -/
theorem ruleOf_out_fits_buffer (i : Instr) (s : State) (j : Job) :
    (ruleOf i s j).out = [] ∨ j.dst.toNat + (ruleOf i s j).out.length ≤ s.params.bufBytes := by
  rcases ruleOf_fits i s j with hnil | ⟨⟨-, hdst⟩, -, hlen⟩
  · exact Or.inl hnil
  · exact Or.inr (by omega)

/-! ### The dither error buffer keeps its length (R55) -/

@[simp] theorem Effects.raise?_ditherBuf (e : Effects) (err : Option (ErrCode × Nat)) :
    (e.raise? err).ditherBuf = e.ditherBuf := by
  cases err <;> rfl

@[simp] theorem encodeInto_ditherBuf (e : Effects) (j : Job) (used : Nat) (x : List Byte) :
    (encodeInto e j used x).ditherBuf = e.ditherBuf := by
  unfold encodeInto
  dsimp only
  split <;> rfl

@[simp] theorem classified_ditherBuf (e : Effects) (j : Job) (n : Nat) (cs : List PixelClass) :
    (classified e j n cs).ditherBuf = e.ditherBuf := rfl

/-- A command leaves the dither error buffer alone, or has passed the width check and leaves what the
sliding form of its image leaves there (R55, R267). -/
theorem ruleOf_ditherBuf_cases (i : Instr) (s : State) (j : Job) :
    (ruleOf i s j).ditherBuf = s.ditherBuf ∨
      (j.w.toNat ≤ s.params.maxWidth ∧
        ∃ g, (ruleOf i s j).ditherBuf = finalDitherBuf s.params j.w.toNat j.h.toNat g) := by
  cases hc : commandChecks i j with
  | none => cases i <;> simp [commandChecks, ruleOf, nopRule] at hc ⊢
  | some c =>
    cases hp : prologue s.params j c with
    | some err => exact Or.inl (by rw [ruleOf_of_prologue hc hp]; rfl)
    | none =>
      obtain ⟨hwidth, -⟩ := (prologue_none_iff s.params j c).mp hp
      cases i <;> simp only [commandChecks, Option.some.injEq, reduceCtorEq] at hc <;> subst hc
      case dither | ditherIdx =>
        exact Or.inr ⟨not_lt.mp fun hlt => hwidth ⟨rfl, hlt⟩, srcBytes s.mem j j.area,
          by simp only [ruleOf, ditherRule, hp]⟩
      case encGray =>
        exact Or.inr ⟨not_lt.mp fun hlt => hwidth ⟨rfl, hlt⟩, srcBytes s.mem j j.area,
          by simp only [ruleOf, encGrayRule, hp, encodeInto_ditherBuf]⟩
      case decPlane =>
        left
        simp only [ruleOf, decPlaneRule, hp]
        split <;> rfl
      all_goals
        left
        simp only [ruleOf, rleEncRule, rleDecRule, packRule, unpackRule, qencRule, qdecRule,
          encPlaneRule, hp, encodeInto_ditherBuf, Effects.raise?_ditherBuf, classified_ditherBuf,
          Effects.start_ditherBuf]

theorem length_ruleOf_ditherBuf {s : State} (h : s.Inv) (i : Instr) (j : Job) :
    (ruleOf i s j).ditherBuf.length = 2 * s.params.maxWidth + 1 := by
  rcases ruleOf_ditherBuf_cases i s j with hkept | ⟨hwidth, g, hfinal⟩
  · rw [hkept, h.dither_len]
  · rw [hfinal, length_finalDitherBuf _ _ _ _ hwidth]

/-! ### The engine's completion keeps the invariant (R59) -/

theorem inv_complete {s : State} (h : s.Inv) {j : Job} {e : Effects}
    (hout : e.out = [] ∨ j.dst.toNat + e.out.length ≤ s.params.bufBytes)
    (hbuf : e.ditherBuf.length = 2 * s.params.maxWidth + 1) : (complete s j e).Inv :=
  inv_of_idle h.params_legal (Memory.wf_writeBytes h.mem_wf _ _)
    (Memory.inside_writeBytes_of_nil_or_fits h.mem_inside hout) hbuf (errFlag_iff _).mp rfl

theorem inv_hazardCompletion {s : State} (h : s.Inv) (j : Job) : (hazardCompletion s j).Inv :=
  inv_of_idle h.params_legal (Memory.wf_writeBytes h.mem_wf _ _)
    (Memory.inside_writeBytes_of_nil_or_fits h.mem_inside (hazard_bytes_fit _ _ _))
    h.dither_len (errFlag_iff _).mp rfl

theorem engineStep_keeps_inv {s t : State} {j : Job} (h : s.Inv) (hj : s.phase = .busy j)
    (ht : engineStep j s = .next t) : t.Inv ∧ t.params = s.params := by
  rcases engineStep_cases hj with ⟨-, hs⟩ | ⟨-, -, hs⟩ | ⟨-, i, -, hs⟩
  all_goals
    rw [hs] at ht
    cases ht
  case inl => exact ⟨inv_hazardCompletion h j, rfl⟩
  case inr.inl => exact ⟨inv_complete h (Or.inl rfl) h.dither_len, rfl⟩
  case inr.inr =>
    exact ⟨inv_complete h (ruleOf_out_fits_buffer i s j) (length_ruleOf_ditherBuf h i j), rfl⟩

/-! ### A host write of a register keeps the invariant -/

theorem inv_softReset {s : State} (h : s.Inv) : (softReset s).Inv :=
  (inv_powerOn h.params_legal (softResetMem_wf_inside h).1 (softResetMem_wf_inside h).2).congr

theorem inv_writeCtrl {s : State} (h : s.Inv) (v : Word) : (writeCtrl v s).Inv := by
  unfold writeCtrl
  split
  · exact inv_softReset h
  · exact h.congr

@[simp] theorem writeCtrl_params (v : Word) (s : State) : (writeCtrl v s).params = s.params := by
  unfold writeCtrl
  split <;> rfl

/-- An acknowledge clears flags and keeps ERRCODE, so it neither loses ERR's code nor shows an outcome
(R34). -/
theorem inv_writeStatus {s : State} (h : s.Inv) (v : Word) : (writeStatus v s).Inv := by
  refine h.withStatus (fun herr => h.err_code ?_) ?_
  · rw [Status.clear_err, Bool.and_eq_true] at herr
    exact herr.1
  · rintro ⟨hdone, herr, hcls, hxs, hidxhi, hcode⟩
    simp [Status.Clear, hdone, herr, hcls, hxs, hidxhi, hcode]

/-- A command word is accepted in IDLE, and only marks LOST while BUSY (R58, R60). -/
theorem inv_presentCommand {s : State} (h : s.Inv) (w : Word) : (presentCommand w s).Inv := by
  unfold presentCommand
  split
  · exact inv_accept h w
  · exact h.withStatus h.err_code id

@[simp] theorem presentCommand_params (w : Word) (s : State) :
    (presentCommand w s).params = s.params := by
  unfold presentCommand
  split <;> rfl

theorem inv_writeReg {s : State} (h : s.Inv) (r : Reg) (v : Word) : (writeReg r v s).Inv := by
  cases r with
  | ctrl => exact inv_writeCtrl h v
  | status => exact inv_writeStatus h v
  | cmd => exact inv_presentCommand h v
  | _ => exact h.congr

@[simp] theorem writeReg_params (r : Reg) (v : Word) (s : State) :
    (writeReg r v s).params = s.params := by
  cases r with
  | ctrl => exact writeCtrl_params v s
  | cmd => exact presentCommand_params v s
  | _ => rfl

theorem writeSlot_keeps_inv {s : State} (h : s.Inv) (off : Nat) (v : Word) :
    (writeSlot off v s).Inv ∧ (writeSlot off v s).params = s.params := by
  unfold writeSlot
  split
  next r _ => exact ⟨inv_writeReg h r v, writeReg_params r v s⟩
  next => exact ⟨h, rfl⟩

/-! ### A host access of the buffer RAM keeps the invariant (R83) -/

/-- A buffer write can only mark the running job: the job keeps its command word (R99, R366). -/
theorem Phase.afterBufferWrite_busy {ph : Phase} {a n : Nat} {j' : Job}
    (h : ph.afterBufferWrite a n = .busy j') : ∃ j, ph = .busy j ∧ j'.cmdw = j.cmdw := by
  cases ph with
  | idle => cases h
  | busy j => cases h; exact ⟨j, rfl, rfl⟩

theorem inv_readBuffer {s : State} (h : s.Inv) (a : Nat) (w : BusWidth) : (readBuffer s a w).Inv :=
  h.congr

theorem inv_writeBuffer {s : State} (h : s.Inv) {a : Nat} {d : BusData}
    (hfit : a + widthBytes (dataWidth d) ≤ s.params.bufBytes) : (writeBuffer s a d).Inv where
  params_legal := h.params_legal
  mem_wf := Memory.wf_writeBytes h.mem_wf _ _
  mem_inside := Memory.inside_writeBytes h.mem_inside _ (by rwa [length_dataBytes])
  dither_len := h.dither_len
  err_code := h.err_code
  busy_status j' hj' := by
    obtain ⟨j, hj, -⟩ := Phase.afterBufferWrite_busy hj'
    exact h.busy_status j hj
  busy_results j' hj' := by
    obtain ⟨j, hj, -⟩ := Phase.afterBufferWrite_busy hj'
    exact h.busy_results j hj
  busy_cmd j' hj' := by
    obtain ⟨j, hj, hcmdw⟩ := Phase.afterBufferWrite_busy hj'
    exact (h.busy_cmd j hj).trans hcmdw.symm

/-! ### Every step keeps the invariant -/

theorem hostAccess_keeps_inv {s t : State} {a : HostAccess} (h : s.Inv)
    (ht : hostAccess a s = .next t) : t.Inv ∧ t.params = s.params := by
  rcases hostAccess_cases a s with ⟨f, hs⟩ |
    ⟨off, -, -, ⟨o, -, -, hs⟩ | ⟨o, v, -, -, hs⟩⟩ |
    ⟨b, -, hfit, ⟨o, w, -, hs⟩ | ⟨o, d, rfl, hs⟩⟩
  all_goals
    rw [hs] at ht
    cases ht
  · exact ⟨h.congr, rfl⟩
  · obtain ⟨hinv, hparams⟩ := writeSlot_keeps_inv h off v
    exact ⟨hinv.congr, hparams⟩
  · exact ⟨inv_readBuffer h b w, rfl⟩
  · exact ⟨inv_writeBuffer h hfit, rfl⟩

theorem hostStep_keeps_inv {s t : State} {op : BusOp} (h : s.Inv) (ht : hostStep op s = .next t) :
    t.Inv ∧ t.params = s.params := by
  cases op with
  | access a => exact hostAccess_keeps_inv h ht
  | wait =>
    cases ht
    exact ⟨h.congr, rfl⟩

/-- Settles O29: a step waits, is a host operation, or is the engine's completion, and each of the
three keeps the invariant and the parameters. -/
theorem stepKeepsTheInvariant : Obligations.StepKeepsTheInvariant := by
  intro s t h ht
  rcases step_cases s with ⟨-, -, hs⟩ | ⟨op, rest, -, ⟨-, hs⟩ | ⟨j, later, -, -, hs⟩⟩ | ⟨j, hj, -, hs⟩
  all_goals rw [hs] at ht
  · cases ht
    exact ⟨h, rfl⟩
  · exact (hostStep_keeps_inv (h.withTurns rest s.sched) ht :)
  · exact (hostStep_keeps_inv (h.withTurns rest later) ht :)
  · exact (engineStep_keeps_inv (h.withTurns s.host s.sched.tail) hj ht :)

/-- Settles O28: the power-on state of any legal implementation, of which `State.reset` is one. -/
theorem powerOnMeetsTheInvariant : Obligations.PowerOnMeetsTheInvariant :=
  ⟨fun _ _ hp hwf hin => inv_powerOn hp hwf hin, inv_powerOn (by decide) rfl rfl⟩

end Sys2Proof.Machine
end

section
/-! PROOFS of the family 10_state: the registers on the bus. A word access at the offset of a register is
a read or a write of that register; STATUS and CTRL are known by their bits. -/

namespace Sys2Proof.Machine

/-! ### A register at its offset (10_state.md, register map) -/

theorem regOffset_lt (r : Reg) : (regOffset r).toNat < 0x100 := (regOffset r).isLt

theorem regOffset_aligned (r : Reg) : (regOffset r).toNat % 4 = 0 := by cases r <;> rfl

theorem regAt_regOffset (r : Reg) : regAt (regOffset r).toNat = some r :=
  (regAt_eq_some_iff _ r).mpr rfl

theorem writeSlot_regOffset (r : Reg) (v : Word) (s : State) :
    writeSlot (regOffset r).toNat v s = writeReg r v s := by
  simp only [writeSlot, regAt_regOffset]

theorem readSlot_regOffset (r : Reg) (s : State) :
    readSlot s (regOffset r).toNat = readReg s r := by
  simp only [readSlot, regAt_regOffset]

/-- A word write at the offset of a register writes it. -/
theorem hostAccess_write_reg (s : State) {off : WindowOffset} {r : Reg} (v : Word)
    (h : off.toNat = (regOffset r).toNat) :
    hostAccess (.write off (.word v)) s = .next { writeReg r v s with response := .written } := by
  rw [hostAccess_write_slot s off v (h ▸ regOffset_lt r) (h ▸ regOffset_aligned r), h,
    writeSlot_regOffset]

/-- A word read at the offset of a register reads it. -/
theorem hostAccess_read_reg (s : State) {off : WindowOffset} {r : Reg}
    (h : off.toNat = (regOffset r).toNat) :
    hostAccess (.read off .w32) s = .next { s with response := .read (.word (readReg s r)) } := by
  rw [hostAccess_read_slot s off (h ▸ regOffset_lt r) (h ▸ regOffset_aligned r), h,
    readSlot_regOffset]

/-- No register reads what the bus handed back (log 6). -/
@[simp] theorem readReg_withResponse (s : State) (a : Response) (r : Reg) :
    readReg { s with response := a } r = readReg s r := by
  cases r <;> rfl

/-! ### The bits of STATUS and CTRL -/

theorem Phase.isBusy_iff (ph : Phase) : ph.isBusy = true ↔ ph ≠ .idle := by
  cases ph <;> simp [Phase.isBusy]

/-- STATUS bit by bit: the flags from bit 0 on, ERRCODE in bits 15:8, and 0 elsewhere (R26 to R33). -/
theorem Status.getLsbD_word (st : Status) (busy : Bool) (i : Nat) :
    (st.word busy).getLsbD i =
      if i < 8 then
        [busy, st.done, st.err, st.cls, st.xs, st.idxhi, st.lost, false].getD i false
      else st.errcode.code.getLsbD (i - 8) := by
  simp only [Status.word, BitVec.getLsbD_append]
  by_cases hlow : i < 8
  · interval_cases i <;> simp
  · obtain ⟨k, rfl⟩ := Nat.exists_eq_add_of_le (not_lt.mp hlow)
    simpa using BitVec.lt_of_getLsbD

/-- ERRCODE is STATUS bits 15:8 (R33). -/
theorem Status.extractLsb'_word_errcode (st : Status) (busy : Bool) :
    (st.word busy).extractLsb' 8 8 = st.errcode.code := by
  refine BitVec.eq_of_getLsbD_eq fun i hi => ?_
  simp only [BitVec.getLsbD_extractLsb', Status.getLsbD_word, hi, decide_true, Bool.true_and]
  rw [if_neg (by omega), Nat.add_sub_cancel_left]

theorem Status.extractLsb'_word_reserved (st : Status) (busy : Bool) :
    (st.word busy).extractLsb' 16 16 = 0 := by
  refine BitVec.eq_of_getLsbD_eq fun i hi => ?_
  simp only [BitVec.getLsbD_extractLsb', Status.getLsbD_word, hi, decide_true, Bool.true_and]
  rw [if_neg (by omega), BitVec.getLsbD_of_ge _ _ (by omega)]
  exact BitVec.getLsbD_zero.symm

/-- CTRL bit by bit: IE_DONE, IE_ERR, TAILMODE, and 0 elsewhere (R22 to R25). -/
theorem Ctrl.getLsbD_word (c : Ctrl) (i : Nat) :
    c.word.getLsbD i = [c.ieDone, c.ieErr, c.tailMode.bit].getD i false := by
  simp only [Ctrl.word, BitVec.getLsbD_append]
  by_cases hlow : i < 3
  · interval_cases i <;> simp
  · obtain ⟨k, rfl⟩ := Nat.exists_eq_add_of_le (not_lt.mp hlow)
    simp

theorem Ctrl.extractLsb'_word_reserved (c : Ctrl) : c.word.extractLsb' 3 29 = 0 := by
  refine BitVec.eq_of_getLsbD_eq fun i hi => ?_
  simp [Ctrl.getLsbD_word]

@[simp] theorem TailMode.bit_ofBit (b : Bool) : (TailMode.ofBit b).bit = b := by cases b <;> rfl

theorem TailMode.bit_iff (t : TailMode) : t.bit = true ↔ t = .reclassify := by
  cases t <;> simp [TailMode.bit]

/-! ### Writes of CMD, STATUS and CTRL -/

theorem presentCommand_busy {s : State} {j : Job} (hj : s.phase = .busy j) (w : Word) :
    presentCommand w s = { s with status := { s.status with lost := true } } := by
  simp only [presentCommand, hj]

theorem presentCommand_idle {s : State} (h : s.phase = .idle) (w : Word) :
    presentCommand w s = accept w s := by
  simp only [presentCommand, h]

/-- Settles O12: the write at 0x00C is `presentCommand`, which accepts the word in IDLE. -/
theorem acceptanceLatchesTheJob : Obligations.AcceptanceLatchesTheJob := by
  intro s w hidle
  have hcmd : writeReg .cmd w s = accept w s := presentCommand_idle hidle w
  refine (hostAccess_write_reg s (off := 0x00C) (r := .cmd) w rfl).trans ?_
  rw [hcmd]
  rfl

/-- Settles O13: the write at 0x00C is `presentCommand`, which only sets LOST while BUSY. -/
theorem commandWrittenWhileBusyIsDropped : Obligations.CommandWrittenWhileBusyIsDropped := by
  intro s j w hbusy
  have hcmd : writeReg .cmd w s = { s with status := { s.status with lost := true } } :=
    presentCommand_busy hbusy w
  refine (hostAccess_write_reg s (off := 0x00C) (r := .cmd) w rfl).trans ?_
  rw [hcmd]

/-- The STATUS word after a write of ones, bit by bit (R34). -/
theorem Status.getLsbD_word_clear (st : Status) (busy : Bool) (w : Word) (i : Nat) :
    ((st.clear w).word busy).getLsbD i =
      ((st.word busy).getLsbD i && !(decide (1 ≤ i ∧ i ≤ 6) && w.getLsbD i)) := by
  simp only [Status.getLsbD_word]
  by_cases hlow : i < 8
  · interval_cases i <;> simp
  · have hhigh : ¬ i ≤ 6 := by omega
    simp [hlow, hhigh]

/-- Settles O14: the write at 0x008 replaces STATUS by `Status.clear`. -/
theorem statusWriteClearsExactlyItsOnes : Obligations.StatusWriteClearsExactlyItsOnes := by
  intro s w
  exact ⟨_, hostAccess_write_reg s (r := .status) w rfl,
    fun i _ => Status.getLsbD_word_clear s.status s.phase.isBusy w i, rfl⟩

theorem writeCtrl_bits {v : Word} (h : v.getLsbD 31 = false) (s : State) :
    writeCtrl v s = { s with ctrl := .ofWord v } :=
  if_neg (by rw [h]; exact Bool.false_ne_true)

theorem writeCtrl_softReset {v : Word} (h : v.getLsbD 31 = true) (s : State) :
    writeCtrl v s = softReset s :=
  if_pos h

/-- Settles O15: without bit 31 the write at 0x004 stores bits 0 to 2. -/
theorem controlWriteSetsThreeBits : Obligations.ControlWriteSetsThreeBits := by
  intro s w hw
  have hctrl : writeReg .ctrl w s = { s with ctrl := .ofWord w } := writeCtrl_bits hw s
  refine ⟨_, hostAccess_write_reg s (r := .ctrl) w rfl, fun i _ => ?_, by rw [hctrl]⟩
  rw [hctrl, readReg_withResponse, readReg, Ctrl.getLsbD_word]
  by_cases hlow : i < 3
  · interval_cases i <;> simp [Ctrl.ofWord]
  · obtain ⟨k, rfl⟩ := Nat.exists_eq_add_of_le (not_lt.mp hlow)
    simp

/-! ### The soft reset (R361) -/

/-- Every register reads its power-on value after a soft reset. -/
theorem readReg_softReset (s : State) (r : Reg) :
    readReg (softReset s) r = readReg (State.powerOn s.params []) r := by
  cases r <;> rfl

/-- A soft reset in IDLE changes no buffer byte. -/
theorem softResetMem_idle {s : State} (h : s.phase = .idle) : softResetMem s = s.mem := by
  simp only [softResetMem, h]

/-- A soft reset draws no byte outside the DST region of the job it abandons. -/
theorem read_softResetMem_outside {s : State} {j : Job} (hinv : s.Inv) (hj : s.phase = .busy j)
    {b : Nat} (h : b < j.dst.toNat ∨ j.dst.toNat + abandonedBytes s ≤ b) :
    (softResetMem s).read b = s.mem.read b := by
  simp only [softResetMem, hj]
  exact Memory.read_writeBytes_outside hinv.mem_wf _ _ b (by rwa [length_freeBytes])

theorem abandonedBytes_busy {s : State} {j : Job} (hj : s.phase = .busy j) :
    abandonedBytes s = if j.dst.toNat + j.cap.toNat ≤ s.params.bufBytes then j.cap.toNat else 0 := by
  simp only [abandonedBytes, hj, dstRegionOk, decide_eq_true_eq]

/-- Settles O16: bit 31 makes the write at 0x004 a soft reset. -/
theorem softResetKeepsTheBuffer : Obligations.SoftResetKeepsTheBuffer := by
  intro s w hinv hw
  have hctrl : writeReg .ctrl w s = softReset s := writeCtrl_softReset hw s
  refine ⟨_, hostAccess_write_reg s (r := .ctrl) w rfl, ?_⟩
  rw [hctrl]
  refine ⟨fun r => ?_, rfl, rfl, rfl, fun hidle a => ?_, fun j hj => ⟨fun hok b hb => ?_,
    fun hout b => ?_⟩⟩
  · rw [readReg_withResponse, readReg_softReset]
  · exact congrArg (Memory.read · a) (softResetMem_idle hidle)
  · exact read_softResetMem_outside hinv hj (by rwa [abandonedBytes_busy hj, if_pos hok])
  · exact read_softResetMem_outside hinv hj
      (by rw [abandonedBytes_busy hj, if_neg (by omega)]; omega)

/-! ### Read-only registers and reserved slots (R20, R21, R47) -/

/-- No register stands at 0x03C, at 0x04C or above 0x05C. -/
theorem regAt_reserved {off : Nat} (h : off = 0x3C ∨ off = 0x4C ∨ 0x60 ≤ off) : regAt off = none := by
  have hnot : ∀ r, ¬ ((regOffset r).toNat = 0x3C ∨ (regOffset r).toNat = 0x4C ∨
      0x60 ≤ (regOffset r).toNat) := by
    intro r
    cases r <;> decide
  rw [Option.eq_none_iff_forall_ne_some]
  intro r hr
  rw [(regAt_eq_some_iff off r).mp hr] at h
  exact hnot r h

/-- The read-only registers: ID and the five result registers ignore writes. -/
theorem writeReg_readOnly {r : Reg}
    (h : r ∈ [Reg.id, .outLen, .inUsed, .clsCount, .clsFirst, .errPos]) (v : Word) (s : State) :
    writeReg r v s = s := by
  fin_cases h <;> rfl

/-- The word slots 0x028 to 0x038 are the result registers. -/
theorem exists_result_register {off : Nat} (hlow : 0x28 ≤ off) (hhigh : off ≤ 0x38)
    (h4 : off % 4 = 0) :
    ∃ r ∈ [Reg.id, .outLen, .inUsed, .clsCount, .clsFirst, .errPos], off = (regOffset r).toNat := by
  obtain rfl | rfl | rfl | rfl | rfl :
      off = 0x28 ∨ off = 0x2C ∨ off = 0x30 ∨ off = 0x34 ∨ off = 0x38 := by omega
  all_goals decide

/-- Settles O17: a slot that ignores writes is read-only or reserved. -/
theorem readOnlyAndReservedSlotsIgnoreWrites : Obligations.ReadOnlyAndReservedSlotsIgnoreWrites := by
  intro s off v h4
  have hreserved : off = 0x03C ∨ off = 0x04C ∨ (0x060 ≤ off.toNat ∧ off.toNat ≤ 0x0FC) →
      off.toNat < 0x100 ∧ regAt off.toNat = none := by
    rintro (rfl | rfl | ⟨hlow, hhigh⟩)
    · exact ⟨by decide, regAt_reserved (by decide)⟩
    · exact ⟨by decide, regAt_reserved (by decide)⟩
    · exact ⟨by omega, regAt_reserved (by omega)⟩
  refine ⟨fun h => ?_, ?_, fun h => ?_⟩
  · obtain rfl | ⟨hlow, hhigh⟩ | h := h
    · exact hostAccess_write_reg s (r := .id) v rfl
    · obtain ⟨r, hr, hoff⟩ := exists_result_register hlow hhigh h4
      rw [hostAccess_write_reg s v hoff, writeReg_readOnly hr]
    · obtain ⟨hlt, hnone⟩ := hreserved h
      rw [hostAccess_write_slot s off v hlt h4]
      simp only [writeSlot, hnone]
  · rintro rfl
    exact hostAccess_read_reg s (r := .id) rfl
  · obtain ⟨hlt, hnone⟩ := hreserved h
    rw [hostAccess_read_slot s off hlt h4]
    simp only [readSlot, hnone]

/-! ### Every register reads at its offset -/

/-- Settles O60: the offsets are those of `regOffset`, and STATUS and CTRL are known by their bits. -/
theorem everyRegisterReadsAtItsOffset : Obligations.EveryRegisterReadsAtItsOffset := by
  refine ⟨fun s off r h => hostAccess_read_reg s ?_, fun s r v h => ?_, fun s => ⟨?_, ?_, ?_⟩⟩
  · fin_cases h <;> rfl
  · fin_cases h <;> rfl
  · simp only [readReg, Ctrl.getLsbD_word, ← TailMode.bit_iff]
    exact ⟨rfl, rfl, Iff.rfl, Ctrl.extractLsb'_word_reserved _⟩
  · simp only [readReg, Status.getLsbD_word, ← Phase.isBusy_iff]
    exact ⟨Iff.rfl, rfl, rfl, rfl, rfl, rfl, rfl, rfl, Status.extractLsb'_word_reserved _ _⟩
  · intro e n hn he
    refine (Status.extractLsb'_word_errcode s.status _).trans ?_
    rw [he]
    fin_cases hn <;> rfl

/-! ### The read-write operand and palette registers (R36 to R41, R48, R50) -/

/-- The operand and palette registers, which a host writes and reads back. -/
def operandRegs : List Reg :=
  [.srcAddr, .srcLen, .dstAddr, .dstCap, .pixcnt, .geom, .palEnc0, .palEnc1, .palEnc2, .palDec0,
    .palDec1, .palDec2, .palDec3]

/-- A palette register of the encoder does not store bits [31:24] (R48). -/
theorem setWidth_setWidth_rgb (v : Word) : (v.setWidth 24 : Rgb).setWidth 32 = v &&& 0x00FFFFFF := by
  apply BitVec.eq_of_toNat_eq
  rw [BitVec.toNat_and, show (0x00FFFFFF : Word).toNat = 2 ^ 24 - 1 from rfl,
    Nat.and_two_pow_sub_one_eq_mod, BitVec.toNat_setWidth, BitVec.toNat_setWidth]
  omega

theorem readReg_writeReg_same {r : Reg} (hr : r ∈ operandRegs) (v : Word) (s : State) :
    readReg (writeReg r v s) r =
      if r = .palEnc0 ∨ r = .palEnc1 ∨ r = .palEnc2 then v &&& 0x00FFFFFF else v := by
  fin_cases hr <;> simp [writeReg, readReg, setWidth_setWidth_rgb]

theorem readReg_writeReg_other {r r' : Reg} (hr : r ∈ operandRegs) (hne : r' ≠ r) (v : Word)
    (s : State) : readReg (writeReg r v s) r' = readReg s r' := by
  revert hne
  fin_cases hr <;> cases r' <;> simp [writeReg, readReg]

theorem writeReg_operand_frame {r : Reg} (hr : r ∈ operandRegs) (v : Word) (s : State) :
    (writeReg r v s).mem = s.mem ∧ (writeReg r v s).phase = s.phase ∧
      (writeReg r v s).irq = s.irq := by
  fin_cases hr <;> exact ⟨rfl, rfl, rfl⟩

/-- Settles O18: each of the thirteen offsets names its register. -/
theorem writtenRegisterReadsBack : Obligations.WrittenRegisterReadsBack := by
  intro s v off r h
  obtain ⟨hoff, hr⟩ : off.toNat = (regOffset r).toNat ∧ r ∈ operandRegs := by
    fin_cases h <;> exact ⟨rfl, by decide⟩
  refine ⟨_, _, hostAccess_write_reg s v hoff, hostAccess_read_reg _ hoff, ?_, fun r' hne => ?_,
    writeReg_operand_frame hr v s⟩
  · rw [readReg_withResponse, readReg_writeReg_same hr]
  · rw [readReg_withResponse, readReg_writeReg_other hr hne]

/-! ### The interrupt output and power-on (R57, R360) -/

/-- Settles O19: bits 1 and 2 of STATUS are DONE and ERR, bits 0 and 1 of CTRL their enables. -/
theorem interruptIsDrivenByDoneAndErr : Obligations.InterruptIsDrivenByDoneAndErr := by
  refine ⟨fun s => ?_, fun p ram => rfl⟩
  simp only [readReg, Status.getLsbD_word, Ctrl.getLsbD_word]
  rfl

/-- CTRL and STATUS are 0 after power-on (R360). -/
theorem readReg_powerOn_flags (p : Params) (ram : Memory) :
    readReg (State.powerOn p ram) .ctrl = 0 ∧ readReg (State.powerOn p ram) .status = 0 :=
  ⟨(by decide : Ctrl.word ⟨false, false, .escape⟩ = 0),
    (by decide : Status.word ⟨false, false, false, false, false, false, .none⟩ false = 0)⟩

/-- Settles O27: every register of the power-on state is a constant. -/
theorem powerOnGivesTheResetValues : Obligations.PowerOnGivesTheResetValues := by
  intro p ram s
  obtain ⟨hctrl, hstatus⟩ := readReg_powerOn_flags p ram
  refine ⟨rfl, fun r hr => ?_, rfl, rfl, rfl, rfl, rfl, rfl, rfl, rfl, rfl, rfl, rfl⟩
  rcases List.mem_cons.mp hr with rfl | hr
  · exact hctrl
  rcases List.mem_cons.mp hr with rfl | hr
  · exact hstatus
  · fin_cases hr <;> rfl

end Sys2Proof.Machine
end

section
/-! PROOFS of the family 10_state: steps. Who moves, what a completion leaves, and what a host operation can
do to the running job. -/

namespace Sys2Proof.Machine

/-! ### The engine's turn (R59) -/

/-- When the host has nothing to do, or the schedule does not name it, the engine completes its job. -/
theorem step_engine {s : State} {j : Job} (hj : s.phase = .busy j)
    (hturn : s.host = [] ∨ s.sched.head? ≠ some .host) :
    step s = engineStep j { s with sched := s.sched.tail } := by
  rcases step_cases s with ⟨hidle, -, -⟩ | ⟨op, rest, hhost, ⟨hidle, -⟩ | ⟨j', later, -, hsched, -⟩⟩ |
    ⟨j', hj', -, hs⟩
  · simp [hj] at hidle
  · simp [hj] at hidle
  · simp [hhost, hsched] at hturn
  · cases hj.symm.trans hj'
    exact hs

theorem engineStep_of_decode {s : State} {j : Job} {i : Instr} (hz : j.hazard = false)
    (hd : decode j.cmdw = .ok i) : engineStep j s = exec i s := by
  simp [engineStep, hz, hd]

/-- Settles O5: the engine's turn, and a word that decodes. -/
theorem stepRunsTheDecodedCommand : Obligations.StepRunsTheDecodedCommand := by
  intro s j i hj hz hd hturn
  rw [step_engine hj hturn, engineStep_of_decode hz hd]

theorem decode_encode (i : Instr) : decode (encode i) = .ok i := by cases i <;> decide

@[simp] theorem latch_cmdw (s : State) (w : Word) : (latch s w).cmdw = w := rfl

/-- Settles O6: `present` puts the engine's turn first and latches the word unhazarded. -/
theorem fetchedWordRunsNext : Obligations.FetchedWordRunsNext := by
  intro s i
  have hword : BitVec.ofNat 32 (encode i).toNat = encode i := by cases i <;> rfl
  rw [State.withFetchWord, hword, step_engine (present_phase _ s) (Or.inr (by simp)),
    engineStep_of_decode (i := i) rfl]
  · rfl
  · rw [latch_cmdw]
    exact decode_encode i

/-- Settles O8: bit 0 of the STATUS word is BUSY. -/
theorem waitRepeatsWhileBusy : Obligations.WaitRepeatsWhileBusy := by
  intro s
  have hbit : (readReg s .status).getLsbD 0 = s.phase.isBusy := Status.getLsbD_word _ _ 0
  have hloop : (if (readReg s .status).getLsbD 0 then .wait :: s.host else s.host) =
      if s.phase = .idle then s.host else .wait :: s.host := by
    rw [hbit]
    cases s.phase <;> simp [Phase.isBusy]
  rw [hostStep, pollStatus, hloop]
  rfl

/-! ### No step is stuck (R320, R371) -/

/-- What the engine's step leaves is a completion: the phase is IDLE, DONE is set, ERR follows the code,
and CTRL is kept (R59). -/
theorem engineStep_completes {s : State} {j : Job} (hj : s.phase = .busy j) :
    ∃ t, engineStep j s = .next t ∧ t.phase = .idle ∧ t.status.done = true ∧
      t.status.err = errFlag t.status.errcode ∧ t.ctrl = s.ctrl := by
  rcases engineStep_cases hj with ⟨-, hs⟩ | ⟨-, -, hs⟩ | ⟨-, i, -, hs⟩ <;>
    exact ⟨_, hs, rfl, rfl, rfl, rfl⟩

theorem hostAccess_ne_refused (a : HostAccess) (s : State) (r : Refusal) :
    hostAccess a s ≠ .refused r := by
  unfold hostAccess
  split <;> exact nofun

theorem hostStep_ne_refused (op : BusOp) (s : State) (r : Refusal) : hostStep op s ≠ .refused r := by
  cases op with
  | access a => exact hostAccess_ne_refused a s r
  | wait => exact nofun

/-- Settles O10: a completion gives an IDLE state, and neither agent refuses anything. -/
theorem engineIsNeverStuck : Obligations.EngineIsNeverStuck := by
  refine ⟨fun s j hj => ?_, fun s r hr => ?_⟩
  · obtain ⟨t, ht, hidle, -⟩ := engineStep_completes hj
    exact ⟨t, ht, hidle⟩
  · rcases step_cases s with ⟨-, -, hs⟩ | ⟨op, rest, -, ⟨-, hs⟩ | ⟨j, later, -, -, hs⟩⟩ |
      ⟨j, hj, -, hs⟩
    all_goals rw [hs] at hr
    · cases hr
    · exact hostStep_ne_refused _ _ _ hr
    · exact hostStep_ne_refused _ _ _ hr
    · obtain ⟨t, ht, -⟩ := engineStep_completes (s := { s with sched := s.sched.tail }) hj
      cases ht.symm.trans hr

/-! ### What a host operation can do to the running job -/

/-- The engine's side of a state, and the turns to come, are kept. -/
def KeepsJob (s t : State) : Prop :=
  t.phase = s.phase ∧ t.draws = s.draws ∧ t.sched = s.sched ∧
    (t.status.lost = true → s.status.lost = true)

/-- Everything a register write can do: a soft reset, a command word, or nothing to the job. -/
theorem writeReg_cases (r : Reg) (v : Word) (s : State) :
    (r = .ctrl ∧ v.getLsbD 31 = true ∧ writeReg r v s = softReset s) ∨
    (r = .cmd ∧ writeReg r v s = presentCommand v s) ∨ KeepsJob s (writeReg r v s) := by
  cases r with
  | ctrl =>
    cases hv : v.getLsbD 31
    · rw [writeReg, writeCtrl_bits hv]
      exact Or.inr (Or.inr ⟨rfl, rfl, rfl, id⟩)
    · exact Or.inl ⟨rfl, rfl, writeCtrl_softReset hv s⟩
  | cmd => exact Or.inr (Or.inl ⟨rfl, rfl⟩)
  | status =>
    refine Or.inr (Or.inr ⟨rfl, rfl, rfl, fun h => ?_⟩)
    rw [writeReg, writeStatus_status, Status.clear_lost, Bool.and_eq_true] at h
    exact h.1
  | _ => exact Or.inr (Or.inr ⟨rfl, rfl, rfl, id⟩)

/-- The same of a write at an offset: a soft reset at 0x004, a command word at 0x00C. -/
theorem writeSlot_cases (off : Nat) (v : Word) (s : State) :
    (off = 0x004 ∧ v.getLsbD 31 = true ∧ writeSlot off v s = softReset s) ∨
    (off = 0x00C ∧ writeSlot off v s = presentCommand v s) ∨ KeepsJob s (writeSlot off v s) := by
  cases hr : regAt off with
  | none =>
    have hsame : writeSlot off v s = s := by simp only [writeSlot, hr]
    rw [hsame]
    exact Or.inr (Or.inr ⟨rfl, rfl, rfl, id⟩)
  | some r =>
    have hoff := (regAt_eq_some_iff off r).mp hr
    rw [hoff, writeSlot_regOffset]
    rcases writeReg_cases r v s with ⟨rfl, hv, hw⟩ | ⟨rfl, hw⟩ | hk
    · exact Or.inl ⟨rfl, hv, hw⟩
    · exact Or.inr (Or.inl ⟨rfl, hw⟩)
    · exact Or.inr (Or.inr hk)

/-! ### Every job ends (R371) -/

theorem writeSlot_sched (off : Nat) (v : Word) (s : State) : (writeSlot off v s).sched = s.sched := by
  rcases writeSlot_cases off v s with ⟨-, -, hw⟩ | ⟨-, hw⟩ | ⟨-, -, hsched, -⟩
  · rw [hw]
    rfl
  · rw [hw]
    cases hp : s.phase with
    | idle => rw [presentCommand_idle hp]; rfl
    | busy j => rw [presentCommand_busy hp]
  · exact hsched

/-- No host operation touches the schedule (log 4). -/
theorem hostStep_sched {op : BusOp} {s t : State} (h : hostStep op s = .next t) :
    t.sched = s.sched := by
  cases op with
  | wait => cases h; rfl
  | access a =>
    rcases hostAccess_cases a s with ⟨f, hs⟩ |
      ⟨off, -, -, ⟨o, -, -, hs⟩ | ⟨o, v, -, -, hs⟩⟩ | ⟨b, -, -, ⟨o, w, -, hs⟩ | ⟨o, d, -, hs⟩⟩
    all_goals
      rw [hostStep, hs] at h
      cases h
    · rfl
    · exact writeSlot_sched off v s
    · rfl
    · rfl

theorem run_succ_of_next {M : Host.Core} {s t : M.State} (h : M.step s = .next t) (k : Nat) :
    M.run (k + 1) s = M.run k t := by
  simp only [Host.Core.run, h]

theorem run_succ_of_fault {M : Host.Core} {s : M.State} {f : M.Fault} (h : M.step s = .fault f)
    (k : Nat) : M.run (k + 1) s = .fault f := by
  simp only [Host.Core.run, h]

/-- One step of a BUSY machine ends the job, or is a bus error, or uses up a turn of the schedule. -/
theorem step_busy_cases {s : State} {j : Job} (hj : s.phase = .busy j) :
    (∃ t, step s = .next t ∧ t.phase = .idle) ∨ (∃ f, step s = .fault f) ∨
    (∃ t j', step s = .next t ∧ t.phase = .busy j' ∧ t.sched.length + 1 = s.sched.length) := by
  rcases step_cases s with ⟨hidle, -⟩ | ⟨op, rest, -, ⟨hidle, -⟩ | ⟨j', later, -, hsched, hs⟩⟩ |
    ⟨j', hj', -, hs⟩
  · cases hj.symm.trans hidle
  · cases hj.symm.trans hidle
  · rw [hs]
    cases hop : hostStep op { s with host := rest, sched := later } with
    | fault f => exact Or.inr (Or.inl ⟨f, rfl⟩)
    | refused r => exact absurd hop (hostStep_ne_refused _ _ _)
    | next t =>
      cases ht : t.phase with
      | idle => exact Or.inl ⟨t, rfl, ht⟩
      | busy j'' =>
        refine Or.inr (Or.inr ⟨t, j'', rfl, ht, ?_⟩)
        rw [hostStep_sched hop, hsched]
        rfl
  · obtain ⟨t, ht, hidle, -⟩ := engineStep_completes (s := { s with sched := s.sched.tail }) hj'
    exact Or.inl ⟨t, hs.trans ht, hidle⟩

/-- Settles O11, by induction on the turns of the schedule: each turn of the host uses one up. -/
theorem everyJobEnds : Obligations.EveryJobEnds := by
  intro s j hj
  induction hn : s.sched.length generalizing s j with
  | zero =>
    rcases step_busy_cases hj with ⟨t, ht, hidle⟩ | ⟨f, hf⟩ | ⟨t, j', -, -, hlen⟩
    · exact ⟨1, le_rfl, Or.inl ⟨t, run_succ_of_next (M := core) ht 0, hidle⟩⟩
    · exact ⟨1, le_rfl, Or.inr ⟨f, run_succ_of_fault (M := core) hf 0⟩⟩
    · omega
  | succ n ih =>
    rcases step_busy_cases hj with ⟨t, ht, hidle⟩ | ⟨f, hf⟩ | ⟨t, j', ht, hj', hlen⟩
    · exact ⟨1, by omega, Or.inl ⟨t, run_succ_of_next (M := core) ht 0, hidle⟩⟩
    · exact ⟨1, by omega, Or.inr ⟨f, run_succ_of_fault (M := core) hf 0⟩⟩
    · obtain ⟨k, hk, hend⟩ := ih t j' hj' (by omega)
      exact ⟨k + 1, by omega, by rwa [run_succ_of_next (M := core) ht k]⟩

/-! ### The interrupt (R57, R334) -/

/-- IRQ after a completion: IE_DONE, or IE_ERR when the code says an error. -/
theorem irq_of_completion {s t : State} (hdone : t.status.done = true)
    (herr : t.status.err = errFlag t.status.errcode) (hctrl : t.ctrl = s.ctrl) :
    t.irq = (s.ctrl.ieDone || (s.ctrl.ieErr && decide (t.status.errcode ≠ .none))) := by
  rw [State.irq, hdone, herr, hctrl, Bool.true_and, Bool.and_comm (errFlag _)]
  rfl

/-- Settles O20: the engine's step and `exec` both end in a completion; an acknowledge clears both flags. -/
theorem completionInterruptsAndAcknowledgeDropsIt :
    Obligations.CompletionInterruptsAndAcknowledgeDropsIt := by
  refine ⟨fun s t j hj ht => ?_, fun s t j i hj ht => ?_, fun s t w hdone herr ht => ?_⟩
  · obtain ⟨t', ht', -, hdone, herr, hctrl⟩ := engineStep_completes hj
    cases ht.symm.trans ht'
    exact ⟨hdone, irq_of_completion hdone herr hctrl⟩
  · cases (exec_busy i hj).symm.trans ht
    exact ⟨rfl, irq_of_completion rfl rfl rfl⟩
  · cases (hostAccess_write_reg s (off := 0x008) (r := .status) w rfl).symm.trans ht
    rw [State.irq]
    simp [writeReg, hdone, herr]

/-! ### A running job (R58, R99, R364) -/

/-- A buffer write changes nothing of the running job but its hazard mark. -/
theorem afterBufferWrite_busy (j : Job) (a n : Nat) :
    ∃ hz, (Phase.busy j).afterBufferWrite a n = .busy { j with hazard := hz } ∧
      (j.hazard = true → hz = true) :=
  ⟨_, rfl, fun h => by rw [h, Bool.true_or]⟩

theorem writeSlot_busy_cases {s : State} {j : Job} (hj : s.phase = .busy j) (off : Nat) (v : Word) :
    (off = 0x004 ∧ v.getLsbD 31 = true ∧ writeSlot off v s = softReset s) ∨
    ((writeSlot off v s).phase = s.phase ∧ (writeSlot off v s).draws = s.draws) := by
  rcases writeSlot_cases off v s with hreset | ⟨-, hw⟩ | ⟨hphase, hdraws, -⟩
  · exact Or.inl hreset
  · rw [hw, presentCommand_busy hj]
    exact Or.inr ⟨rfl, rfl⟩
  · exact Or.inr ⟨hphase, hdraws⟩

/-- While BUSY a host access is a soft reset, or accesses a register and leaves the job, or accesses the
buffer RAM (R361, R364). -/
theorem hostAccess_busy_cases {s t : State} {j : Job} {a : HostAccess} (hj : s.phase = .busy j)
    (ht : hostAccess a s = .next t) :
    (t.phase = .idle ∧ ∃ w : Word, w.getLsbD 31 = true ∧ a = .write 0x004 (.word w)) ∨
    (t.phase = s.phase ∧ t.draws = s.draws) ∨
    (∃ b o w, a = .read o w ∧ o.toNat = 0x400000 + b ∧ t = readBuffer s b w) ∨
    (∃ b o d, a = .write o d ∧ o.toNat = 0x400000 + b ∧ t = writeBuffer s b d) := by
  rcases hostAccess_cases a s with ⟨f, hs⟩ |
    ⟨off, -, -, ⟨o, -, -, hs⟩ | ⟨o, v, rfl, ho, hs⟩⟩ |
    ⟨b, hb, -, ⟨o, w, rfl, hs⟩ | ⟨o, d, rfl, hs⟩⟩
  all_goals
    rw [hs] at ht
    cases ht
  · exact Or.inr (Or.inl ⟨rfl, rfl⟩)
  · rcases writeSlot_busy_cases hj off v with ⟨hoff, hv, hw⟩ | hkept
    · have ho4 : o = 0x004 := BitVec.eq_of_toNat_eq (ho.trans hoff)
      exact Or.inl ⟨by rw [hw]; rfl, v, hv, by rw [ho4]⟩
    · exact Or.inr (Or.inl hkept)
  · exact Or.inr (Or.inr (Or.inl ⟨b, o, w, rfl, hb, rfl⟩))
  · exact Or.inr (Or.inr (Or.inr ⟨b, o, d, rfl, hb, rfl⟩))

/-- Settles O24: a buffer write can mark the job, and only a soft reset ends it. -/
theorem runningJobKeepsItsOperands : Obligations.RunningJobKeepsItsOperands := by
  intro s t j op hj ht
  have hkept : t.phase = s.phase → ∃ hz, t.phase = .busy { j with hazard := hz } ∧
      (j.hazard = true → hz = true) := fun h => ⟨j.hazard, h.trans hj, id⟩
  cases op with
  | wait =>
    cases ht
    exact Or.inl (hkept rfl)
  | access a =>
    rcases hostAccess_busy_cases hj ht with ⟨hidle, w, hw, rfl⟩ | ⟨hphase, -⟩ |
      ⟨b, o, w, -, -, rfl⟩ | ⟨b, o, d, -, -, rfl⟩
    · exact Or.inr ⟨hidle, w, hw, rfl⟩
    · exact Or.inl (hkept hphase)
    · exact Or.inl (hkept rfl)
    · left
      rw [writeBuffer_phase, hj]
      exact afterBufferWrite_busy j b _

/-! ### A dutiful host (R368) -/

/-- LOST is newly set only by a command word written while BUSY (R60). -/
theorem hostAccess_lost {s t : State} {a : HostAccess} (ht : hostAccess a s = .next t)
    (hlost : t.status.lost = true) (hcmd : ∀ v, a = .write 0x00C (.word v) → s.phase = .idle) :
    s.status.lost = true := by
  rcases hostAccess_cases a s with ⟨f, hs⟩ |
    ⟨off, -, -, ⟨o, -, -, hs⟩ | ⟨o, v, rfl, ho, hs⟩⟩ | ⟨b, -, -, ⟨o, w, -, hs⟩ | ⟨o, d, -, hs⟩⟩
  all_goals
    rw [hs] at ht
    cases ht
  · exact hlost
  · rcases writeSlot_cases off v s with ⟨-, -, hw⟩ | ⟨hoff, hw⟩ | ⟨-, -, -, hkept⟩
    · rw [hw] at hlost
      cases hlost
    · have hoC : o = 0x00C := BitVec.eq_of_toNat_eq (ho.trans hoff)
      rw [hw, presentCommand_idle (hcmd v (by rw [hoC]))] at hlost
      exact hlost
    · exact hkept hlost
  · exact hlost
  · exact hlost

/-- A read that stays out of the running job's DST region draws nothing (R367). -/
theorem readDraws_eq_zero {s : State} {b n : Nat} (h : ¬ touchesOutput s b n) :
    readDraws s b n = 0 := by
  refine if_neg fun hany => h ?_
  obtain ⟨i, hi, hbyte⟩ := List.any_eq_true.mp hany
  cases hp : s.phase with
  | idle => simp [beingWritten, hp] at hbyte
  | busy j => exact ⟨j, hp, i, List.mem_range.mp hi, by simpa only [beingWritten, hp] using hbyte⟩

/-- A write that stays out of the running job's regions leaves it unmarked (R366). -/
theorem afterBufferWrite_untouched {s : State} {b n : Nat} (h : ¬ touchesJob s b n) :
    s.phase.afterBufferWrite b n = s.phase := by
  cases hp : s.phase with
  | idle => rfl
  | busy j =>
    have hnone : ((List.range n).any fun i =>
        inSrcRegion j (b + i) || inDstRegion j (b + i)) = false := by
      refine Bool.eq_false_iff.mpr fun hany => h ?_
      obtain ⟨i, hi, hbyte⟩ := List.any_eq_true.mp hany
      exact ⟨j, hp, i, List.mem_range.mp hi, by simpa only [Bool.or_eq_true] using hbyte⟩
    rw [Phase.afterBufferWrite, hnone, Bool.or_false]

/-- Settles O25: the duties exclude the one access that sets LOST and the buffer accesses that mark the
job or draw a value. -/
theorem dutifulHostLosesNothing : Obligations.DutifulHostLosesNothing := by
  intro s t a hduty ht
  refine ⟨fun hlost => hostAccess_lost ht hlost ?_, fun j hj => ?_⟩
  · rintro v rfl
    exact hduty.1 rfl
  · rcases hostAccess_busy_cases hj ht with ⟨-, hreset⟩ | ⟨hphase, hdraws⟩ |
      ⟨b, o, w, rfl, ho, rfl⟩ | ⟨b, o, d, rfl, ho, rfl⟩
    · exact Or.inr hreset
    · exact Or.inl ⟨hphase.trans hj, hdraws⟩
    · have hout : ¬ touchesOutput s b (widthBytes w) := by
        have := hduty.resolve_right (by omega)
        rwa [ho, Nat.add_sub_cancel_left] at this
      exact Or.inl ⟨hj, by rw [readBuffer_draws, readDraws_eq_zero hout, Nat.add_zero]⟩
    · have hout : ¬ touchesJob s b (dataBytes d).length := by
        have := hduty.2.resolve_right (by omega)
        rwa [ho, Nat.add_sub_cancel_left, ← length_dataBytes] at this
      exact Or.inl ⟨by rw [writeBuffer_phase, afterBufferWrite_untouched hout, hj], rfl⟩

/-! ### A hazarded completion (R366) -/

/-- The bytes it draws lie in the DST region. -/
theorem dstInside_le_cap (p : Params) (j : Job) : dstInside p j ≤ j.cap.toNat := by
  unfold dstInside
  omega

theorem sameBytesOutside_hazardCompletion {s : State} (h : s.mem.wf = true) (j : Job) :
    SameBytesOutside s (hazardCompletion s j) j.dst.toNat j.cap.toNat := by
  intro b hb
  have := dstInside_le_cap s.params j
  exact Memory.read_writeBytes_outside h _ _ b (by rw [length_freeBytes]; omega)

/-- Settles O26: the step is `hazardCompletion`. -/
theorem hazardedCompletionIsBounded : Obligations.HazardedCompletionIsBounded := by
  rintro s j ⟨hj, hinv⟩ hz hturn
  have hinv' : State.Inv { s with sched := s.sched.tail } := hinv.congr
  have hstep : step s = .next (hazardCompletion { s with sched := s.sched.tail } j) := by
    rw [step_engine hj hturn, engineStep, if_pos hz]
  exact ⟨_, hstep, rfl, rfl, errFlag_iff _, rfl, sameBytesOutside_hazardCompletion hinv'.mem_wf j,
    (inv_hazardCompletion hinv' j).mem_inside, rfl, rfl, rfl, rfl, rfl, rfl, rfl⟩

end Sys2Proof.Machine
end

section
/-! PROOFS of the family 10_state: what every command may report and what it leaves alone (R88, R328, R331).
A rule stops at an error of its prologue, having done nothing, or goes on with its body. -/

namespace Sys2Proof.Machine

/-! ### The two ways a rule can go -/

/-- A fact holds of what a rule leaves when it holds of a rule that has done nothing (NOP), of one that
has only raised its prologue's error, and of the body of one whose prologue passes (R329). -/
theorem ruleOf_induction {P : Effects → Prop} {i : Instr} {s : State} {j : Job}
    (hnop : i = .nop → P (.start s))
    (hfail : ∀ c code pos, commandChecks i j = some c → FirstFailure s.params j c code pos →
      P ((Effects.start s).raise code pos))
    (hpass : ∀ c, commandChecks i j = some c → prologue s.params j c = none → P (ruleOf i s j)) :
    P (ruleOf i s j) := by
  cases hc : commandChecks i j with
  | none =>
    obtain rfl : i = .nop := by cases i <;> simp [commandChecks] at hc ⊢
    exact hnop rfl
  | some c =>
    cases hp : prologue s.params j c with
    | none => exact hpass c hc hp
    | some err =>
      rw [ruleOf_of_prologue hc hp]
      exact hfail c err.1 err.2 hc ((prologue_some_iff _ _ _ _ _).mp hp)

/-! ### The bodies of the RLE commands -/

section
variable (e : Effects) (j : Job) (used : Nat) (x : List Byte)

@[simp] theorem encodeInto_xs : (encodeInto e j used x).xs = e.xs := by
  simp only [encodeInto]
  split <;> rfl

@[simp] theorem encodeInto_idxhi : (encodeInto e j used x).idxhi = e.idxhi := by
  simp only [encodeInto]
  split <;> rfl

@[simp] theorem encodeInto_clsCount :
    (encodeInto e j used x).results.clsCount = e.results.clsCount := by
  simp only [encodeInto]
  split <;> rfl

/-- The encoders raise DST_OVERFLOW or nothing; neither sets ERR_POS (R164). -/
theorem encodeInto_error_cases :
    ((encodeInto e j used x).errcode = e.errcode ∧
      (encodeInto e j used x).results.errPos = e.results.errPos) ∨
    ((encodeInto e j used x).errcode = .dstOverflow ∧
      (encodeInto e j used x).results.errPos = 0) := by
  simp only [encodeInto]
  split
  · exact Or.inr ⟨rfl, rfl⟩
  · exact Or.inl ⟨rfl, rfl⟩

end

/-- The loop of RLE_DEC stops with TRUNCATED or DST_OVERFLOW (R168, R169). -/
theorem rleDecode_error_code {cap : Nat} {trunc : Bool} {ts : List Token} {p k : Nat}
    {err : ErrCode × Nat} (h : (rleDecode cap trunc ts p k).error = some err) :
    err.1 = .truncated ∨ err.1 = .dstOverflow := by
  induction ts generalizing p k with
  | nil =>
    simp only [rleDecode, Option.ite_none_right_eq_some, Option.some.injEq] at h
    exact Or.inl (by rw [← h.2])
  | cons t ts ih =>
    rw [rleDecode] at h
    split at h
    · exact ih h
    · cases h
      exact Or.inr rfl

/-- The loop of DEC_PLANE stops with TRUNCATED only (R292). -/
theorem gather_error_code {m slen : Nat} {trunc : Bool} {ts : List Token} {p k : Nat} {sur : Bool}
    {err : ErrCode × Nat} (h : (gather m slen trunc ts p k sur).error = some err) :
    err.1 = .truncated := by
  induction ts generalizing p k sur with
  | nil =>
    simp only [gather, Option.ite_none_left_eq_some, Option.some.injEq] at h
    rw [← h.2]
  | cons t ts ih =>
    rw [gather] at h
    split at h
    · cases h
    · exact ih h

/-! ### What a command may report (R328, R331) -/

/-- What the effects of command `i` may say, started from the result registers of acceptance. -/
structure Reports (i : Instr) (e : Effects) : Prop where
  code : e.errcode = .none ∨ e.errcode ∈ commandErrors i
  errPos : e.errcode ≠ .truncated → e.results.errPos = 0
  cls : e.results.clsCount = 0 ∨ i = .qenc ∨ i = .encPlane
  xs : e.xs = true → i ≠ .nop ∧ i ≠ .rleEnc ∧ i ≠ .rleDec
  idxhi : e.idxhi = true → i = .pack ∨ i = .qdec
  error_idxhi : e.errcode ≠ .none → e.idxhi = false
  error_cls : e.errcode ≠ .none →
    e.results.clsCount = 0 ∨ (i = .encPlane ∧ e.errcode = .dstOverflow)
  error_xs : e.errcode ≠ .none → e.xs = true →
    (i = .encPlane ∨ i = .encGray) ∧ e.errcode = .dstOverflow

/-- A command that succeeds. -/
theorem Reports.of_success {i : Instr} {e : Effects} (hcode : e.errcode = .none)
    (hpos : e.results.errPos = 0) (hcls : e.results.clsCount = 0 ∨ i = .qenc ∨ i = .encPlane)
    (hxs : e.xs = true → i ≠ .nop ∧ i ≠ .rleEnc ∧ i ≠ .rleDec)
    (hidxhi : e.idxhi = true → i = .pack ∨ i = .qdec) : Reports i e where
  code := Or.inl hcode
  errPos _ := hpos
  cls := hcls
  xs := hxs
  idxhi := hidxhi
  error_idxhi h := absurd hcode h
  error_cls h := absurd hcode h
  error_xs h := absurd hcode h

/-- A command that raises an error and sets no flag. -/
theorem Reports.of_error {i : Instr} {e : Effects} (hcode : e.errcode ∈ commandErrors i)
    (hpos : e.errcode ≠ .truncated → e.results.errPos = 0) (hcls : e.results.clsCount = 0)
    (hxs : e.xs = false) (hidxhi : e.idxhi = false) : Reports i e where
  code := Or.inr hcode
  errPos := hpos
  cls := Or.inl hcls
  xs h := absurd h (by simp [hxs])
  idxhi h := absurd h (by simp [hidxhi])
  error_idxhi _ := hidxhi
  error_cls _ := Or.inl hcls
  error_xs _ h := absurd h (by simp [hxs])

/-- A command that raises what `Effects.raise` raises, before it has set a flag. -/
theorem Reports.raise {i : Instr} {e : Effects} {code : ErrCode} (pos : Nat)
    (hcode : code ∈ commandErrors i) (hcls : e.results.clsCount = 0) (hxs : e.xs = false)
    (hidxhi : e.idxhi = false) : Reports i (e.raise code pos) :=
  .of_error hcode (fun h => if_neg h) hcls hxs hidxhi

/-- Every command with a prologue may raise RANGE, OVERLAP and DST_OVERFLOW (R331). -/
theorem common_errors {i : Instr} (h : i ≠ .nop) :
    .range ∈ commandErrors i ∧ .overlap ∈ commandErrors i ∧ .dstOverflow ∈ commandErrors i := by
  revert h
  cases i <;> simp [commandErrors]

/-- The prologue raises only errors of the command's row (R331). -/
theorem firstFailure_mem_commandErrors {i : Instr} {p : Params} {j : Job} {c : Checks}
    {code : ErrCode} {pos : Nat} (hc : commandChecks i j = some c)
    (hf : FirstFailure p j c code pos) : code ∈ commandErrors i := by
  have hne : i ≠ .nop := by
    rintro rfl
    cases hc
  obtain ⟨hrange, hoverlap, hoverflow⟩ := common_errors hne
  cases code with
  | none => exact hf.elim
  | illegalCmd => exact hf.elim
  | range => exact hrange
  | overlap => exact hoverlap
  | dstOverflow => exact hoverflow
  | widthLimit =>
    obtain ⟨⟨huses, -⟩, -⟩ := hf
    cases i <;> cases hc <;> simp [commandErrors] at huses ⊢
  | truncated =>
    obtain ⟨-, -, -, ⟨k, hneed, -⟩, -⟩ := hf
    cases i <;> cases hc <;> simp [commandErrors] at hneed ⊢

/-- What the RLE encoders report of the flags and counts they are given. -/
theorem Reports.encodeInto {i : Instr} {e : Effects} (j : Job) (used : Nat) (x : List Byte)
    (hne : i ≠ .nop) (hcode : e.errcode = .none) (hpos : e.results.errPos = 0)
    (hcls : e.results.clsCount = 0 ∨ i = .encPlane)
    (hxs : e.xs = true → i = .encPlane ∨ i = .encGray) (hidxhi : e.idxhi = false) :
    Reports i (encodeInto e j used x) := by
  have hxs' : e.xs = true → i ≠ .nop ∧ i ≠ .rleEnc ∧ i ≠ .rleDec := fun h => by
    rcases hxs h with rfl | rfl <;> decide
  rcases encodeInto_error_cases e j used x with ⟨herr, hpos'⟩ | ⟨herr, hpos'⟩
  · exact .of_success (herr.trans hcode) (hpos'.trans hpos)
      (by rw [encodeInto_clsCount]; exact hcls.imp_right Or.inr) (by rwa [encodeInto_xs])
      (by simp [hidxhi])
  · exact {
      code := Or.inr (by rw [herr]; exact (common_errors hne).2.2)
      errPos := fun _ => hpos'
      cls := by rw [encodeInto_clsCount]; exact hcls.imp_right Or.inr
      xs := by rwa [encodeInto_xs]
      idxhi := by simp [hidxhi]
      error_idxhi := fun _ => by rw [encodeInto_idxhi, hidxhi]
      error_cls := fun _ => by
        rw [encodeInto_clsCount]
        exact hcls.imp_right fun h => ⟨h, herr⟩
      error_xs := fun _ h => ⟨hxs (by rwa [encodeInto_xs] at h), herr⟩ }

theorem reports_rleDec {s : State} {j : Job} {c : Checks} (hpos : s.results.errPos = 0)
    (hcls : s.results.clsCount = 0) (hc : commandChecks .rleDec j = some c)
    (hp : prologue s.params j c = none) : Reports .rleDec (rleDecRule s j) := by
  cases hc
  simp only [rleDecRule, hp]
  cases herr : (rleDecode j.cap.toNat (tokens (srcBytes s.mem j j.slen.toNat)).2
      (tokens (srcBytes s.mem j j.slen.toNat)).1 0 0).error with
  | none => exact .of_success rfl hpos (Or.inl hcls) nofun nofun
  | some err =>
    have hcode : err.1 ∈ commandErrors .rleDec := by
      rcases rleDecode_error_code herr with h | h <;> rw [h] <;> decide
    exact .raise err.2 hcode hcls rfl rfl

theorem reports_decPlane {s : State} {j : Job} {c : Checks} (hpos : s.results.errPos = 0)
    (hcls : s.results.clsCount = 0) (hc : commandChecks .decPlane j = some c)
    (hp : prologue s.params j c = none) : Reports .decPlane (decPlaneRule s j) := by
  cases hc
  simp only [decPlaneRule, hp]
  split
  next err herr =>
    have hcode : err.1 ∈ commandErrors .decPlane := by rw [gather_error_code herr]; decide
    exact .raise err.2 hcode hcls rfl rfl
  next => exact .of_success rfl hpos (Or.inl hcls) (fun _ => by decide) nofun

/-- The body of a command whose prologue passes. -/
theorem reports_of_passes {i : Instr} {s : State} {j : Job} {c : Checks}
    (hpos : s.results.errPos = 0) (hcls : s.results.clsCount = 0) (hc : commandChecks i j = some c)
    (hp : prologue s.params j c = none) : Reports i (ruleOf i s j) := by
  cases i with
  | nop => cases hc
  | rleEnc =>
    cases hc
    simp only [ruleOf, rleEncRule, hp]
    exact .encodeInto j _ _ nofun rfl hpos (Or.inl hcls) nofun rfl
  | rleDec => exact reports_rleDec hpos hcls hc hp
  | pack =>
    cases hc
    simp only [ruleOf, packRule, hp]
    exact .of_success rfl hpos (Or.inl hcls) (fun _ => by decide) (fun _ => Or.inl rfl)
  | unpack =>
    cases hc
    simp only [ruleOf, unpackRule, hp]
    exact .of_success rfl hpos (Or.inl hcls) (fun _ => by decide) nofun
  | qenc =>
    cases hc
    simp only [ruleOf, qencRule, hp]
    exact .of_success rfl hpos (Or.inr (Or.inl rfl)) (fun _ => by decide) nofun
  | qdec =>
    cases hc
    simp only [ruleOf, qdecRule, hp]
    exact .of_success rfl hpos (Or.inl hcls) (fun _ => by decide) (fun _ => Or.inr rfl)
  | dither =>
    cases hc
    simp only [ruleOf, ditherRule, hp]
    exact .of_success rfl hpos (Or.inl hcls) (fun _ => by decide) nofun
  | ditherIdx =>
    cases hc
    simp only [ruleOf, ditherRule, hp]
    exact .of_success rfl hpos (Or.inl hcls) (fun _ => by decide) nofun
  | encPlane =>
    cases hc
    simp only [ruleOf, encPlaneRule, hp]
    exact .encodeInto j _ _ nofun rfl hpos (Or.inr rfl) (fun _ => Or.inl rfl) rfl
  | decPlane => exact reports_decPlane hpos hcls hc hp
  | encGray =>
    cases hc
    simp only [ruleOf, encGrayRule, hp]
    exact .encodeInto j _ _ nofun rfl hpos (Or.inl hcls) (fun _ => Or.inr rfl) rfl

/-- Every command reports only what its row allows, when its result registers are those of acceptance. -/
theorem reports_ruleOf (i : Instr) {s : State} (j : Job) (hres : s.results = .accepted) :
    Reports i (ruleOf i s j) := by
  have hpos : s.results.errPos = 0 := by rw [hres]; rfl
  have hcls : s.results.clsCount = 0 := by rw [hres]; rfl
  refine ruleOf_induction (fun _ => ?_) (fun c code pos hc hf => ?_) fun c hc hp =>
    reports_of_passes hpos hcls hc hp
  · exact .of_success rfl hpos (Or.inl hcls) nofun nofun
  · exact .raise pos (firstFailure_mem_commandErrors hc hf) hcls rfl rfl

/-- Settles O43: the next state shows the code and ERR_POS that the rule left. -/
theorem eachCommandRaisesOnlyItsErrors : Obligations.EachCommandRaisesOnlyItsErrors := by
  rintro i s t j ⟨hj, hinv⟩ ht
  cases (exec_busy i hj).symm.trans ht
  have hrep := reports_ruleOf i j (hinv.busy_results j hj)
  exact ⟨hrep.code, errFlag_iff _, hrep.errPos⟩

/-- Settles O44: CLS says whether CLS_COUNT is 0, XS and IDXHI are the rule's. -/
theorem reportFlagsComeFromTheirCommands : Obligations.ReportFlagsComeFromTheirCommands := by
  rintro i s t j ⟨hj, hinv⟩ ht
  cases (exec_busy i hj).symm.trans ht
  have hrep := reports_ruleOf i j (hinv.busy_results j hj)
  have hcount : clsFlag (ruleOf i s j).results.clsCount = true →
      (ruleOf i s j).results.clsCount ≠ 0 := fun h hzero => by
    rw [hzero] at h
    cases h
  exact ⟨clsFlag_iff _, fun h => hrep.cls.resolve_left (hcount h), hrep.xs, hrep.idxhi, fun herr =>
    ⟨hrep.error_idxhi herr, fun h => (hrep.error_cls herr).resolve_left (hcount h),
      hrep.error_xs herr⟩⟩

/-! ### What a command leaves alone (R88) -/

@[simp] theorem Effects.raise?_rleRun (e : Effects) (err : Option (ErrCode × Nat)) :
    (e.raise? err).rleRun = e.rleRun := by
  cases err <;> rfl

/-- Only the dither commands touch the dither error buffer (R55, log 3). -/
theorem ruleOf_ditherBuf_of_ne {i : Instr} (s : State) (j : Job) (hdither : i ≠ .dither)
    (hidx : i ≠ .ditherIdx) (hgray : i ≠ .encGray) : (ruleOf i s j).ditherBuf = s.ditherBuf := by
  refine ruleOf_induction (P := fun e => e.ditherBuf = s.ditherBuf) (fun _ => rfl)
    (fun _ _ _ _ _ => rfl) fun c hc hp => ?_
  cases i with
  | nop => rfl
  | dither => exact absurd rfl hdither
  | ditherIdx => exact absurd rfl hidx
  | encGray => exact absurd rfl hgray
  | decPlane =>
    cases hc
    simp only [ruleOf, decPlaneRule, hp]
    split <;> rfl
  | _ =>
    cases hc
    simp [ruleOf, rleEncRule, rleDecRule, packRule, unpackRule, qencRule, qdecRule, encPlaneRule, hp]

/-- Only the RLE encoders touch the RLE run state (R56, log 3). -/
theorem ruleOf_rleRun_of_ne {i : Instr} (s : State) (j : Job) (henc : i ≠ .rleEnc)
    (hplane : i ≠ .encPlane) (hgray : i ≠ .encGray) : (ruleOf i s j).rleRun = s.rleRun := by
  refine ruleOf_induction (P := fun e => e.rleRun = s.rleRun) (fun _ => rfl)
    (fun _ _ _ _ _ => rfl) fun c hc hp => ?_
  cases i with
  | nop => rfl
  | rleEnc => exact absurd rfl henc
  | encPlane => exact absurd rfl hplane
  | encGray => exact absurd rfl hgray
  | decPlane =>
    cases hc
    simp only [ruleOf, decPlaneRule, hp]
    split <;> rfl
  | _ =>
    cases hc
    simp [ruleOf, rleDecRule, packRule, unpackRule, qencRule, qdecRule, ditherRule, hp, classified]

/-- OUT_LEN counts the bytes a command writes, at most CAP of them (R42). -/
theorem ruleOf_outLen (i : Instr) {s : State} (j : Job) (hres : s.results = .accepted) :
    (ruleOf i s j).results.outLen.toNat = (ruleOf i s j).out.length ∧
      (ruleOf i s j).out.length ≤ j.cap.toNat := by
  refine ruleOf_induction (P := fun e => e.results.outLen.toNat = e.out.length ∧
    e.out.length ≤ j.cap.toNat) (fun _ => ?_) (fun c code pos _ _ => ?_) fun c hc hp => ?_
  · exact ⟨by rw [Effects.start_results, hres]; rfl, Nat.zero_le _⟩
  · exact ⟨by rw [Effects.raise_outLen, Effects.start_results, hres]; rfl, Nat.zero_le _⟩
  · obtain ⟨hfits, hcount⟩ := ruleOf_fits_of_passes hc ((prologue_none_iff _ _ _).mp hp)
    exact ⟨by rw [hcount, toNat_ofNat_of_le hfits], hfits⟩

/-- Settles O41: a completion stores the rule's output and replaces nothing but results, STATUS, phase and
the scratch state. -/
theorem commandsWriteOnlyTheirOutput : Obligations.CommandsWriteOnlyTheirOutput := by
  rintro i s t j ⟨hj, hinv⟩ ht
  cases (exec_busy i hj).symm.trans ht
  obtain ⟨hcount, hfits⟩ := ruleOf_outLen i j (hinv.busy_results j hj)
  refine ⟨?_, hcount ▸ hfits, rfl, rfl, rfl, rfl, rfl, rfl, rfl, rfl, rfl, rfl, rfl, rfl, rfl,
    ruleOf_ditherBuf_of_ne s j, ruleOf_rleRun_of_ne s j⟩
  rw [complete_results, hcount]
  exact (stored_complete j _ hinv.mem_wf).2

end Sys2Proof.Machine
end

section
/-! PROOFS of the family 10_state: the encoder that holds the run state of R56 emits `RleEncode` (O49). While a
run of `n` bytes is read, the chunks of 255 have been emitted and the run state holds the piece that is left. -/

namespace Sys2Proof.Machine

/-! ### The runs of a list that begins with a run -/

theorem exists_runs_cons (b : Byte) (x : List Byte) : ∃ n rs, runs (b :: x) = (b, n) :: rs := by
  unfold runs
  split
  · exact ⟨1, [], rfl⟩
  · split
    next v n rs _ hv => exact ⟨n + 1, rs, by rw [hv]⟩
    next v n rs _ _ => exact ⟨1, (v, n) :: rs, rfl⟩

/-- A list of equal bytes is one run. -/
theorem runs_replicate (v : Byte) (n : Nat) : runs (List.replicate (n + 1) v) = [(v, n + 1)] := by
  induction n with
  | zero => rfl
  | succ n ih => rw [List.replicate_succ, runs, ih]; simp

/-- Equal bytes before a different one are a run of their own (R160). -/
theorem runs_replicate_append {v b : Byte} (hne : v ≠ b) (n : Nat) (x : List Byte) :
    runs (List.replicate (n + 1) v ++ b :: x) = (v, n + 1) :: runs (b :: x) := by
  induction n with
  | zero =>
    obtain ⟨m, rs, hruns⟩ := exists_runs_cons b x
    show runs (v :: b :: x) = _
    rw [runs, hruns]
    simp [hne.symm]
  | succ n ih => rw [List.replicate_succ, List.cons_append, runs, ih]; simp

/-! ### What the run state does with its piece -/

section
variable (tail : TailMode) {r : RleRun}

theorem RleRun.flush_literal (hlen : r.len ≠ 0)
    (h : r.value ≠ escapeByte ∧ r.len ≤ 3 ∧ (r.chunked = false ∨ tail = .reclassify)) :
    r.flush tail = List.replicate r.len r.value := by
  rw [RleRun.flush, if_neg hlen, if_pos h]

theorem RleRun.flush_escaped (hlen : r.len ≠ 0)
    (h : ¬ (r.value ≠ escapeByte ∧ r.len ≤ 3 ∧ (r.chunked = false ∨ tail = .reclassify))) :
    r.flush tail = escapeSeq r.len r.value := by
  rw [RleRun.flush, if_neg hlen, if_neg h]

theorem RleRun.feed_room (hlen : r.len ≠ 0) (hroom : r.len < 255) :
    r.feed tail r.value = ([], { r with len := r.len + 1 }) := by
  rw [RleRun.feed, if_pos ⟨hlen, rfl⟩, if_pos hroom]

theorem RleRun.feed_full (hlen : r.len ≠ 0) (hfull : ¬ r.len < 255) :
    r.feed tail r.value =
      (escapeSeq 255 r.value, { value := r.value, len := 1, chunked := true }) := by
  rw [RleRun.feed, if_pos ⟨hlen, rfl⟩, if_neg hfull]

theorem RleRun.feed_other {b : Byte} (hne : r.value ≠ b) :
    r.feed tail b = (r.flush tail, { value := b, len := 1, chunked := false }) := by
  rw [RleRun.feed, if_neg fun h => hne h.2]

end

/-! ### The run state inside a run -/

/-- The chunks of 255 bytes that have been emitted when `n` bytes of a run have been read (R162). -/
def emittedChunks (v : Byte) (n : Nat) : List Byte :=
  (List.replicate ((n - 1) / 255) (escapeSeq 255 v)).flatten

/-- The run state when `n` bytes of a run have been read: the piece not yet emitted (R56). -/
def runState (v : Byte) (n : Nat) : RleRun :=
  { value := v, len := n - 255 * ((n - 1) / 255), chunked := decide (255 < n) }

theorem runState_len_ne_zero (v : Byte) {n : Nat} (hn : 0 < n) : (runState v n).len ≠ 0 := by
  simp only [runState]
  omega

/-- The piece held is emitted literally exactly when its run or its last chunk is (R161, R162). -/
theorem runState_literal_iff (tail : TailMode) (v : Byte) (n : Nat) :
    ((runState v n).value ≠ escapeByte ∧ (runState v n).len ≤ 3 ∧
      ((runState v n).chunked = false ∨ tail = .reclassify)) ↔
    (v ≠ escapeByte ∧ n ≤ 3) ∨
      (tail = .reclassify ∧ v ≠ escapeByte ∧ n - 255 * ((n - 1) / 255) ≤ 3) := by
  simp only [runState, decide_eq_false_iff_not]
  constructor
  · rintro ⟨hv, hlen, hshort | htail⟩
    · exact Or.inl ⟨hv, by omega⟩
    · exact Or.inr ⟨htail, hv, hlen⟩
  · rintro (⟨hv, hn⟩ | ⟨htail, hv, hlen⟩)
    · exact ⟨hv, by omega, Or.inl (by omega)⟩
    · exact ⟨hv, hlen, Or.inr htail⟩

/-- The chunks emitted and the piece flushed at the end of a run are the emission of the run (R161, R162). -/
theorem emittedChunks_append_flush (tail : TailMode) (v : Byte) {n : Nat} (hn : 0 < n) :
    emittedChunks v n ++ (runState v n).flush tail = emitRun tail (v, n) := by
  have hlen := runState_len_ne_zero v hn
  have hiff := runState_literal_iff tail v n
  by_cases hrun : v ≠ escapeByte ∧ n ≤ 3
  · have hnone : (n - 1) / 255 = 0 := by omega
    rw [RleRun.flush_literal tail hlen (hiff.mpr (Or.inl hrun)), emitRun, if_pos hrun]
    simp [emittedChunks, runState, hnone]
  · rw [emitRun, if_neg hrun, escapedRun, tailChunk]
    by_cases hchunk : tail = .reclassify ∧ v ≠ escapeByte ∧ n - 255 * ((n - 1) / 255) ≤ 3
    · rw [RleRun.flush_literal tail hlen (hiff.mpr (Or.inr hchunk)), if_pos hchunk]
      rfl
    · rw [RleRun.flush_escaped tail hlen fun h => (hiff.mp h).elim hrun hchunk, if_neg hchunk]
      rfl

/-- Reading one more byte of the run emits a chunk exactly when 255 bytes are held (R162). -/
theorem feed_same (tail : TailMode) (v : Byte) {n : Nat} (hn : 0 < n) :
    ((runState v n).feed tail v).2 = runState v (n + 1) ∧
      emittedChunks v n ++ ((runState v n).feed tail v).1 = emittedChunks v (n + 1) := by
  have hlen := runState_len_ne_zero v hn
  by_cases hroom : (runState v n).len < 255
  · rw [show (runState v n).feed tail v = _ from RleRun.feed_room tail hlen hroom]
    simp only [runState] at hroom
    have hsame : n / 255 = (n - 1) / 255 := by omega
    simp only [runState, emittedChunks, Nat.add_sub_cancel, hsame, List.append_nil, and_true,
      RleRun.mk.injEq, true_and, decide_eq_decide]
    omega
  · rw [show (runState v n).feed tail v = _ from RleRun.feed_full tail hlen hroom]
    simp only [runState] at hroom
    have hnext : n / 255 = (n - 1) / 255 + 1 := by omega
    have hlong : 255 < n + 1 := by omega
    simp only [runState, emittedChunks, Nat.add_sub_cancel, hnext, List.replicate_succ',
      List.flatten_concat, and_true, RleRun.mk.injEq, true_and, hlong, decide_true]
    omega

/-- A different byte ends the run and begins its own (R56). -/
theorem feed_other (tail : TailMode) {v b : Byte} (hne : v ≠ b) (n : Nat) :
    (runState v n).feed tail b = ((runState v n).flush tail, runState b 1) :=
  RleRun.feed_other tail hne

/-! ### The whole pass -/

/-- Inside a run, the chunks already emitted and what the pass has yet to emit are the encoding of the run
so far and the rest. -/
theorem emittedChunks_append_rleStream (tail : TailMode) (x : List Byte) (v : Byte) (n : Nat) :
    emittedChunks v (n + 1) ++ (rleStream tail (runState v (n + 1)) x).1 =
      rleEncode tail (List.replicate (n + 1) v ++ x) := by
  induction x generalizing v n with
  | nil =>
    rw [List.append_nil, rleEncode, runs_replicate, rleStream,
      emittedChunks_append_flush tail v (Nat.succ_pos n)]
    simp
  | cons b x ih =>
    rw [rleStream]
    by_cases hvb : v = b
    · subst hvb
      obtain ⟨hstate, hemit⟩ := feed_same tail v (Nat.succ_pos n)
      rw [hstate, ← List.append_assoc, hemit, ih v (n + 1),
        List.replicate_succ' (n := n + 1), List.append_assoc, List.singleton_append]
    · rw [feed_other tail hvb]
      have hrest := ih b 0
      rw [show emittedChunks b (0 + 1) = [] from rfl, List.nil_append] at hrest
      rw [← List.append_assoc, emittedChunks_append_flush tail v (Nat.succ_pos n), hrest, rleEncode,
        rleEncode, runs_replicate_append hvb, List.flatMap_cons]
      rfl

/-- Settles O49: the first byte starts the first run, and nothing is emitted for the start state. -/
theorem runStateEncoderAgrees : Obligations.RunStateEncoderAgrees := by
  intro tail x
  cases x with
  | nil => rfl
  | cons b x =>
    have hrun := emittedChunks_append_rleStream tail x b 0
    exact hrun

end Sys2Proof.Machine
end

section
/-! PROOFS of the family 10_state: the sliding dither buffer of R267 holds the errors of R266 (O55). A pixel
has received at most one diffused amount through each of the six neighbours of the mask, so an accumulated
error stays in the bounds of R268 and a signed 16-bit entry never wraps. -/

namespace Sys2Proof.Machine

/-! ### One neighbour at a time -/

/-- What one neighbour of the pixel at `i` takes of the diffused amount `d` (R265). -/
def diffuseTo (w h i : Nat) (d : Int) (errs : List Int) (nb : Int × Nat) : List Int :=
  if insideImage w h (i % w) (i / w) nb.1 nb.2 then errs.modify (i + slideOffset w nb) (· + d)
  else errs

/-- The same in the sliding buffer (R267). -/
def slideTo (w h i : Nat) (d : Int) (buf : List (BitVec 16)) (nb : Int × Nat) : List (BitVec 16) :=
  if insideImage w h (i % w) (i / w) nb.1 nb.2 then
    buf.modify (slideOffset w nb) (· + BitVec.ofInt 16 d)
  else buf

/-- A neighbour inside the image stands `slideOffset` linear positions after its pixel (R265, R267). -/
theorem neighbour_position {w h i : Nat} {nb : Int × Nat}
    (hin : insideImage w h (i % w) (i / w) nb.1 nb.2 = true) (hmem : nb ∈ neighbours) :
    (i / w + nb.2) * w + (((i % w : Nat) : Int) + nb.1).toNat = i + slideOffset w nb := by
  have hi : w * (i / w) + i % w = i := Nat.div_add_mod i w
  simp only [insideImage, Bool.and_eq_true, decide_eq_true_eq] at hin
  rw [Nat.add_mul, Nat.mul_comm (i / w)]
  fin_cases hmem <;> simp only [slideOffset] at hin ⊢ <;> omega

/-- That position lies in the image. -/
theorem neighbour_position_lt {w h i : Nat} {nb : Int × Nat}
    (hin : insideImage w h (i % w) (i / w) nb.1 nb.2 = true) (hmem : nb ∈ neighbours) :
    i + slideOffset w nb < w * h := by
  rw [← neighbour_position hin hmem]
  simp only [insideImage, Bool.and_eq_true, decide_eq_true_eq] at hin
  obtain ⟨⟨hleft, hright⟩, hbelow⟩ := hin
  calc (i / w + nb.2) * w + (((i % w : Nat) : Int) + nb.1).toNat
      < (i / w + nb.2) * w + w := by omega
    _ = w * (i / w + nb.2 + 1) := by ring
    _ ≤ w * h := Nat.mul_le_mul_left w hbelow

/-- The offsets of the sliding buffer go up to `2W` (R267). -/
theorem slideOffset_le {w : Nat} (hw : 0 < w) {nb : Int × Nat} (hmem : nb ∈ neighbours) :
    slideOffset w nb ≤ 2 * w := by
  fin_cases hmem <;> simp [slideOffset] <;> omega

theorem diffuse_eq_foldl (w h i : Nat) (d : Int) (errs : List Int) :
    diffuse w h (i % w) (i / w) d errs = neighbours.foldl (diffuseTo w h i d) errs := by
  refine List.foldl_ext _ _ _ fun es nb hmem => ?_
  unfold diffuseTo
  split
  next hin => rw [neighbour_position hin hmem]
  next => rfl

theorem slideDiffuse_eq_foldl (w h i : Nat) (d : Int) (buf : List (BitVec 16)) :
    slideDiffuse w h (i % w) (i / w) d buf = neighbours.foldl (slideTo w h i d) buf := rfl

/-! ### The accumulated errors stay in bounds (R268) -/

/-- `e` may be a sum of at most `n` diffused amounts. -/
def SumOfAmounts (n : Nat) (e : Int) : Prop := -255 * (n : Int) ≤ e ∧ e ≤ 254 * (n : Int)

theorem SumOfAmounts.zero_iff {e : Int} : SumOfAmounts 0 e ↔ e = 0 := by
  unfold SumOfAmounts
  omega

theorem SumOfAmounts.mono {n n' : Nat} {e : Int} (h : SumOfAmounts n e) (hn : n ≤ n') :
    SumOfAmounts n' e := by
  unfold SumOfAmounts at *
  omega

theorem SumOfAmounts.add {n : Nat} {e d : Int} (h : SumOfAmounts n e) (hd : SumOfAmounts 1 d) :
    SumOfAmounts (n + 1) (e + d) := by
  unfold SumOfAmounts at *
  omega

/-- How many amounts the error at linear position `k` may have received through the mask when the pixels
before position `i` have been processed. -/
def reached (w i k : Nat) : Nat := neighbours.countP fun nb => decide (k < i + slideOffset w nb)

/-- Every error is a sum of amounts received through the mask. -/
def ErrorsBounded (w i : Nat) (errs : List Int) : Prop :=
  ∀ k, SumOfAmounts (reached w i k) (errs.getD k 0)

theorem reached_le (w i k : Nat) : reached w i k ≤ 6 := List.countP_le_length

/-- Processing the pixel at `i` reaches the positions its mask names, once through each neighbour. -/
theorem reached_succ (w i k : Nat) :
    reached w (i + 1) k =
      reached w i k + neighbours.countP fun nb => decide (k = i + slideOffset w nb) := by
  unfold reached
  induction neighbours with
  | nil => rfl
  | cons nb nbs ih =>
    simp only [List.countP_cons, ih, decide_eq_true_eq]
    split_ifs <;> omega

/-- No pixel before `i` reaches a position `2W` or more after it. -/
theorem reached_eq_zero {w i k : Nat} (hw : 0 < w) (hk : i + 2 * w ≤ k) : reached w i k = 0 := by
  refine List.countP_eq_zero.mpr fun nb hmem => ?_
  have := slideOffset_le hw hmem
  simp only [decide_eq_true_eq]
  omega

theorem sumOfAmounts_diffused {g : Byte} {e : Int} {n : Nat} (h : SumOfAmounts n e) (hn : n ≤ 6) :
    SumOfAmounts 1 (diffused (adjusted g e)) := by
  have hg : g.toNat < 256 := g.isLt
  unfold SumOfAmounts at *
  simp only [diffused, outputBit, adjusted, threshold, fullScale,
    Int.fdiv_eq_ediv_of_nonneg _ (by decide : (0 : Int) ≤ 8)]
  by_cases hv : 2040 ≤ 16 * (g.toNat : Int) + e
  · simp only [hv, decide_true, if_true]
    omega
  · simp only [hv, decide_false, Bool.false_eq_true, if_false]
    omega

theorem getD_modify_add {α : Type} [Add α] (l : List α) (p k : Nat) (d z : α) (hp : p < l.length) :
    (l.modify p (· + d)).getD k z = if p = k then l.getD k z + d else l.getD k z := by
  rw [List.getD_eq_getElem?_getD, List.getD_eq_getElem?_getD, List.getElem?_modify]
  split
  next hpk =>
    subst hpk
    simp [hp]
  next => simp

/-- One neighbour takes at most one amount, at its own position. -/
theorem sumOfAmounts_diffuseTo {w h i k n : Nat} {d : Int} {errs : List Int} {nb : Int × Nat}
    (hlen : errs.length = w * h) (hmem : nb ∈ neighbours) (hd : SumOfAmounts 1 d)
    (he : SumOfAmounts n (errs.getD k 0)) :
    SumOfAmounts (n + if k = i + slideOffset w nb then 1 else 0)
      ((diffuseTo w h i d errs nb).getD k 0) := by
  unfold diffuseTo
  by_cases hin : insideImage w h (i % w) (i / w) nb.1 nb.2
  · rw [if_pos hin, getD_modify_add _ _ _ _ _ (hlen ▸ neighbour_position_lt hin hmem)]
    by_cases hk : i + slideOffset w nb = k
    · rw [if_pos hk, if_pos hk.symm]
      exact he.add hd
    · rw [if_neg hk]
      exact he.mono (Nat.le_add_right _ _)
  · rw [if_neg hin]
    exact he.mono (Nat.le_add_right _ _)

@[simp] theorem length_diffuseTo (w h i : Nat) (d : Int) (errs : List Int) (nb : Int × Nat) :
    (diffuseTo w h i d errs nb).length = errs.length := by
  unfold diffuseTo
  split <;> simp

theorem sumOfAmounts_foldl_diffuseTo {w h i k : Nat} {d : Int} (hd : SumOfAmounts 1 d)
    {nbs : List (Int × Nat)} (hmem : ∀ nb ∈ nbs, nb ∈ neighbours) {n : Nat} {errs : List Int}
    (hlen : errs.length = w * h) (he : SumOfAmounts n (errs.getD k 0)) :
    SumOfAmounts (n + nbs.countP fun nb => decide (k = i + slideOffset w nb))
      ((nbs.foldl (diffuseTo w h i d) errs).getD k 0) := by
  induction nbs generalizing n errs with
  | nil => exact he
  | cons nb nbs ih =>
    have hstep := sumOfAmounts_diffuseTo (i := i) hlen (hmem nb (by simp)) hd he
    have := ih (fun nb' h => hmem nb' (by simp [h])) (by rwa [length_diffuseTo]) hstep
    rw [List.foldl_cons, List.countP_cons]
    simpa [Nat.add_assoc, Nat.add_comm] using this

/-- Processing a pixel keeps the bounds. -/
theorem ErrorsBounded.diffuse {w h i : Nat} {errs : List Int} (hlen : errs.length = w * h)
    (hb : ErrorsBounded w i errs) (g : Byte) :
    ErrorsBounded w (i + 1)
      (diffuse w h (i % w) (i / w) (diffused (adjusted g (errs.getD i 0))) errs) := by
  intro k
  rw [diffuse_eq_foldl, reached_succ]
  exact sumOfAmounts_foldl_diffuseTo (sumOfAmounts_diffused (hb i) (reached_le w i i))
    (fun _ hmem => hmem) hlen (hb k)

/-! ### The sliding buffer holds the errors of the next `2W + 1` pixels -/

/-- Entry `k` of the buffer is the error `k` positions after the pixel at `i`, as a 16-bit number. -/
def Mirrors (w i : Nat) (errs : List Int) (buf : List (BitVec 16)) : Prop :=
  buf.length = 2 * w + 1 ∧ ∀ k ≤ 2 * w, buf.getD k 0 = BitVec.ofInt 16 (errs.getD (i + k) 0)

theorem Mirrors.diffuseTo {w h i : Nat} (hw : 0 < w) {d : Int} {errs : List Int}
    {buf : List (BitVec 16)} {nb : Int × Nat} (hmem : nb ∈ neighbours) (hlen : errs.length = w * h)
    (hm : Mirrors w i errs buf) :
    Mirrors w i (diffuseTo w h i d errs nb) (slideTo w h i d buf nb) := by
  obtain ⟨hbuf, hentry⟩ := hm
  unfold Machine.diffuseTo slideTo
  split
  next hin =>
    have hoff := slideOffset_le hw hmem
    refine ⟨by simpa using hbuf, fun k hk => ?_⟩
    rw [getD_modify_add _ _ _ _ _ (by omega), hentry k hk,
      getD_modify_add _ _ _ _ _ (hlen ▸ neighbour_position_lt hin hmem)]
    simp only [Nat.add_left_cancel_iff]
    split
    · rw [BitVec.ofInt_add]
    · rfl
  next => exact ⟨hbuf, hentry⟩

/-- Diffusing an amount in both forms. -/
theorem Mirrors.diffuse {w h i : Nat} (hw : 0 < w) {errs : List Int} {buf : List (BitVec 16)}
    (hlen : errs.length = w * h) (hm : Mirrors w i errs buf) (d : Int) :
    Mirrors w i (diffuse w h (i % w) (i / w) d errs) (slideDiffuse w h (i % w) (i / w) d buf) := by
  rw [diffuse_eq_foldl, slideDiffuse_eq_foldl]
  refine (List.foldl_rel (r := fun es b => es.length = w * h ∧ Mirrors w i es b) ⟨hlen, hm⟩ ?_).2
  rintro nb hmem es b ⟨hes, hb⟩
  exact ⟨by rwa [length_diffuseTo], hb.diffuseTo hw hmem hes⟩

/-- Popping the head and pushing a zero moves the buffer to the next pixel: nothing has reached the
position that enters. -/
theorem Mirrors.slide {w i : Nat} {errs : List Int} {buf : List (BitVec 16)}
    (hm : Mirrors w i errs buf) (hzero : errs.getD (i + 1 + 2 * w) 0 = 0) :
    Mirrors w (i + 1) errs (buf.tail ++ [0]) := by
  obtain ⟨hbuf, hentry⟩ := hm
  refine ⟨by simp [hbuf], fun k hk => ?_⟩
  obtain hlt | rfl := Nat.lt_or_eq_of_le hk
  · rw [List.getD_append _ _ _ _ (by simp; omega), Nat.add_assoc i 1 k, Nat.add_comm 1 k,
      ← hentry (k + 1) (by omega)]
    simp [List.getD_eq_getElem?_getD]
  · rw [hzero, List.getD_append_right _ _ _ _ (by simp [hbuf])]
    simp [hbuf]

/-- The head of the buffer is the error of the current pixel, exactly: it does not wrap (R268). -/
theorem Mirrors.headD_toInt {w i : Nat} {errs : List Int} {buf : List (BitVec 16)}
    (hm : Mirrors w i errs buf) (hb : ErrorsBounded w i errs) :
    (buf.headD 0).toInt = errs.getD i 0 := by
  obtain ⟨-, hentry⟩ := hm
  have hhead : buf.headD 0 = BitVec.ofInt 16 (errs.getD i 0) := by
    rw [← Nat.add_zero i, ← hentry 0 (Nat.zero_le _)]
    cases buf <;> rfl
  have hsix := (hb i).mono (reached_le w i i)
  unfold SumOfAmounts at hsix
  rw [hhead, BitVec.toInt_ofInt]
  exact Int.bmod_eq_of_le (by omega) (by omega)

/-- From every pair of a buffer and the errors it mirrors the two forms give the same bits. -/
theorem slideFrom_eq_ditherFrom {w h : Nat} (hw : 0 < w) (gs : List Byte) (i : Nat) (errs : List Int)
    (buf : List (BitVec 16)) (hlen : errs.length = w * h) (hb : ErrorsBounded w i errs)
    (hm : Mirrors w i errs buf) : (slideFrom w h gs i buf).1 = ditherFrom w h gs i errs := by
  induction gs generalizing i errs buf with
  | nil => rfl
  | cons g gs ih =>
    simp only [slideFrom, ditherFrom, hm.headD_toInt hb]
    have hb' := hb.diffuse hlen g
    have hm' := hm.diffuse hw hlen (diffused (adjusted g (errs.getD i 0)))
    have hzero := hb' (i + 1 + 2 * w)
    rw [reached_eq_zero hw le_rfl, SumOfAmounts.zero_iff] at hzero
    rw [ih (i + 1) _ _ (by rwa [length_diffuse]) hb' (hm'.slide hzero)]

theorem getD_replicate_zero {α : Type} (n k : Nat) (z : α) : (List.replicate n z).getD k z = z := by
  rw [List.getD_eq_getElem?_getD]
  exact List.getElem?_getD_replicate_default_eq z n k

/-- Before the first pixel all errors are 0. -/
theorem errorsBounded_zero (w n : Nat) : ErrorsBounded w 0 (List.replicate n 0) := by
  intro k
  rw [getD_replicate_zero]
  exact (SumOfAmounts.zero_iff.mpr rfl).mono (Nat.zero_le _)

theorem mirrors_zero (w n : Nat) : Mirrors w 0 (List.replicate n 0) (List.replicate (2 * w + 1) 0) := by
  refine ⟨by simp, fun k _ => ?_⟩
  rw [getD_replicate_zero, getD_replicate_zero]
  rfl

/-- Settles O55: the buffer mirrors the exact errors, which never leave the range of 16 bits. -/
theorem slidingBufferGivesTheSameBits : Obligations.SlidingBufferGivesTheSameBits := by
  intro w h g hg
  obtain rfl | hw := Nat.eq_zero_or_pos w
  · obtain rfl : g = [] := List.length_eq_zero_iff.mp (by simpa using hg)
    rfl
  · exact slideFrom_eq_ditherFrom hw g 0 _ _ (by simp) (errorsBounded_zero w _) (mirrors_zero w _)

end Sys2Proof.Machine
end

section
/-! PROOFS of the family 20_memory: host accesses. Which accesses get a bus error, and what a legal access of
the buffer RAM writes or returns, byte by byte (R80 to R84, R364 to R367). -/

namespace Sys2Proof.Machine

/-- Settles O7: in IDLE the host moves when it has an operation, while BUSY when the schedule names it too. -/
theorem stepMakesTheHostsAccess : Obligations.StepMakesTheHostsAccess := by
  intro s op rest hhost
  refine ⟨fun hidle => ?_, fun j later hbusy hsched => ?_⟩
  · simp only [step, nextMover, hidle, hhost]
  · simp only [step, nextMover, hbusy, hsched, hhost]

/-! ### Bus errors (R80 to R84, log 8) -/

/-- A host access faults exactly as the address map says. -/
theorem hostAccess_fault_iff (a : HostAccess) (s : State) (f : Fault) :
    hostAccess a s = .fault f ↔
      busTarget s.params (accessOffset a).toNat (widthBytes (accessWidth a)) = .error f := by
  rw [hostAccess]
  split
  next g hg => simp [hg]
  next t ht => simp [ht]

/-- Every access that has a target is carried out. -/
theorem hostAccess_next_iff (a : HostAccess) (s : State) :
    (∃ t, hostAccess a s = .next t) ↔
      ∃ t, busTarget s.params (accessOffset a).toNat (widthBytes (accessWidth a)) = .ok t := by
  rw [hostAccess]
  split
  next g hg => simp [hg]
  next t ht => simp [ht]

section
variable (p : Params) (off n : Nat)

theorem busTarget_registerAccess_iff :
    busTarget p off n = .error .registerAccess ↔ off < 0x100 ∧ ¬ (n = 4 ∧ off % 4 = 0) := by
  unfold busTarget
  split_ifs <;> simp <;> omega

theorem busTarget_unmapped_iff :
    busTarget p off n = .error .unmapped ↔
      0x100 ≤ off ∧ (off < 0x400000 ∨ 0x400000 + p.bufBytes < off + n) := by
  unfold busTarget
  split_ifs <;> simp <;> omega

theorem busTarget_misaligned_iff :
    busTarget p off n = .error .misaligned ↔
      0x400000 ≤ off ∧ off + n ≤ 0x400000 + p.bufBytes ∧ off % n ≠ 0 := by
  unfold busTarget
  split_ifs <;> simp <;> omega

theorem busTarget_ok_iff : (∃ t, busTarget p off n = .ok t) ↔ LegalAccess p off n := by
  unfold busTarget LegalAccess
  split_ifs <;> simp <;> omega

end

/-- Settles O21: the address map decides, and each of its errors has its own condition. -/
theorem busErrorsAreExactlyTheIllegalAccesses : Obligations.BusErrorsAreExactlyTheIllegalAccesses := by
  intro s a off n
  simp only [hostAccess_fault_iff, hostAccess_next_iff]
  exact ⟨busTarget_registerAccess_iff _ _ _, busTarget_unmapped_iff _ _ _,
    busTarget_misaligned_iff _ _ _, busTarget_ok_iff _ _ _⟩

/-! ### Bytes on the bus, little-endian (R83) -/

/-- Byte `k` of a bus value is bits `[8k+7:8k]`. -/
theorem getElem_dataBytes (d : BusData) (k : Nat) (h : k < (dataBytes d).length) :
    (dataBytes d)[k] = (dataWord d).extractLsb' (8 * k) 8 := by
  rw [length_dataBytes] at h
  cases d with
  | byte v =>
    obtain rfl : k = 0 := Nat.lt_one_iff.mp h
    simp [dataBytes, dataWord, BitVec.extractLsb'_setWidth_of_le, BitVec.extractLsb'_eq_self]
  | half v =>
    have hk : k < 2 := h
    interval_cases k <;> simp [dataBytes, dataWord, BitVec.extractLsb'_setWidth_of_le]
  | word v =>
    have hk : k < 4 := h
    interval_cases k <;> rfl

@[simp] theorem dataWidth_dataOfBytes (f : Nat → Byte) (w : BusWidth) :
    dataWidth (dataOfBytes f w) = w := by
  cases w <;> rfl

/-- Four equal lanes put together, lowest lane last, read back at the multiples of their width. -/
theorem extractLsb'_four_lanes {w : Nat} (b0 b1 b2 b3 : BitVec w) :
    (b3 ++ b2 ++ b1 ++ b0).extractLsb' 0 w = b0 ∧
    (b3 ++ b2 ++ b1 ++ b0).extractLsb' (1 * w) w = b1 ∧
    (b3 ++ b2 ++ b1 ++ b0).extractLsb' (2 * w) w = b2 ∧
    (b3 ++ b2 ++ b1 ++ b0).extractLsb' (3 * w) w = b3 := by
  have hskip {v k : Nat} (hi : BitVec v) (lo : BitVec w) :
      (hi ++ lo).extractLsb' ((k + 1) * w) w = hi.extractLsb' (k * w) w := by
    rw [BitVec.extractLsb'_append_eq_of_le (by rw [Nat.succ_mul]; omega), Nat.succ_mul,
      Nat.add_sub_cancel]
  refine ⟨BitVec.extractLsb'_append_eq_right, ?_, ?_, ?_⟩
  · rw [hskip, Nat.zero_mul, BitVec.extractLsb'_append_eq_right]
  · rw [hskip, hskip, Nat.zero_mul, BitVec.extractLsb'_append_eq_right]
  · rw [hskip, hskip, hskip, Nat.zero_mul, BitVec.extractLsb'_eq_self]

/-- A value put together from bytes consists of these bytes, in buffer order. -/
theorem dataBytes_dataOfBytes (f : Nat → Byte) (w : BusWidth) :
    dataBytes (dataOfBytes f w) = (List.range (widthBytes w)).map f := by
  cases w with
  | w8 => rfl
  | w16 =>
    have h0 : (f 1 ++ f 0 : Half).extractLsb' 0 8 = f 0 := BitVec.extractLsb'_append_eq_right
    have h1 : (f 1 ++ f 0 : Half).extractLsb' 8 8 = f 1 := BitVec.extractLsb'_append_eq_left
    simp only [dataOfBytes, dataBytes, h0, h1]
    rfl
  | w32 =>
    obtain ⟨h0, h1, h2, h3⟩ := extractLsb'_four_lanes (f 0) (f 1) (f 2) (f 3)
    simp only [dataOfBytes, dataBytes, h0, h1, h2, h3]
    rfl

theorem extractLsb'_dataOfBytes (f : Nat → Byte) (w : BusWidth) {k : Nat} (h : k < widthBytes w) :
    (dataWord (dataOfBytes f w)).extractLsb' (8 * k) 8 = f k := by
  rw [← getElem_dataBytes _ _ (by rwa [length_dataBytes, dataWidth_dataOfBytes])]
  simp only [dataBytes_dataOfBytes, List.getElem_map, List.getElem_range]

/-! ### A buffer write (R83, R366) -/

/-- A buffer write stores the bytes of its value, and no others (R83). -/
theorem stored_writeBuffer {s : State} (hm : s.mem.wf = true) (a : Nat) (d : BusData) :
    Stored s (writeBuffer s a d) a (dataBytes d) :=
  ⟨fun k h => Memory.read_writeBytes_inside hm a _ k h,
    fun b hb => Memory.read_writeBytes_outside hm a _ b hb⟩

/-- A buffer write never starts or ends a job. -/
@[simp] theorem Phase.isBusy_afterBufferWrite (ph : Phase) (a n : Nat) :
    (ph.afterBufferWrite a n).isBusy = ph.isBusy := by
  cases ph <;> rfl

@[simp] theorem readReg_writeBuffer (s : State) (a : Nat) (d : BusData) (r : Reg) :
    readReg (writeBuffer s a d) r = readReg s r := by
  cases r with
  | status => simp only [readReg, writeBuffer_status, writeBuffer_phase, Phase.isBusy_afterBufferWrite]
  | _ => rfl

/-- A buffer write marks the running job exactly when it touches one of its regions (R366). -/
theorem afterBufferWrite_hazard_iff {s : State} {j : Job} (hj : s.phase = .busy j) (a n : Nat) :
    ∃ hz, s.phase.afterBufferWrite a n = .busy { j with hazard := hz } ∧
      (hz = true ↔ j.hazard = true ∨ touchesJob s a n) := by
  rw [hj]
  refine ⟨_, rfl, ?_⟩
  simp [touchesJob, hj]

/-- Settles O22: the access is `writeBuffer` at the offset inside the buffer RAM. -/
theorem bufferWriteIsLittleEndian : Obligations.BufferWriteIsLittleEndian := by
  intro s off d hinv hbuf hlegal
  obtain ⟨hbytes, hframe⟩ := stored_writeBuffer hinv.mem_wf (off.toNat - 0x400000) d
  refine ⟨_, hostAccess_write_buffer s off d hbuf hlegal, fun k hk => ?_, ?_,
    readReg_writeBuffer s _ d, fun hidle => ?_, fun j hj => ?_⟩
  · rw [← length_dataBytes] at hk
    rw [hbytes k hk, getElem_dataBytes]
  · rwa [length_dataBytes] at hframe
  · rw [writeBuffer_phase, hidle]
    rfl
  · rw [writeBuffer_phase, length_dataBytes]
    exact afterBufferWrite_hazard_iff hj _ _

/-! ### A buffer read (R83, R367) -/

/-- Outside the running job's DST region a host reads the byte that is there (R367). -/
theorem hostReadByte_of_not_touchesOutput {s : State} {a k : Nat} (h : ¬ touchesOutput s (a + k) 1) :
    hostReadByte s a k = s.mem.read (a + k) := by
  refine if_neg fun hbyte => h ?_
  cases hp : s.phase with
  | idle => simp [beingWritten, hp] at hbyte
  | busy j => exact ⟨j, hp, 0, Nat.one_pos, by simpa [beingWritten, hp] using hbyte⟩

/-- Settles O23: the access is `readBuffer`, which replaces the response and the counter of free values. -/
theorem bufferReadIsLittleEndianAndPure : Obligations.BufferReadIsLittleEndianAndPure := by
  intro s off w hbuf hlegal
  refine ⟨_, _, hostAccess_read_buffer s off w hbuf hlegal, rfl, dataWidth_dataOfBytes _ w,
    fun k hk hout => ?_, fun hout => ?_⟩
  · rw [extractLsb'_dataOfBytes _ w hk, hostReadByte_of_not_touchesOutput hout]
  · rw [readBuffer_draws, readDraws_eq_zero hout, Nat.add_zero]

end Sys2Proof.Machine
end

section
/-! PROOFS of the family 20_memory: what the commands read and write. No command touches its input or depends
on anything but its job and its input (R88, R96, R125), and PACK fills the lanes of R90. -/

namespace Sys2Proof.Machine

/-! ### The input bytes stay (R88, R96) -/

/-- Settles O42: a command that writes has passed the overlap check, so its bytes lie outside its input. -/
theorem commandsNeverWriteTheirInput : Obligations.CommandsNeverWriteTheirInput := by
  rintro i s t j ⟨hj, hinv⟩ ht a hlow hhigh
  cases (exec_busy i hj).symm.trans ht
  refine (stored_complete j _ hinv.mem_wf).2 a ?_
  rcases ruleOf_fits i s j with hnil | ⟨-, hapart, hfits⟩
  · rw [hnil, List.length_nil]
    omega
  · unfold Overlap at hapart
    omega

/-! ### The input of a job -/

/-- Two machines hold the same bytes in the SRC region of a job. -/
def SameInput (s s' : State) (j : Job) : Prop :=
  ∀ k < j.slen.toNat, srcByte s.mem j k = srcByte s'.mem j k

theorem sameInput_of_inputOf_eq {s s' : State} {j : Job} (h : inputOf s j = inputOf s' j) :
    SameInput s s' j := by
  intro k hk
  have hbyte := List.getElem_of_eq h (i := k) (by rwa [inputOf, Memory.length_readBytes])
  simpa only [srcByte, inputOf, Memory.getElem_readBytes] using hbyte

section
variable {s s' : State} {j : Job} {n : Nat}

/-- A command that asks for no more than its input reads the same bytes. -/
theorem SameInput.srcBytes_eq (h : SameInput s s' j) (hn : n ≤ j.slen.toNat) :
    srcBytes s.mem j n = srcBytes s'.mem j n :=
  List.map_congr_left fun k hk => h k (by rw [List.mem_range] at hk; omega)

theorem SameInput.classes_eq (h : SameInput s s' j) (hn : 4 * n ≤ j.slen.toNat) :
    classes s.mem j n = classes s'.mem j n := by
  refine List.map_congr_left fun k hk => ?_
  rw [List.mem_range] at hk
  rw [srcPixel, srcPixel, h (4 * k) (by omega), h (4 * k + 1) (by omega), h (4 * k + 2) (by omega)]

end

/-! ### What a program sees of a command (R125, R163, R270) -/

/-- A command's effects without the scratch state, which no program observes (R55, R56, log 3). -/
def Effects.visible (e : Effects) : Effects := { e with ditherBuf := [], rleRun := .started }

theorem Effects.visible_raise (e : Effects) (code : ErrCode) (pos : Nat) :
    (e.raise code pos).visible = e.visible.raise code pos := rfl

theorem Effects.visible_raise? (e : Effects) (err : Option (ErrCode × Nat)) :
    (e.raise? err).visible = e.visible.raise? err := by
  cases err <;> rfl

theorem Effects.visible_eq_iff {e e' : Effects} :
    e.visible = e'.visible ↔
      e.out = e'.out ∧ e.results = e'.results ∧ e.xs = e'.xs ∧ e.idxhi = e'.idxhi ∧
        e.errcode = e'.errcode := by
  simp [Effects.visible]

/-- A command starts from its result registers alone. -/
theorem Effects.visible_start {s s' : State} (h : s.results = s'.results) :
    (Effects.start s).visible = (Effects.start s').visible := by
  simp only [Effects.visible, Effects.start, h]

/-- What a program sees of an encoder depends on what it sees of the effects the encoder is given. -/
theorem encodeInto_visible_congr {e e' : Effects} (h : e.visible = e'.visible) (j : Job) (used : Nat)
    (x : List Byte) : (encodeInto e j used x).visible = (encodeInto e' j used x).visible := by
  obtain ⟨-, hresults, hxs, hidxhi, hcode⟩ := Effects.visible_eq_iff.mp h
  simp only [encodeInto]
  split <;> simp only [Effects.raise, Effects.visible, hresults, hxs, hidxhi, hcode]

/-- The body of a command reads no more of its input than the prologue has asked for (R325). -/
theorem ruleOf_visible_eq_of_passes {i : Instr} {s s' : State} {j : Job} {c : Checks}
    (hres : s.results = s'.results) (hparams : s.params = s'.params) (hin : SameInput s s' j)
    (hc : commandChecks i j = some c) (hp : prologue s.params j c = none) :
    (ruleOf i s j).visible = (ruleOf i s' j).visible := by
  have hp' : prologue s'.params j c = none := hparams ▸ hp
  obtain ⟨-, -, -, hneed, -⟩ := (prologue_none_iff _ _ _).mp hp
  have hread : ∀ n, c.need = some n → n ≤ j.slen.toNat := fun n hn =>
    not_lt.mp fun hlt => hneed ⟨n, hn, hlt⟩
  have hall := hin.srcBytes_eq le_rfl
  cases i <;> cases hc
  case rleEnc =>
    simp only [ruleOf, rleEncRule, hp, hp', hall]
    exact encodeInto_visible_congr (Effects.visible_start hres) _ _ _
  case rleDec =>
    simp only [ruleOf, rleDecRule, hp, hp', hall, Effects.visible_raise?]
    simp only [Effects.visible, Effects.start, hres]
  case pack | unpack | qdec | dither | ditherIdx =>
    simp only [ruleOf, packRule, unpackRule, qdecRule, ditherRule, hp, hp',
      hin.srcBytes_eq (hread _ rfl), Effects.visible, Effects.start, hres]
  case qenc =>
    simp only [ruleOf, qencRule, hp, hp', hin.classes_eq (hread _ rfl), classified, Effects.visible,
      Effects.start, hres]
  case encPlane =>
    simp only [ruleOf, encPlaneRule, hp, hp', hin.classes_eq (hread _ rfl)]
    refine encodeInto_visible_congr ?_ _ _ _
    simp only [classified, Effects.visible, Effects.start, hres]
  case decPlane =>
    simp only [ruleOf, decPlaneRule, hp, hp', hall]
    split <;> simp only [Effects.raise, Effects.visible, Effects.start, hres]
  case encGray =>
    simp only [ruleOf, encGrayRule, hp, hp', hin.srcBytes_eq (hread _ rfl)]
    refine encodeInto_visible_congr ?_ _ _ _
    simp only [Effects.visible, Effects.start, hres]

/-- What a program sees of a command is a function of the result registers it starts from, the parameters,
the job and its input. -/
theorem ruleOf_visible_eq (i : Instr) {s s' : State} {j : Job} (hres : s.results = s'.results)
    (hparams : s.params = s'.params) (hin : SameInput s s' j) :
    (ruleOf i s j).visible = (ruleOf i s' j).visible := by
  cases hc : commandChecks i j with
  | none =>
    obtain rfl : i = .nop := by cases i <;> simp [commandChecks] at hc ⊢
    exact Effects.visible_start hres
  | some c =>
    cases hp : prologue s.params j c with
    | none => exact ruleOf_visible_eq_of_passes hres hparams hin hc hp
    | some err =>
      rw [ruleOf_of_prologue hc hp, ruleOf_of_prologue hc (hparams ▸ hp), Effects.visible_raise,
        Effects.visible_raise, Effects.visible_start hres]

/-- Settles O45: the next state shows of the effects only what a program sees. -/
theorem outcomeDependsOnlyOnJobAndInput : Obligations.OutcomeDependsOnlyOnJobAndInput := by
  rintro i s s' t t' j ⟨hj, hinv⟩ ⟨hj', hinv'⟩ hparams hinput ht ht'
  cases (exec_busy i hj).symm.trans ht
  cases (exec_busy i hj').symm.trans ht'
  have hres := hinv.busy_results j hj
  have hres' := hinv'.busy_results j hj'
  have hvis := ruleOf_visible_eq i (hres.trans hres'.symm) hparams (sameInput_of_inputOf_eq hinput)
  obtain ⟨hout, hresults, hxs, hidxhi, hcode⟩ := Effects.visible_eq_iff.mp hvis
  refine ⟨hresults, ?_, ?_⟩
  · simp only [complete_status, Status.atCompletion, hresults, hxs, hidxhi, hcode]
  · rw [outputOf_complete hinv.mem_wf (ruleOf_outLen i j hres).1,
      outputOf_complete hinv'.mem_wf (ruleOf_outLen i j hres').1, hout]

/-! ### The lanes of a packed byte (R90) -/

/-- Lane `k` of a packed byte. -/
theorem extractLsb'_packByte (f : Nat → Index) {k : Nat} (hk : k < 4) :
    (packByte (f 0) (f 1) (f 2) (f 3)).extractLsb' (2 * k) 2 = f k := by
  obtain ⟨h0, h1, h2, h3⟩ := extractLsb'_four_lanes (f 0) (f 1) (f 2) (f 3)
  interval_cases k
  · exact h0
  · exact h1
  · exact h2
  · exact h3

/-- One group of four, padded with index 0, and the rest (R200). -/
theorem pack_of_ne_nil {ix : List Index} (h : ix ≠ []) :
    pack ix = packByte (ix.getD 0 0) (ix.getD 1 0) (ix.getD 2 0) (ix.getD 3 0) :: pack (ix.drop 4) := by
  match ix, h with
  | [_], _ => rfl
  | [_, _], _ => rfl
  | [_, _, _], _ => rfl
  | _ :: _ :: _ :: _ :: _, _ => rfl

/-- Index `i` stands in lane `i mod 4` of packed byte `i / 4`; past the indices the lanes hold 0. -/
theorem lane_pack (ix : List Index) (i : Nat) :
    ((pack ix).getD (i / 4) 0).extractLsb' (2 * (i % 4)) 2 = ix.getD i 0 := by
  induction i using Nat.strong_induction_on generalizing ix with
  | h i ih =>
    by_cases hnil : ix = []
    · subst hnil
      simp [pack]
    · rw [pack_of_ne_nil hnil]
      by_cases hi : i < 4
      · rw [Nat.div_eq_of_lt hi, Nat.mod_eq_of_lt hi]
        exact extractLsb'_packByte (ix.getD · 0) hi
      · obtain ⟨k, rfl⟩ := Nat.exists_eq_add_of_le' (not_lt.mp hi)
        rw [Nat.add_div_right k (by decide), Nat.add_mod_right, List.getD_cons_succ,
          ih k (by omega)]
        simp [List.getD_eq_getElem?_getD, Nat.add_comm]

/-! ### PACK (R202) -/

/-- The byte a machine has stored at place `k`. -/
theorem Stored.read_eq_getD {s t : State} {a : Nat} {out : List Byte} (h : Stored s t a out) {k : Nat}
    (hk : k < out.length) : t.mem.read (a + k) = out.getD k 0 := by
  rw [h.1 k hk, List.getD_eq_getElem _ _ hk]

/-- The result registers of a command that has only set OUT_LEN and IN_USED, as numbers: both counts fit a
register, as they are bounded by CAP and SLEN. -/
theorem resultsAre_complete {s : State} {j : Job} {e : Effects} {a b : Nat}
    (h : e.results =
      { Results.accepted with outLen := BitVec.ofNat 32 a, inUsed := BitVec.ofNat 32 b })
    (ha : a ≤ j.cap.toNat) (hb : b ≤ j.slen.toNat) :
    ResultsAre (complete s j e) a b 0 0xFFFFFFFF 0 := by
  rw [ResultsAre, complete_results, h]
  exact ⟨toNat_ofNat_of_le ha, toNat_ofNat_of_le hb, rfl, rfl, rfl⟩

/-- Index `i` of the first `n` input bytes, and index 0 past them (R130). -/
theorem getD_map_byteIndex_srcBytes (m : Memory) (j : Job) (n i : Nat) :
    ((srcBytes m j n).map byteIndex).getD i 0 =
      if i < n then (m.read (j.src.toNat + i)).extractLsb' 0 2 else 0 := by
  rw [List.getD_eq_getElem?_getD]
  split <;> simp [srcBytes, Memory.readBytes, byteIndex, *]

theorem any_highIndex_srcBytes (m : Memory) (j : Job) (n : Nat) :
    (srcBytes m j n).any highIndex = true ↔
      ∃ i < n, (m.read (j.src.toNat + i)).extractLsb' 2 6 ≠ 0 := by
  simp [srcBytes, Memory.readBytes, highIndex]

/-- What PACK has stored, lane by lane (R90, R202). -/
theorem lane_complete_pack {s : State} {j : Job} (hm : s.mem.wf = true)
    (hout : (ruleOf .pack s j).out = pack ((srcBytes s.mem j j.n.toNat).map byteIndex)) {i : Nat}
    (hi : i < 4 * packedLen j.n.toNat) :
    ((complete s j (ruleOf .pack s j)).mem.read (j.dst.toNat + i / 4)).extractLsb' (2 * (i % 4)) 2 =
      if i < j.n.toNat then (s.mem.read (j.src.toNat + i)).extractLsb' 0 2 else 0 := by
  have hlen : i / 4 < (ruleOf .pack s j).out.length := by
    simp only [hout, length_pack, List.length_map, length_srcBytes]
    omega
  rw [(stored_complete j _ hm).read_eq_getD hlen, hout, lane_pack, getD_map_byteIndex_srcBytes]

/-- Settles O33: `pack` puts index `i` in lane `i`, and the prologue bounds both counts. -/
theorem packFillsTheLanes : Obligations.PackFillsTheLanes := by
  refine completesWith_of fun s j c ⟨hj, hinv⟩ hc hp => ?_
  cases hc
  have hres := hinv.busy_results j hj
  obtain ⟨-, -, -, hneed, hsize⟩ := (prologue_none_iff _ _ _).mp hp
  have hsrc : j.n.toNat ≤ j.slen.toNat := not_lt.mp fun h => hneed ⟨_, rfl, h⟩
  have hcap : packedLen j.n.toNat ≤ j.cap.toNat := not_lt.mp fun h => hsize ⟨_, rfl, h⟩
  have hout : (ruleOf .pack s j).out = pack ((srcBytes s.mem j j.n.toNat).map byteIndex) := by
    simp only [ruleOf, packRule, hp]
  refine ⟨fun i hi => ?_, fun i hn hi => ?_, ?_, ?_, ?_⟩
  · rw [lane_complete_pack hinv.mem_wf hout (by unfold packedLen; omega), if_pos hi]
  · rw [lane_complete_pack hinv.mem_wf hout hi, if_neg (by omega)]
  · have hframe := (stored_complete j (ruleOf .pack s j) hinv.mem_wf).2
    rwa [hout, length_pack, List.length_map, length_srcBytes] at hframe
  · refine resultsAre_complete ?_ hcap hsrc
    simp only [ruleOf, packRule, hp, Effects.start_results, hres]
  · have hfinished := finished_complete s j (ruleOf .pack s j)
    simp only [ruleOf, packRule, hp] at hfinished ⊢
    exact hfinished.congr (by simp [hres, Results.accepted]) decide_eq_true_iff
      (any_highIndex_srcBytes _ _ _)

end Sys2Proof.Machine
end

section
/-! PROOFS of the family 30_encoding: the command word. A word is its three fields (R120), and the decoder
is said once in terms of them; the host programs of R135 are unfolded operation by operation. -/

namespace Sys2Proof.Machine

/-! ### The fields of a word (R120) -/

theorem word_eq_append_fields (w : Word) : w = cmdRsvd w ++ BitVec.ofBool (cmdOf w) ++ cmdOpc w := by
  refine BitVec.eq_of_getLsbD_eq fun i hi => ?_
  simp only [cmdRsvd, cmdOf, cmdOpc, BitVec.getLsbD_append, BitVec.getLsbD_extractLsb']
  obtain hopc | rfl | hrsvd := lt_trichotomy i 8
  · simp [hopc]
  · simp
  · rw [if_neg (by omega), if_neg (by omega), show 9 + (i - 8 - 1) = i by omega,
      decide_eq_true (by omega), Bool.true_and]

/-- Words with the same fields are equal. -/
theorem word_ext {w v : Word} (hrsvd : cmdRsvd w = cmdRsvd v) (hof : cmdOf w = cmdOf v)
    (hopc : cmdOpc w = cmdOpc v) : w = v := by
  rw [word_eq_append_fields w, word_eq_append_fields v, hrsvd, hof, hopc]

theorem toNat_cmdOpc (w : Word) : (cmdOpc w).toNat = w.toNat % 256 := by
  simp [cmdOpc]

theorem cmdOf_iff (w : Word) : cmdOf w = true ↔ w.toNat / 256 % 2 = 1 := by
  simp [cmdOf, BitVec.getLsbD, Nat.testBit_eq_decide_div_mod_eq]

theorem cmdRsvd_eq_zero_iff (w : Word) : cmdRsvd w = 0 ↔ w.toNat < 512 := by
  have hw := w.isLt
  rw [← BitVec.toNat_inj, cmdRsvd, BitVec.extractLsb'_toNat, Nat.shiftRight_eq_div_pow]
  change _ = 0 ↔ _
  omega

/-- A legal word in terms of its fields (R122 to R124). -/
theorem legalWord_iff (w : Word) :
    legalWord w = true ↔
      cmdRsvd w = 0 ∧ (cmdOpc w).toNat ≤ 0x0A ∧ (cmdOf w = true → (cmdOpc w).toNat = 0x07) := by
  simp only [legalWord, Bool.and_eq_true, Bool.or_eq_true, decide_eq_true_eq, cmdRsvd_eq_zero_iff,
    toNat_cmdOpc, cmdOf_iff]
  omega

/-! ### The opcode map and the decoder (R121, R123) -/

/-- The opcode map gives a command for the fields of its word only. -/
theorem fields_of_commandOf {opc : Nat} {ofBit : Bool} {i : Instr} (h : commandOf opc ofBit = some i) :
    opc = (cmdOpc (encode i)).toNat ∧ ofBit = cmdOf (encode i) := by
  unfold commandOf at h
  split at h <;> cases h <;> exact ⟨rfl, rfl⟩

/-- Of the opcodes in the table, only DITHER takes OF (R122). -/
theorem commandOf_eq_none_iff {opc : Nat} (h : opc ≤ 0x0A) (ofBit : Bool) :
    commandOf opc ofBit = none ↔ ofBit = true ∧ opc ≠ 0x07 := by
  interval_cases opc <;> cases ofBit <;> decide

theorem decode_eq_ok_iff (w : Word) (i : Instr) :
    decode w = .ok i ↔
      cmdRsvd w = 0 ∧ (cmdOpc w).toNat ≤ 0x0A ∧ commandOf (cmdOpc w).toNat (cmdOf w) = some i := by
  unfold decode
  split_ifs with hrsvd hopc
  · exact iff_of_false nofun fun ⟨hzero, _⟩ => hrsvd hzero
  · exact iff_of_false nofun fun ⟨_, hle, _⟩ => not_lt.mpr hle hopc
  · rw [and_iff_right (not_not.mp hrsvd), and_iff_right (not_lt.mp hopc)]
    cases commandOf (cmdOpc w).toNat (cmdOf w) <;> simp

theorem cmdRsvd_encode (i : Instr) : cmdRsvd (encode i) = 0 := by cases i <;> rfl

/-- A command has exactly one word. -/
theorem eq_encode_of_decode {w : Word} {i : Instr} (h : decode w = .ok i) : w = encode i := by
  obtain ⟨hrsvd, -, hcommand⟩ := (decode_eq_ok_iff w i).mp h
  obtain ⟨hopc, hof⟩ := fields_of_commandOf hcommand
  exact word_ext (hrsvd.trans (cmdRsvd_encode i).symm) hof (BitVec.eq_of_toNat_eq hopc)

/-- Settles O2: a word is its fields, and the opcode map fixes the fields of a command's word. -/
theorem decodeAndEncodeAgree : Obligations.DecodeAndEncodeAgree :=
  ⟨fun i _ => decode_encode i, fun _ _ => eq_encode_of_decode⟩

/-- Every legal word decodes, and no other word does. -/
theorem exists_decode_ok_iff (w : Word) : (∃ i, decode w = .ok i) ↔ legalWord w = true := by
  simp only [decode_eq_ok_iff, exists_and_left, legalWord_iff]
  refine and_congr_right fun _ => and_congr_right fun hopc => ?_
  rw [← Option.ne_none_iff_exists', ne_eq, commandOf_eq_none_iff hopc]
  exact not_and_not_right

theorem exists_decode_error_iff (w : Word) : (∃ e, decode w = .error e) ↔ ¬ ∃ i, decode w = .ok i := by
  cases decode w <;> simp

/-- Settles O3: the reserved words are those that are not legal. -/
theorem illegalWordsAreExactlyTheReservedOnes : Obligations.IllegalWordsAreExactlyTheReservedOnes := by
  intro w
  refine ⟨?_, exists_decode_ok_iff w⟩
  rw [exists_decode_error_iff, exists_decode_ok_iff, legalWord_iff]
  change _ ↔ cmdRsvd w ≠ 0 ∨ 0x0A < (cmdOpc w).toNat ∨ (cmdOf w = true ∧ cmdOpc w ≠ 0x07)
  rw [not_and_or, not_and_or, not_le, Classical.not_imp,
    ← BitVec.toNat_ne_iff_ne (x := cmdOpc w)]
  rfl

/-- Settles O1: each word of the table is the encoding of its command. -/
theorem tableWordsDecodeToTheirCommands : Obligations.TableWordsDecodeToTheirCommands :=
  ⟨decode_encode .nop, decode_encode .rleEnc, decode_encode .rleDec, decode_encode .pack,
    decode_encode .unpack, decode_encode .qenc, decode_encode .qdec, decode_encode .dither,
    decode_encode .ditherIdx, decode_encode .encPlane, decode_encode .decPlane, decode_encode .encGray⟩

/-! ### Host programs (R135, R136) -/

/-- A write of a named register, with the bus write it makes in front of the rest. -/
theorem programBus_wr_cons (r : Reg) (v : Word) (prog : List HostOp) :
    programBus (.wr (.named r) v :: prog) =
      .access (.write ((regOffset r).setWidth 23) (.word v)) :: programBus prog :=
  rfl

/-- GEOM from its halves: HEIGHT shifted above WIDTH (R41). -/
theorem geom_eq_shift_or (w h : Half) : h ++ w = (h.setWidth 32 <<< 16) ||| w.setWidth 32 := by
  rw [BitVec.append_def, BitVec.shiftLeftZeroExtend_eq, BitVec.setWidth'_eq]

/-- Settles O4: each operation of an expansion puts its transactions in front of the rest. -/
theorem pseudoOperationsMakeTheirTransactions : Obligations.PseudoOperationsMakeTheirTransactions := by
  refine ⟨fun m src slen dst cap => ?_, fun m src slen dst cap n => programBus_wr_cons .pixcnt n _,
    fun m src slen dst cap w h => ?_, programBus_wr_cons .status _ [], programBus_wr_cons .ctrl _ [],
    programBus_wr_cons .ctrl _ []⟩
  · simp only [expandPseudo, runOps, programBus_wr_cons]
    rfl
  · rw [← geom_eq_shift_or]
    exact programBus_wr_cons .geom _ _

end Sys2Proof.Machine
end

section
/-! PROOFS of the family 30_encoding: the output bytes of DITHER (R133, R269). -/

namespace Sys2Proof.Machine

theorem Memory.take_readBytes (m : Memory) (a : Nat) {k n : Nat} (h : k ≤ n) :
    (m.readBytes a n).take k = m.readBytes a k := by
  rw [Memory.readBytes, ← List.map_take, List.take_range, Nat.min_eq_left h, Memory.readBytes]

/-- The first `n` bytes of the input. -/
theorem take_inputOf (s : State) {j : Job} {n : Nat} (h : n ≤ j.slen.toNat) :
    (inputOf s j).take n = srcBytes s.mem j n :=
  Memory.take_readBytes _ _ h

/-- What both forms of DITHER leave when the prologue passes: they differ in the output byte only. -/
theorem ditherRule_succeeds (ofBit : Bool) {s : State} {j : Job} (hr : Ready s j)
    (hp : prologue s.params j { usesWidth := true, need := some j.area, outsize := some j.area } = none) :
    Stored s (complete s j (ditherRule ofBit s j)) j.dst.toNat
      ((dither j.w.toNat j.h.toNat ((inputOf s j).take j.area)).map (ditherByte ofBit)) ∧
    ResultsAre (complete s j (ditherRule ofBit s j)) j.area j.area 0 0xFFFFFFFF 0 ∧
    Finished s (complete s j (ditherRule ofBit s j)) .none False (j.area < j.slen.toNat) False := by
  obtain ⟨hj, hinv⟩ := hr
  have hres := hinv.busy_results j hj
  obtain ⟨-, -, -, hneed, hsize⟩ := (prologue_none_iff _ _ _).mp hp
  have hsrc : j.area ≤ j.slen.toNat := not_lt.mp fun h => hneed ⟨_, rfl, h⟩
  have hcap : j.area ≤ j.cap.toNat := not_lt.mp fun h => hsize ⟨_, rfl, h⟩
  refine ⟨?_, ?_, ?_⟩
  · have hstored := stored_complete j (ditherRule ofBit s j) hinv.mem_wf
    simp only [ditherRule, hp] at hstored ⊢
    rwa [take_inputOf s hsrc]
  · refine resultsAre_complete ?_ hcap hsrc
    simp only [ditherRule, hp, Effects.start_results, hres]
  · have hfinished := finished_complete s j (ditherRule ofBit s j)
    simp only [ditherRule, hp] at hfinished ⊢
    exact hfinished.congr (by simp [hres, Results.accepted]) decide_eq_true_iff (by simp)

/-- Settles O37: one argument for both values of OF. -/
theorem ditherWritesOneBytePerPixel : Obligations.DitherWritesOneBytePerPixel := by
  refine ⟨completesWith_of fun s j c hr hc hp => ?_, completesWith_of fun s j c hr hc hp => ?_⟩
  · cases hc
    exact ditherRule_succeeds false hr hp
  · cases hc
    exact ditherRule_succeeds true hr hp

end Sys2Proof.Machine
end

section
/-! PROOFS of the family 40_rle: the encoder. A list of maximal runs is what `runs` finds in it, so `RleEncode`
emits it run by run (R160 to R163); the size bounds (R171) follow from the length of one emission. -/

namespace Sys2Proof.Machine

/-! ### Run by run (R160 to R162) -/

/-- Maximal runs are found again in the bytes they make (R160). -/
theorem runs_flatMap_replicate (rs : List (Byte × Nat)) (hpos : ∀ r ∈ rs, 1 ≤ r.2)
    (hmax : rs.IsChain fun a b => a.1 ≠ b.1) :
    runs (rs.flatMap fun r => List.replicate r.2 r.1) = rs := by
  induction rs with
  | nil => rfl
  | cons r rs ih =>
    obtain ⟨n, hn⟩ := Nat.exists_eq_add_of_le' (hpos r (by simp))
    cases rs with
    | nil => rw [List.flatMap_singleton, hn, runs_replicate, ← hn]
    | cons r' rs =>
      obtain ⟨hne, hmax⟩ := List.isChain_cons_cons.mp hmax
      obtain ⟨m, hm⟩ := Nat.exists_eq_add_of_le' (hpos r' (by simp))
      have hrest := ih (fun a ha => hpos a (by simp [ha])) hmax
      rw [List.flatMap_cons, hm, List.replicate_succ, List.cons_append] at hrest
      rw [List.flatMap_cons, List.flatMap_cons, hn, hm, List.replicate_succ (n := m),
        List.cons_append, runs_replicate_append hne, hrest, ← hn]

/-- Settles O46: `runs` gives the runs back, and the emission of each is the one written out. -/
theorem rleEncodeEmitsEachMaximalRun : Obligations.RleEncodeEmitsEachMaximalRun := by
  intro tail rs hpos hmax
  rw [rleEncode, runs_flatMap_replicate rs hpos hmax]
  rfl

/-! ### Sizes (R171) -/

@[simp] theorem length_escapeSeq (n : Nat) (v : Byte) : (escapeSeq n v).length = 3 := rfl

theorem length_escapedRun (tail : TailMode) (v : Byte) (n : Nat) :
    (escapedRun tail v n).length =
      3 * ((n - 1) / 255) + (tailChunk tail v (n - 255 * ((n - 1) / 255))).length := by
  simp [escapedRun, Nat.mul_comm]

theorem length_tailChunk_le (tail : TailMode) (v : Byte) (r : Nat) :
    (tailChunk tail v r).length ≤ 3 := by
  rw [tailChunk]
  split
  next h => simpa using h.2.2
  next => exact (length_escapeSeq r v).le

/-- Only a single 0xFF is emitted three times as long as it is. -/
theorem length_emitRun_lt (tail : TailMode) {r : Byte × Nat} (hpos : 1 ≤ r.2)
    (hne : r ≠ (escapeByte, 1)) : (emitRun tail r).length < 3 * r.2 := by
  rw [emitRun]
  split
  next => rw [List.length_replicate]; omega
  next hescaped =>
    have hlong : 2 ≤ r.2 := by
      by_contra hshort
      have hone : r.2 = 1 := by omega
      exact hescaped ⟨fun hv => hne (Prod.ext hv hone), by omega⟩
    have hlast := length_tailChunk_le tail r.1 (r.2 - 255 * ((r.2 - 1) / 255))
    rw [length_escapedRun]
    omega

theorem length_emitRun_le (tail : TailMode) {r : Byte × Nat} (hpos : 1 ≤ r.2) :
    (emitRun tail r).length ≤ 3 * r.2 := by
  by_cases hr : r = (escapeByte, 1)
  · rw [hr]
    cases tail <;> exact Nat.le_refl 3
  · exact (length_emitRun_lt tail hpos hr).le

theorem length_rleEncode (tail : TailMode) (x : List Byte) :
    (rleEncode tail x).length = ((runs x).map fun r => (emitRun tail r).length).sum :=
  List.length_flatMap

/-- The lengths of the runs add up to the length of the list (R160). -/
theorem three_mul_length_eq_sum_runs (x : List Byte) :
    3 * x.length = ((runs x).map fun r => 3 * r.2).sum := by
  conv_lhs => rw [← runs_join x]
  simp [List.length_flatMap, List.sum_map_mul_left]

theorem length_rleEncode_le (tail : TailMode) (x : List Byte) :
    (rleEncode tail x).length ≤ 3 * x.length := by
  rw [length_rleEncode, three_mul_length_eq_sum_runs]
  exact List.sum_le_sum fun r hr => length_emitRun_le tail (runs_pos x r hr)

/-- An encoding three times as long as its input has no run but single bytes 0xFF. -/
theorem runs_eq_of_length_rleEncode_eq {tail : TailMode} {x : List Byte}
    (h : (rleEncode tail x).length = 3 * x.length) : ∀ r ∈ runs x, r = (escapeByte, 1) := by
  intro r hr
  by_contra hne
  rw [length_rleEncode, three_mul_length_eq_sum_runs] at h
  exact h.not_lt (List.sum_lt_sum _ _ (fun a ha => length_emitRun_le tail (runs_pos x a ha))
    ⟨r, hr, length_emitRun_lt tail (runs_pos x r hr) hne⟩)

/-- Two neighbouring runs of 0xFF would be one run, so at most one single 0xFF is left. -/
theorem length_rleEncode_eq_iff (tail : TailMode) (x : List Byte) :
    (rleEncode tail x).length = 3 * x.length ↔ x = [] ∨ x = [escapeByte] := by
  constructor
  · intro h
    have hall := runs_eq_of_length_rleEncode_eq h
    have hmax := runs_maximal x
    have hjoin := runs_join x
    rcases hruns : runs x with _ | ⟨a, _ | ⟨b, rs⟩⟩ <;> rw [hruns] at hall hmax hjoin
    · exact Or.inl hjoin.symm
    · rw [hall a (by simp)] at hjoin
      exact Or.inr hjoin.symm
    · have hab : a = b := (hall a (by simp)).trans (hall b (by simp)).symm
      exact absurd (congrArg Prod.fst hab) (List.isChain_cons_cons.mp hmax).1
  · rintro (rfl | rfl)
    · rfl
    · cases tail <;> rfl

theorem tailChunk_escape (v : Byte) (r : Nat) : tailChunk .escape v r = escapeSeq r v :=
  if_neg nofun

/-- Under ESCAPE every chunk of an escaped run is an escape sequence, the last one too (R162). -/
theorem length_rleEncode_replicate (v : Byte) {n : Nat} (hn : 4 ≤ n) :
    (rleEncode .escape (List.replicate n v)).length = 3 * ((n + 254) / 255) := by
  obtain ⟨m, rfl⟩ := Nat.exists_eq_add_of_le' (show 1 ≤ n by omega)
  have hescaped : ¬ (v ≠ escapeByte ∧ m + 1 ≤ 3) := fun h => by omega
  rw [rleEncode, runs_replicate, List.flatMap_singleton, emitRun, if_neg hescaped,
    length_escapedRun, tailChunk_escape, length_escapeSeq]
  omega

@[simp] theorem streamOf_nil : streamOf [] = [] := rfl

@[simp] theorem decodedOf_nil : decodedOf [] = [] := rfl

@[simp] theorem streamOf_cons (t : Token) (ts : List Token) :
    streamOf (t :: ts) = t.stream ++ streamOf ts := List.flatMap_cons

@[simp] theorem decodedOf_cons (t : Token) (ts : List Token) :
    decodedOf (t :: ts) = t.bytes ++ decodedOf ts := List.flatMap_cons

/-- An escape sequence makes at most 255 bytes of its 3, a literal 1 of its 1; what is left of a stream
makes none. -/
theorem length_decodedOf_le (ts : List Token) (k : Nat) :
    (decodedOf ts).length ≤
      255 * (((streamOf ts).length + k) / 3) + ((streamOf ts).length + k) % 3 := by
  induction ts with
  | nil => exact Nat.zero_le _
  | cons t ts ih =>
    rw [decodedOf_cons, streamOf_cons, List.length_append, List.length_append]
    cases t with
    | lit b =>
      simp only [Token.bytes, Token.stream, List.length_singleton]
      omega
    | esc c v =>
      have hcount := c.isLt
      simp only [Token.bytes, Token.stream, List.length_replicate, List.length_cons, List.length_nil]
      omega

/-- Settles O48: three bounds, each from the length of one emission or of one token. -/
theorem rleSizeBounds : Obligations.RleSizeBounds := by
  refine ⟨fun tail x => ⟨length_rleEncode_le tail x, length_rleEncode_eq_iff tail x⟩,
    fun v n hn => length_rleEncode_replicate v hn, fun ts rest => ?_⟩
  rw [List.length_append]
  exact length_decodedOf_le ts rest.length

/-! ### RLE_ENC (R164) -/

section
variable {e : Effects} (j : Job) (used : Nat) (x : List Byte)

/-- The encoders change two result registers, and keep an ERR_POS of 0 on DST_OVERFLOW (R164). -/
theorem encodeInto_results (hpos : e.results.errPos = 0) :
    (encodeInto e j used x).results =
      { e.results with
        outLen := BitVec.ofNat 32 (min (rleEncode j.tail x).length j.cap.toNat)
        inUsed := BitVec.ofNat 32 used } := by
  simp only [encodeInto]
  split
  · rw [Effects.raise, if_neg nofun, ← hpos]
  · rfl

theorem encodeInto_errcode :
    (encodeInto e j used x).errcode =
      if j.cap.toNat < (rleEncode j.tail x).length then .dstOverflow else e.errcode := by
  simp only [encodeInto]
  split <;> rfl

end

/-- Settles O31: the RLE encoders' common body, on the SLEN input bytes. -/
theorem rleEncStoresTheEncodedStream : Obligations.RleEncStoresTheEncodedStream := by
  refine completesWith_of fun s j c ⟨hj, hinv⟩ hc hp => ?_
  cases hc
  have hres := hinv.busy_results j hj
  have hpos : (Effects.start s).results.errPos = 0 := by
    rw [Effects.start_results, hres]
    rfl
  have hrule : ruleOf .rleEnc s j = encodeInto (.start s) j j.slen.toNat (inputOf s j) := by
    simp only [ruleOf, rleEncRule, hp]
    rfl
  have hfinished := finished_complete s j (ruleOf .rleEnc s j)
  rw [hrule, encodeInto_errcode] at hfinished
  replace hfinished := hfinished.congr (p' := False) (q' := False) (r' := False)
    (by simp [hres, Results.accepted]) (by simp) (by simp)
  rw [hrule]
  refine ⟨?_, ?_, fun hfits => ?_, fun hover => ?_⟩
  · rw [← (encodeInto_out (.start s) j j.slen.toNat _).1]
    exact stored_complete j _ hinv.mem_wf
  · refine resultsAre_complete ?_ (Nat.min_le_right _ _) le_rfl
    rw [encodeInto_results _ _ _ hpos, Effects.start_results, hres]
  · rwa [if_neg hfits.not_gt] at hfinished
  · rwa [if_pos hover] at hfinished

end Sys2Proof.Machine
end

section
/-! PROOFS of the family 40_rle: the decoder. The loop of RLE_DEC goes over the tokens that fit (R166) and stops
at the end of the stream or at the first that does not (R168, R169); every encoding is a stream of tokens that
decodes to its input (R170). -/

namespace Sys2Proof.Machine

/-! ### The loop over tokens that fit (R166) -/

theorem rleDecode_append {cap : Nat} (trunc : Bool) (ts later : List Token) (p k : Nat)
    (hfits : k + (decodedOf ts).length ≤ cap) :
    rleDecode cap trunc (ts ++ later) p k =
      { rleDecode cap trunc later (p + (streamOf ts).length) (k + (decodedOf ts).length) with
        out := decodedOf ts ++
          (rleDecode cap trunc later (p + (streamOf ts).length) (k + (decodedOf ts).length)).out } := by
  induction ts generalizing p k with
  | nil => rfl
  | cons t ts ih =>
    rw [decodedOf_cons, List.length_append] at hfits
    rw [List.cons_append, rleDecode_cons_fits _ _ _ _ _ _ (by omega), ih _ _ (by omega)]
    simp [Nat.add_assoc]

/-- The code and ERR_POS that `raise?` leaves of a command without an error so far (R330). -/
def raised : Option (ErrCode × Nat) → ErrCode × Nat
  | none => (.none, 0)
  | some (code, info) => (code, if code = .truncated then info else 0)

section
variable {e : Effects} (err : Option (ErrCode × Nat))

@[simp] theorem Effects.raise?_out : (e.raise? err).out = e.out := by cases err <;> rfl

@[simp] theorem Effects.raise?_xs : (e.raise? err).xs = e.xs := by cases err <;> rfl

@[simp] theorem Effects.raise?_idxhi : (e.raise? err).idxhi = e.idxhi := by cases err <;> rfl

theorem Effects.raise?_errcode (hcode : e.errcode = .none) :
    (e.raise? err).errcode = (raised err).1 := by
  cases err with
  | none => exact hcode
  | some err => rfl

theorem Effects.raise?_results (hpos : e.results.errPos = 0) :
    (e.raise? err).results = { e.results with errPos := BitVec.ofNat 32 (raised err).2 } := by
  cases err with
  | none =>
    show e.results = { e.results with errPos := 0 }
    rw [← hpos]
  | some err =>
    simp only [Effects.raise?, Effects.raise, raised]
    split <;> rfl

end

/-- What RLE_DEC has done when its loop has done `d`, before it raises the loop's error (R166). -/
def Decoded.effects (d : Decoded) (s : State) : Effects :=
  { Effects.start s with
    out := d.out
    results := { s.results with
      outLen := BitVec.ofNat 32 d.out.length, inUsed := BitVec.ofNat 32 d.used } }

theorem rleDecRule_of_prologue {s : State} {j : Job}
    (hp : prologue s.params j { usesWidth := false, need := none, outsize := none } = none)
    {d : Decoded}
    (hd : rleDecode j.cap.toNat (tokens (inputOf s j)).2 (tokens (inputOf s j)).1 0 0 = d) :
    ruleOf .rleDec s j = (d.effects s).raise? d.error := by
  subst hd
  simp only [ruleOf, rleDecRule, hp]
  rfl

/-- What RLE_DEC leaves when the prologue passes and its loop has done `d` (R166). -/
theorem rleDec_leaves {s : State} {j : Job} (hr : Ready s j)
    (hp : prologue s.params j { usesWidth := false, need := none, outsize := none } = none)
    {d : Decoded} (hd : rleDecode j.cap.toNat (tokens (inputOf s j)).2 (tokens (inputOf s j)).1 0 0 = d)
    (hused : d.used ≤ j.slen.toNat) (hpos : (raised d.error).2 ≤ j.slen.toNat) :
    Stored s (complete s j (ruleOf .rleDec s j)) j.dst.toNat d.out ∧
    ResultsAre (complete s j (ruleOf .rleDec s j)) d.out.length d.used 0 0xFFFFFFFF
      (raised d.error).2 ∧
    Finished s (complete s j (ruleOf .rleDec s j)) (raised d.error).1 False False False := by
  obtain ⟨hj, hinv⟩ := hr
  have hfits := rleDecode_fits j.cap.toNat (tokens (inputOf s j)).2 (tokens (inputOf s j)).1 0 0
    (Nat.zero_le _)
  rw [hd, Nat.zero_add] at hfits
  have hres : (d.effects s).results = { Results.accepted with
      outLen := BitVec.ofNat 32 d.out.length, inUsed := BitVec.ofNat 32 d.used } := by
    rw [Decoded.effects, hinv.busy_results j hj]
  have hzero : (d.effects s).results.errPos = 0 := by
    rw [hres]
    rfl
  have hresults := Effects.raise?_results d.error hzero
  rw [hres] at hresults
  rw [rleDecRule_of_prologue hp hd]
  refine ⟨?_, ?_, ?_⟩
  · have hstored := stored_complete j ((d.effects s).raise? d.error) hinv.mem_wf
    rwa [Effects.raise?_out] at hstored
  · rw [ResultsAre, complete_results, hresults]
    exact ⟨toNat_ofNat_of_le hfits, toNat_ofNat_of_le hused, rfl, rfl, toNat_ofNat_of_le hpos⟩
  · have hfinished := finished_complete s j ((d.effects s).raise? d.error)
    rw [Effects.raise?_errcode _ rfl, hresults] at hfinished
    exact hfinished.congr (by simp [Results.accepted]) (by simp [Decoded.effects])
      (by simp [Decoded.effects])

/-- What the whole loop has done when tokens that fit stand before the rest (R166). -/
theorem rleDecode_inputOf {s : State} {j : Job} {ts : List Token} {rest : List Byte}
    (hlegal : ∀ k ∈ ts, k.legal = true) (hin : inputOf s j = streamOf ts ++ rest)
    (hfits : (decodedOf ts).length ≤ j.cap.toNat) :
    rleDecode j.cap.toNat (tokens (inputOf s j)).2 (tokens (inputOf s j)).1 0 0 =
      { rleDecode j.cap.toNat (tokens rest).2 (tokens rest).1 (streamOf ts).length
          (decodedOf ts).length with
        out := decodedOf ts ++ (rleDecode j.cap.toNat (tokens rest).2 (tokens rest).1
          (streamOf ts).length (decodedOf ts).length).out } := by
  rw [hin, tokens_append ts hlegal, rleDecode_append _ _ _ _ _ (by omega), Nat.zero_add, Nat.zero_add]

/-- Settles O32: after the tokens that fit the loop is at the end, inside an escape sequence, or before a
token that does not fit. -/
theorem rleDecExpandsTheTokens : Obligations.RleDecExpandsTheTokens := by
  refine completesWith_of fun s j c hr hc hp ts rest hlegal hin hfits => ?_
  cases hc
  have hloop := rleDecode_inputOf hlegal hin hfits
  have hlen : (streamOf ts).length + rest.length = j.slen.toNat := by
    rw [← List.length_append, ← hin, inputOf, Memory.length_readBytes]
  have hused : (streamOf ts).length ≤ j.slen.toNat := Nat.le.intro hlen
  refine ⟨fun hrest => ?_, fun hpartial => ?_, fun tk more htk hrest hover => ?_⟩
  · subst hrest
    rw [List.length_nil, Nat.add_zero] at hlen
    simp only [tokens, rleDecode, Bool.false_eq_true, if_false, List.append_nil] at hloop
    rw [← hlen]
    exact rleDec_leaves hr hp hloop hused (Nat.zero_le _)
  · simp only [tokens_partial hpartial, rleDecode, if_true, List.append_nil] at hloop
    exact rleDec_leaves hr hp hloop hused hused
  · rw [hrest, tokens_cons tk htk, rleDecode, if_neg (by omega)] at hloop
    have hout : (decodedOf ts ++ tk.bytes).take j.cap.toNat =
        decodedOf ts ++ tk.bytes.take (j.cap.toNat - (decodedOf ts).length) := by
      rw [List.take_append, List.take_of_length_le hfits]
    have hfull : ((decodedOf ts ++ tk.bytes).take j.cap.toNat).length = j.cap.toNat := by
      rw [List.length_take, List.length_append]
      omega
    rw [← hout] at hloop
    have hleaves := rleDec_leaves hr hp hloop hused (Nat.zero_le _)
    rwa [hfull] at hleaves

/-! ### Decoding an encoding (R170) -/

/-- A stream is a list of complete tokens, and they decode to `out`. -/
def DecodesTo (stream out : List Byte) : Prop :=
  ∃ ts, (∀ t ∈ ts, t.legal = true) ∧ streamOf ts = stream ∧ decodedOf ts = out

theorem DecodesTo.append {a a' b b' : List Byte} (h : DecodesTo a b) (h' : DecodesTo a' b') :
    DecodesTo (a ++ a') (b ++ b') := by
  obtain ⟨ts, hlegal, rfl, rfl⟩ := h
  obtain ⟨ts', hlegal', rfl, rfl⟩ := h'
  exact ⟨ts ++ ts', fun t ht => (List.mem_append.mp ht).elim (hlegal t) (hlegal' t),
    List.flatMap_append, List.flatMap_append⟩

theorem DecodesTo.flatMap {α : Type} {l : List α} {f g : α → List Byte}
    (h : ∀ a ∈ l, DecodesTo (f a) (g a)) : DecodesTo (l.flatMap f) (l.flatMap g) := by
  induction l with
  | nil => exact ⟨[], nofun, rfl, rfl⟩
  | cons a l ih =>
    rw [List.flatMap_cons, List.flatMap_cons]
    exact (h a (by simp)).append (ih fun b hb => h b (by simp [hb]))

/-- Literal tokens are the bytes they stand for (R127). -/
theorem decodesTo_replicate {v : Byte} (hv : v ≠ escapeByte) (n : Nat) :
    DecodesTo (List.replicate n v) (List.replicate n v) := by
  refine ⟨List.replicate n (.lit v), fun t ht => ?_, ?_, ?_⟩
  · rw [List.eq_of_mem_replicate ht]
    exact decide_eq_true hv
  · simp [streamOf, Token.stream, List.flatMap_replicate]
  · simp [decodedOf, Token.bytes, List.flatMap_replicate]

/-- An escape sequence is one token (R127). -/
theorem decodesTo_escapeSeq (v : Byte) {n : Nat} (hn : n ≤ 255) :
    DecodesTo (escapeSeq n v) (List.replicate n v) := by
  refine ⟨[.esc (BitVec.ofNat 8 n) v], by simp [Token.legal], rfl, ?_⟩
  rw [decodedOf_cons, decodedOf_nil, List.append_nil, Token.bytes, BitVec.toNat_ofNat,
    Nat.mod_eq_of_lt (by omega)]

theorem decodesTo_tailChunk (tail : TailMode) (v : Byte) {r : Nat} (hr : r ≤ 255) :
    DecodesTo (tailChunk tail v r) (List.replicate r v) := by
  rw [tailChunk]
  split
  next h => exact decodesTo_replicate h.2.1 r
  next => exact decodesTo_escapeSeq v hr

/-- The chunks of an escaped run add up to the run (R162). -/
theorem decodesTo_escapedRun (tail : TailMode) (v : Byte) (n : Nat) :
    DecodesTo (escapedRun tail v n) (List.replicate n v) := by
  have hchunks : DecodesTo (List.replicate ((n - 1) / 255) (escapeSeq 255 v)).flatten
      (List.replicate (255 * ((n - 1) / 255)) v) := by
    have h := DecodesTo.flatMap (l := List.replicate ((n - 1) / 255) v) fun a _ =>
      decodesTo_escapeSeq a le_rfl
    rwa [List.flatMap_replicate, List.flatMap_replicate, List.flatten_replicate_replicate,
      Nat.mul_comm] at h
  have hlast : DecodesTo (tailChunk tail v (n - 255 * ((n - 1) / 255)))
      (List.replicate (n - 255 * ((n - 1) / 255)) v) := decodesTo_tailChunk tail v (by omega)
  have hall := hchunks.append hlast
  rwa [List.replicate_append_replicate, Nat.add_sub_cancel' (by omega)] at hall

theorem decodesTo_emitRun (tail : TailMode) (r : Byte × Nat) :
    DecodesTo (emitRun tail r) (List.replicate r.2 r.1) := by
  rw [emitRun]
  split
  next h => exact decodesTo_replicate h.1 r.2
  next => exact decodesTo_escapedRun tail r.1 r.2

/-- Both modes decode to the same bytes, the input (R162, R170). -/
theorem decodesTo_rleEncode (tail : TailMode) (x : List Byte) : DecodesTo (rleEncode tail x) x := by
  have h := DecodesTo.flatMap (l := runs x) fun r _ => decodesTo_emitRun tail r
  rwa [runs_join] at h

/-- Settles O47: the encoding is tokens with no rest, so RLE_DEC ends cleanly (O32). -/
theorem rleRoundTrip : Obligations.RleRoundTrip := by
  intro tail x s j hr hram hdisjoint hin hcap
  obtain ⟨t, ht, -, hsuccess⟩ := rleDecExpandsTheTokens s j _ hr rfl
  obtain ⟨ts, hlegal, hstream, rfl⟩ := decodesTo_rleEncode tail x
  have hpasses : Passes s.params j { usesWidth := false, need := none, outsize := none } :=
    ⟨by simp [FailsWidth], hram, hdisjoint, by simp [FailsNeed], by simp [FailsSize]⟩
  have hin' : inputOf s j = streamOf ts ++ [] := by rw [List.append_nil, hstream, hin]
  exact ⟨t, ht, (hsuccess hpasses ts [] hlegal hin' hcap).1 rfl⟩

end Sys2Proof.Machine
end

section
/-! PROOFS of the family 41_bitpack: the unpacker reads the lanes (R201, R203), a byte list is its lanes, and so
the two functions undo each other but for the padding lanes (R204, R205). -/

namespace Sys2Proof.Machine

/-! ### The lanes that `Unpack` reads (R201) -/

/-- The lanes of a byte list in pixel order: lane `i` stands in byte `i / 4`. -/
theorem getD_flatMap_unpackByte (bs : List Byte) (i : Nat) :
    (bs.flatMap unpackByte).getD i 0 = (bs.getD (i / 4) 0).extractLsb' (2 * (i % 4)) 2 := by
  induction bs generalizing i with
  | nil => simp
  | cons b bs ih =>
    rw [List.flatMap_cons]
    by_cases hi : i < 4
    · rw [List.getD_append _ _ _ _ hi, Nat.div_eq_of_lt hi, Nat.mod_eq_of_lt hi, List.getD_cons_zero]
      interval_cases i <;> rfl
    · obtain ⟨k, rfl⟩ := Nat.exists_eq_add_of_le' (not_lt.mp hi)
      rw [List.getD_append_right _ _ _ _ (not_lt.mp hi), length_unpackByte, Nat.add_sub_cancel, ih,
        Nat.add_div_right k (by decide), Nat.add_mod_right, List.getD_cons_succ]

/-- `Unpack` gives the lanes of the pixels below `n`, each 0 where the byte list has ended. -/
theorem getD_unpack (bs : List Byte) (n i : Nat) :
    (unpack bs n).getD i 0 =
      if i < n then (bs.getD (i / 4) 0).extractLsb' (2 * (i % 4)) 2 else 0 := by
  rw [unpack, List.getD_eq_getElem?_getD, List.getElem?_take]
  split
  next hi =>
    have hbyte : i / 4 < packedLen n := by unfold packedLen; omega
    rw [← List.getD_eq_getElem?_getD, getD_flatMap_unpackByte, List.getD_eq_getElem?_getD,
      List.getElem?_take_of_lt hbyte, ← List.getD_eq_getElem?_getD]
  next => rfl

/-! ### UNPACK (R203) -/

/-- Byte `i` that UNPACK makes of its first ceil(N/4) input bytes. -/
theorem getD_map_indexByte_unpack (m : Memory) (j : Job) {n i : Nat} (hi : i < n) :
    ((unpack (srcBytes m j (packedLen n)) n).map indexByte).getD i 0 =
      ((m.read (j.src.toNat + i / 4)).extractLsb' (2 * (i % 4)) 2).setWidth 8 := by
  have hbyte : i / 4 < (srcBytes m j (packedLen n)).length := by
    rw [length_srcBytes, packedLen]
    omega
  refine (List.getD_map _ 0 indexByte).trans ?_
  rw [getD_unpack, if_pos hi, List.getD_eq_getElem _ _ hbyte]
  simp only [srcBytes, Memory.getElem_readBytes, indexByte]

/-- Settles O34: `unpack` reads the lanes, and the prologue bounds both counts. -/
theorem unpackReadsTheLanes : Obligations.UnpackReadsTheLanes := by
  refine completesWith_of fun s j c ⟨hj, hinv⟩ hc hp => ?_
  cases hc
  have hres := hinv.busy_results j hj
  obtain ⟨-, -, -, hneed, hsize⟩ := (prologue_none_iff _ _ _).mp hp
  have hsrc : packedLen j.n.toNat ≤ j.slen.toNat := not_lt.mp fun h => hneed ⟨_, rfl, h⟩
  have hcap : j.n.toNat ≤ j.cap.toNat := not_lt.mp fun h => hsize ⟨_, rfl, h⟩
  have hout : (ruleOf .unpack s j).out =
      (unpack (srcBytes s.mem j (packedLen j.n.toNat)) j.n.toNat).map indexByte := by
    simp only [ruleOf, unpackRule, hp]
  have hlen : (ruleOf .unpack s j).out.length = j.n.toNat := by
    rw [hout, List.length_map, length_unpack _ _ (length_srcBytes _ _ _).ge]
  have hstored := stored_complete j (ruleOf .unpack s j) hinv.mem_wf
  refine ⟨fun i hi => ?_, ?_, ?_, ?_⟩
  · rw [hstored.read_eq_getD (hlen ▸ hi), hout, getD_map_indexByte_unpack _ _ hi]
  · exact hlen ▸ hstored.2
  · refine resultsAre_complete ?_ hcap hsrc
    simp only [ruleOf, unpackRule, hp, Effects.start_results, hres]
  · have hfinished := finished_complete s j (ruleOf .unpack s j)
    simp only [ruleOf, unpackRule, hp] at hfinished ⊢
    exact hfinished.congr (by simp [hres, Results.accepted]) decide_eq_true_iff (by simp)

/-! ### Unpacking what was packed (R204) -/

theorem unpack_pack (ix : List Index) : unpack (pack ix) ix.length = ix := by
  have hlen : (unpack (pack ix) ix.length).length = ix.length :=
    length_unpack _ _ (length_pack ix).ge
  refine List.ext_getElem hlen fun i hi hi' => ?_
  rw [← List.getD_eq_getElem _ 0 hi, ← List.getD_eq_getElem _ 0 hi', getD_unpack, if_pos hi',
    lane_pack]

/-- An index byte that holds bits [1:0] of a byte is the byte masked (R130). -/
theorem indexByte_byteIndex (b : Byte) : indexByte (byteIndex b) = b &&& 0x03 := by
  apply BitVec.eq_of_toNat_eq
  rw [BitVec.toNat_and, show (0x03 : Byte).toNat = 2 ^ 2 - 1 from rfl,
    Nat.and_two_pow_sub_one_eq_mod, indexByte, byteIndex, BitVec.toNat_setWidth,
    BitVec.extractLsb'_toNat, Nat.shiftRight_zero]
  omega

section
variable {i : Instr} {s t : State} {j : Job} {c : Checks} (h : Succeeds i s j t)
include h

/-- A command that ends without an error has passed its prologue (R329). -/
theorem Succeeds.prologue_eq_none (hc : commandChecks i j = some c) :
    prologue s.params j c = none := by
  obtain ⟨⟨hj, -⟩, ht, hcode⟩ := h
  cases (exec_busy i hj).symm.trans ht
  cases hp : prologue s.params j c with
  | none => rfl
  | some err =>
    obtain ⟨code, pos⟩ := err
    rw [complete_status, ruleOf_of_prologue hc hp] at hcode
    obtain rfl : code = .none := hcode
    exact ((prologue_some_iff _ _ _ _ _).mp hp).elim

/-- What a command has written is its rule's output (R42). -/
theorem Succeeds.outputOf_eq : outputOf t j = (ruleOf i s j).out := by
  obtain ⟨⟨hj, hinv⟩, ht, -⟩ := h
  cases (exec_busy i hj).symm.trans ht
  exact outputOf_complete hinv.mem_wf (ruleOf_outLen i j (hinv.busy_results j hj)).1

/-- The bytes a command needs are the first of its input (R325). -/
theorem Succeeds.srcBytes_eq (hc : commandChecks i j = some c) {n : Nat} (hn : c.need = some n) :
    srcBytes s.mem j n = (inputOf s j).take n := by
  obtain ⟨-, -, -, hneed, -⟩ := (prologue_none_iff _ _ _).mp (h.prologue_eq_none hc)
  exact (take_inputOf s (not_lt.mp fun hlt => hneed ⟨n, hn, hlt⟩)).symm

end

section
variable {s t : State} {j : Job}

/-- PACK writes `Pack` of its first N input bytes (R202). -/
theorem Succeeds.outputOf_pack (h : Succeeds .pack s j t) :
    outputOf t j = pack (((inputOf s j).take j.n.toNat).map byteIndex) := by
  rw [h.outputOf_eq, ← h.srcBytes_eq rfl rfl]
  simp only [ruleOf, packRule, h.prologue_eq_none rfl]

/-- UNPACK writes `Unpack` of its first ceil(N/4) input bytes (R203). -/
theorem Succeeds.outputOf_unpack (h : Succeeds .unpack s j t) :
    outputOf t j =
      (unpack ((inputOf s j).take (packedLen j.n.toNat)) j.n.toNat).map indexByte := by
  rw [h.outputOf_eq, ← h.srcBytes_eq rfl rfl]
  simp only [ruleOf, unpackRule, h.prologue_eq_none rfl]

end

/-- Settles O50: every index is read back from the lane it was put in, and both commands are the functions. -/
theorem unpackUndoesPack : Obligations.UnpackUndoesPack := by
  refine ⟨unpack_pack, fun s t s' t' j j' hpack hunpack hn hin => ?_⟩
  have hlen : (((inputOf s j).take j.n.toNat).map byteIndex).length = j.n.toNat := by
    rw [← hpack.srcBytes_eq rfl rfl, List.length_map, length_srcBytes]
  have hback := unpack_pack (((inputOf s j).take j.n.toNat).map byteIndex)
  rw [hlen] at hback
  rw [hunpack.outputOf_unpack, hn, hin, hpack.outputOf_pack, hback, List.map_map]
  exact List.map_congr_left fun b _ => indexByte_byteIndex b

/-! ### Packing what was unpacked (R205) -/

/-- A byte is its four lanes (R90). -/
theorem byte_ext_of_lanes {b b' : Byte}
    (h : ∀ k < 4, b.extractLsb' (2 * k) 2 = b'.extractLsb' (2 * k) 2) : b = b' := by
  apply BitVec.eq_of_getLsbD_eq
  intro i hi
  have hlane := congrArg (·.getLsbD (i % 2)) (h (i / 2) (by omega))
  have hbit : i % 2 ≤ 1 := by omega
  simpa [hbit, Nat.div_add_mod] using hlane

/-- A byte list is its lanes. -/
theorem bytes_ext_of_lanes {bs bs' : List Byte} (hlen : bs.length = bs'.length)
    (h : ∀ i < 4 * bs.length, (bs.getD (i / 4) 0).extractLsb' (2 * (i % 4)) 2 =
      (bs'.getD (i / 4) 0).extractLsb' (2 * (i % 4)) 2) : bs = bs' := by
  refine List.ext_getElem hlen fun m hm hm' => byte_ext_of_lanes fun k hk => ?_
  have hlane := h (4 * m + k) (by omega)
  rwa [show (4 * m + k) / 4 = m by omega, show (4 * m + k) % 4 = k by omega,
    List.getD_eq_getElem _ _ hm, List.getD_eq_getElem _ _ hm'] at hlane

/-- `Pack(Unpack(bs, n))` keeps the lanes of the pixels below `n` and has 0 in the others. -/
theorem lane_pack_unpack (bs : List Byte) (n i : Nat) :
    ((pack (unpack bs n)).getD (i / 4) 0).extractLsb' (2 * (i % 4)) 2 =
      if i < n then (bs.getD (i / 4) 0).extractLsb' (2 * (i % 4)) 2 else 0 := by
  rw [lane_pack, getD_unpack]

/-- Settles O51: both sides are compared lane by lane; with `n mod 4 = 0` there is no padding lane. -/
theorem packUndoesUnpackButForPadding : Obligations.PackUndoesUnpackButForPadding := by
  intro n bs hbs
  have hlen : (pack (unpack bs n)).length = bs.length := by
    rw [length_pack, length_unpack bs n hbs.ge, hbs]
  refine ⟨hlen, fun i _ => lane_pack_unpack bs n i, fun heq => Or.inr fun i hn _ => ?_, fun hpad => ?_⟩
  · have hlane := lane_pack_unpack bs n i
    rwa [heq, if_neg (not_lt.mpr hn)] at hlane
  · refine bytes_ext_of_lanes hlen fun i hi => ?_
    rw [hlen] at hi
    rw [lane_pack_unpack]
    split
    next => rfl
    next hn =>
      have hn4 : n % 4 ≠ 0 := by unfold packedLen at hbs; omega
      exact (hpad.resolve_left hn4 i (not_lt.mp hn) hi).symm

end Sys2Proof.Machine
end

section
/-! PROOFS of the family 42_quantizer: QENC classifies each pixel (R230, R232), QDEC expands each index byte
(R231, R233), and with palettes that agree on RGB the two undo each other but for alpha (R234). -/

namespace Sys2Proof.Machine

section
variable {p : Params} {j : Job} {c : Checks} {n : Nat} (hp : prologue p j c = none)
include hp

/-- A command that has passed its prologue has all the input it needs (R325). -/
theorem need_le_of_prologue_eq_none (hn : c.need = some n) : n ≤ j.slen.toNat := by
  obtain ⟨-, -, -, hneed, -⟩ := (prologue_none_iff _ _ _).mp hp
  exact not_lt.mp fun hlt => hneed ⟨n, hn, hlt⟩

/-- A command that has passed its prologue has room for its output (R327). -/
theorem outsize_le_of_prologue_eq_none (hn : c.outsize = some n) : n ≤ j.cap.toNat := by
  obtain ⟨-, -, -, -, hsize⟩ := (prologue_none_iff _ _ _).mp hp
  exact not_lt.mp fun hlt => hsize ⟨n, hn, hlt⟩

end

/-! ### Classification (R230, R232) -/

theorem srcPixel_eq_rgbAt (m : Memory) (j : Job) (i : Nat) :
    srcPixel m j i = rgbAt m j.src.toNat i := rfl

theorem indexByte_classify (pe : EncPalette) (c : Rgb) :
    indexByte (classify pe c).index =
      if c = pe.c0 then 0x00 else if c = pe.c1 then 0x01 else if c = pe.c2 then 0x02 else 0x00 := by
  unfold classify
  split_ifs <;> rfl

theorem not_matched_classify_iff (pe : EncPalette) (c : Rgb) :
    (!(classify pe c).matched) = true ↔ OffPalette pe c := by
  unfold classify
  split_ifs <;> simp_all [OffPalette]

theorem getElem_classes (m : Memory) (j : Job) (n : Nat) {i : Nat} (hi : i < (classes m j n).length) :
    (classes m j n)[i] = classify j.pe (rgbAt m j.src.toNat i) := by
  simp [classes, srcPixel_eq_rgbAt]

section
variable (m : Memory) (j : Job) (n : Nat)

/-- CLS_COUNT counts the pixels off the palette (R44). -/
theorem mismatchCount_classes :
    mismatchCount (classes m j n) =
      ((List.range n).filter fun i => OffPalette j.pe (rgbAt m j.src.toNat i)).length := by
  rw [mismatchCount, classes, List.countP_map, List.countP_eq_length_filter]
  congr 2
  funext i
  rw [Bool.eq_iff_iff, decide_eq_true_iff]
  exact not_matched_classify_iff _ _

theorem mismatchCount_classes_pos_iff :
    0 < mismatchCount (classes m j n) ↔ ∃ i < n, OffPalette j.pe (rgbAt m j.src.toNat i) := by
  rw [mismatchCount_classes, List.length_pos_iff_exists_mem]
  simp only [List.mem_filter, List.mem_range, decide_eq_true_iff]

theorem mismatchCount_classes_le : mismatchCount (classes m j n) ≤ n :=
  List.countP_le_length.trans_eq (length_classes m j n)

/-- CLS_FIRST when every pixel is on the palette (R45). -/
theorem firstMismatch_classes_of_none
    (hon : ∀ i < n, ¬ OffPalette j.pe (rgbAt m j.src.toNat i)) :
    firstMismatch (classes m j n) = 0xFFFFFFFF := by
  have hnone : (classes m j n).findIdx? (fun c => !c.matched) = none := by
    refine List.findIdx?_eq_none_iff.mpr fun c hc => ?_
    obtain ⟨i, hi, rfl⟩ := List.getElem_of_mem hc
    rw [getElem_classes, ← Bool.not_eq_true, not_matched_classify_iff]
    exact hon i (length_classes m j n ▸ hi)
  rw [firstMismatch, hnone, Option.getD_none]

/-- CLS_FIRST when pixel `i` is the first one off the palette (R45). -/
theorem firstMismatch_classes_of_first {i : Nat} (hi : i < n)
    (hoff : OffPalette j.pe (rgbAt m j.src.toNat i))
    (hon : ∀ k < i, ¬ OffPalette j.pe (rgbAt m j.src.toNat k)) :
    firstMismatch (classes m j n) = i := by
  have hfirst : (classes m j n).findIdx? (fun c => !c.matched) = some i := by
    refine List.findIdx?_eq_some_iff_getElem.mpr ⟨(length_classes m j n).symm ▸ hi, ?_, fun k hk => ?_⟩
    · rwa [getElem_classes, not_matched_classify_iff]
    · rw [getElem_classes, not_matched_classify_iff]
      exact hon k hk
  rw [firstMismatch, hfirst, Option.getD_some]

end

/-- The result registers QENC sets when its prologue passes (R232). -/
theorem results_ruleOf_qenc {s : State} {j : Job} (hres : s.results = .accepted)
    (hp : prologue s.params j
      { usesWidth := false, need := some (4 * j.n.toNat), outsize := some j.n.toNat } = none) :
    (ruleOf .qenc s j).results =
      { outLen := BitVec.ofNat 32 j.n.toNat
        inUsed := BitVec.ofNat 32 (4 * j.n.toNat)
        clsCount := BitVec.ofNat 32 (mismatchCount (classes s.mem j j.n.toNat))
        clsFirst := BitVec.ofNat 32 (firstMismatch (classes s.mem j j.n.toNat))
        errPos := 0 } := by
  simp only [ruleOf, qencRule, hp, classified, Effects.start_results, hres, Results.accepted]

/-- Settles O35: the classes are those of the input pixels, and the prologue bounds every count. -/
theorem qencClassifiesByExactMatch : Obligations.QencClassifiesByExactMatch := by
  refine completesWith_of fun s j c ⟨hj, hinv⟩ hc hp => ?_
  cases hc
  have hsrc : 4 * j.n.toNat ≤ j.slen.toNat := need_le_of_prologue_eq_none hp rfl
  have hcap : j.n.toNat ≤ j.cap.toNat := outsize_le_of_prologue_eq_none hp rfl
  have hcount : (BitVec.ofNat 32 (mismatchCount (classes s.mem j j.n.toNat))).toNat =
      mismatchCount (classes s.mem j j.n.toNat) :=
    toNat_ofNat_of_le (mismatchCount_classes_le _ _ _)
  have hout : (ruleOf .qenc s j).out =
      (classes s.mem j j.n.toNat).map fun c => indexByte c.index := by
    simp only [ruleOf, qencRule, hp]
  have hlen : (ruleOf .qenc s j).out.length = j.n.toNat := by
    rw [hout, List.length_map, length_classes]
  have hresults := results_ruleOf_qenc (hinv.busy_results j hj) hp
  have hstored := stored_complete j (ruleOf .qenc s j) hinv.mem_wf
  refine ⟨fun i hi => ?_, hlen ▸ hstored.2,
    ⟨(BitVec.ofNat 32 (firstMismatch (classes s.mem j j.n.toNat))).toNat, ?_, fun hon => ?_,
      fun i hi hoff hon => ?_⟩, ?_⟩
  · rw [hstored.1 i (hlen ▸ hi), ← indexByte_classify]
    simp only [hout, List.getElem_map, getElem_classes]
  · rw [← mismatchCount_classes, ResultsAre, complete_results, hresults]
    exact ⟨toNat_ofNat_of_le hcap, toNat_ofNat_of_le hsrc, hcount, rfl, rfl⟩
  · rw [firstMismatch_classes_of_none _ _ _ hon]
    rfl
  · rw [firstMismatch_classes_of_first _ _ _ hi hoff hon]
    exact toNat_ofNat_of_le hi.le
  · have hfinished := finished_complete s j (ruleOf .qenc s j)
    rw [hresults, hcount] at hfinished
    simp only [ruleOf, qencRule, hp, classified] at hfinished ⊢
    exact hfinished.congr (mismatchCount_classes_pos_iff _ _ _) decide_eq_true_iff (by simp)

/-! ### Expansion (R231, R233) -/

/-- Where the pieces of a `flatMap` all have `m` elements, piece `i` stands from place `m * i` on. -/
theorem getD_flatMap_of_const {α β : Type} (f : α → List β) {m : Nat} (hf : ∀ a, (f a).length = m)
    (l : List α) (d : β) {i k : Nat} (hi : i < l.length) (hk : k < m) :
    (l.flatMap f).getD (m * i + k) d = (f l[i]).getD k d := by
  induction l generalizing i with
  | nil => exact absurd hi (Nat.not_lt_zero i)
  | cons a l ih =>
    rw [List.flatMap_cons]
    cases i with
    | zero =>
      rw [Nat.mul_zero, Nat.zero_add, List.getD_append _ _ _ _ (hf a ▸ hk), List.getElem_cons_zero]
    | succ i =>
      have hplace : m * (i + 1) + k = m * i + k + m := by ring
      rw [hplace, List.getD_append_right _ _ _ _ (by rw [hf a]; omega), hf a, Nat.add_sub_cancel,
        ih (Nat.lt_of_succ_lt_succ hi), List.getElem_cons_succ]

theorem getD_expand (pd : DecPalette) (b : Byte) {k : Nat} (hk : k < 4) :
    (expand pd b).getD k 0 = (decColour pd b).extractLsb' (8 * k) 8 := by
  interval_cases k <;> rfl

/-- Settles O36: pixel `i` is the expansion of index byte `i`, and the prologue bounds both counts. -/
theorem qdecExpandsEachIndex : Obligations.QdecExpandsEachIndex := by
  refine completesWith_of fun s j c ⟨hj, hinv⟩ hc hp => ?_
  cases hc
  have hres := hinv.busy_results j hj
  have hsrc : j.n.toNat ≤ j.slen.toNat := need_le_of_prologue_eq_none hp rfl
  have hcap : 4 * j.n.toNat ≤ j.cap.toNat := outsize_le_of_prologue_eq_none hp rfl
  have hout : (ruleOf .qdec s j).out = (srcBytes s.mem j j.n.toNat).flatMap (expand j.pd) := by
    simp only [ruleOf, qdecRule, hp]
  have hlen : (ruleOf .qdec s j).out.length = 4 * j.n.toNat := by
    rw [hout, length_flatMap_of_const _ 4 (length_expand j.pd), length_srcBytes]
  have hstored := stored_complete j (ruleOf .qdec s j) hinv.mem_wf
  refine ⟨fun i hi k hk => ?_, hlen ▸ hstored.2, ?_, ?_⟩
  · have hbyte : i < (srcBytes s.mem j j.n.toNat).length := (length_srcBytes _ _ _).symm ▸ hi
    rw [Nat.add_assoc, hstored.read_eq_getD (by omega), hout,
      getD_flatMap_of_const _ (length_expand j.pd) _ _ hbyte hk, getD_expand _ _ hk]
    simp only [srcBytes, Memory.getElem_readBytes, decColour]
  · refine resultsAre_complete ?_ hcap hsrc
    simp only [ruleOf, qdecRule, hp, Effects.start_results, hres]
  · have hfinished := finished_complete s j (ruleOf .qdec s j)
    simp only [ruleOf, qdecRule, hp] at hfinished ⊢
    exact hfinished.congr (by simp [hres, Results.accepted]) decide_eq_true_iff
      (any_highIndex_srcBytes _ _ _)

/-! ### Quantized pixels come back (R234) -/

/-- What a command's completion statement says holds of every run of it without an error. -/
theorem CompletesWith.of_succeeds {i : Instr} {success : State → Job → State → Prop} {s t : State}
    {j : Job} {c : Checks} (h : CompletesWith i success) (hs : Succeeds i s j t)
    (hc : commandChecks i j = some c) : success s j t := by
  obtain ⟨t', ht', -, hpass⟩ := h s j c hs.1 hc
  cases ht'.symm.trans hs.2.1
  exact hpass ((prologue_none_iff _ _ _).mp (hs.prologue_eq_none hc))

/-- A colour word whose four bytes stand in a bitmap is what its pixel reads as, alpha first (R131). -/
theorem append_rgbAt_of_bytes {m : Memory} {a i : Nat} {w : Word}
    (h : ∀ k < 4, m.read (a + 4 * i + k) = w.extractLsb' (8 * k) 8) :
    m.read (a + 4 * i + 3) ++ rgbAt m a i = w := by
  have hred : m.read (a + 4 * i) = w.extractLsb' (8 * 0) 8 := h 0 (by decide)
  rw [rgbAt, h 3 (by decide), h 2 (by decide), h 1 (by decide), hred,
    BitVec.extractLsb'_append_extractLsb'_eq_extractLsb' (by decide),
    BitVec.extractLsb'_append_extractLsb'_eq_extractLsb' (by decide),
    BitVec.extractLsb'_append_extractLsb'_eq_extractLsb' (by decide)]
  exact BitVec.extractLsb'_eq_self

section
variable (pd : DecPalette) (pe : EncPalette) (c : Rgb)

/-- The decoder colour of the index a colour is classified to: a mismatch has index 0 (R230, R231). -/
theorem decColour_indexByte_classify :
    decColour pd (indexByte (classify pe c).index) =
      if c = pe.c0 then pd.c0 else if c = pe.c1 then pd.c1 else if c = pe.c2 then pd.c2
      else pd.c0 := by
  unfold classify
  split_ifs <;> rfl

/-- With palettes that agree on RGB, a colour of the palette comes back (R234). -/
theorem setWidth_decColour_classify (h0 : pd.c0.setWidth 24 = pe.c0)
    (h1 : pd.c1.setWidth 24 = pe.c1) (h2 : pd.c2.setWidth 24 = pe.c2) (hon : ¬ OffPalette pe c) :
    (decColour pd (indexByte (classify pe c).index)).setWidth 24 = c := by
  rw [decColour_indexByte_classify]
  split_ifs with hc0 hc1 hc2
  · rw [h0, hc0]
  · rw [h1, hc1]
  · rw [h2, hc2]
  · exact absurd ⟨hc0, hc1, hc2⟩ hon

end

/-- Settles O52: pixel `i` is put together from the bytes of O36, and its index byte is that of O35. -/
theorem quantizedPixelsComeBack : Obligations.QuantizedPixelsComeBack := by
  intro s t s' t' j j' hqenc hqdec hn hin h0 h1 h2 i hi
  obtain ⟨hindex, -, ⟨_, ⟨hlen, -⟩, -⟩, -⟩ := qencClassifiesByExactMatch.of_succeeds hqenc rfl
  obtain ⟨hexpand, -⟩ := qdecExpandsEachIndex.of_succeeds hqdec rfl
  have hbyte : s'.mem.read (j'.src.toNat + i) =
      indexByte (classify j.pe (rgbAt s.mem j.src.toNat i)).index := by
    have hstored : srcBytes s'.mem j' j.n.toNat = t.mem.readBytes j.dst.toNat j.n.toNat := by
      rw [← hn, hqdec.srcBytes_eq rfl rfl, hn, hin, outputOf, hlen]
    have hread := List.getElem_of_eq hstored (i := i) (by rwa [length_srcBytes])
    simp only [srcBytes, Memory.getElem_readBytes] at hread
    rw [hread, hindex i hi, indexByte_classify]
  have hcolour : t'.mem.read (j'.dst.toNat + 4 * i + 3) ++ rgbAt t'.mem j'.dst.toNat i =
      decColour j'.pd (indexByte (classify j.pe (rgbAt s.mem j.src.toNat i)).index) :=
    (append_rgbAt_of_bytes (hexpand i (hn ▸ hi))).trans (congrArg (decColour j'.pd) hbyte)
  intro c pixel
  have hpixel : pixel = decColour j'.pd (indexByte (classify j.pe c).index) := hcolour
  rw [hpixel]
  exact ⟨decColour_indexByte_classify _ _ _, setWidth_decColour_classify _ _ _ h0 h1 h2⟩

end Sys2Proof.Machine
end

section
/-! PROOFS of the family 43_dither: the bounds of R268 (O53) and the gather form of R260 to R266 (O54). The
ditherer scatters the amount of each pixel over its mask; read at the receiving pixel, its error is the sum of
what came through each of the six neighbours. -/

namespace Sys2Proof.Machine

/-! ### The errors before each pixel -/

/-- Processing one list of pixels after another. -/
theorem errorsAfter_append (w h : Nat) (a b : List Byte) (i : Nat) (errs : List Int) :
    errorsAfter w h (a ++ b) i errs = errorsAfter w h b (i + a.length) (errorsAfter w h a i errs) := by
  induction a generalizing i errs with
  | nil => rfl
  | cons g a ih =>
    simp only [List.cons_append, errorsAfter, List.length_cons, ih]
    rw [Nat.add_right_comm, Nat.add_assoc]

/-- The errors of an image when the pixels before linear position `i` have been processed (R266). -/
def errorsBefore (w h : Nat) (g : List Byte) (i : Nat) : List Int :=
  errorsAfter w h (g.take i) 0 (List.replicate (w * h) 0)

/-- The adjusted value of the pixel at linear position `i` (R262). -/
def valueAt (w h : Nat) (g : List Byte) (i : Nat) : Int :=
  adjusted (g.getD i 0) ((errorsBefore w h g i).getD i 0)

theorem errorsBefore_succ (w h : Nat) {g : List Byte} {i : Nat} (hi : i < g.length) :
    errorsBefore w h g (i + 1) =
      diffuse w h (i % w) (i / w) (diffused (valueAt w h g i)) (errorsBefore w h g i) := by
  have htake : g.take (i + 1) = g.take i ++ [g.getD i 0] := by
    rw [List.getD_eq_getElem _ _ hi, List.take_concat_get' g i hi]
  unfold errorsBefore
  rw [htake, errorsAfter_append, List.length_take_of_le hi.le, Nat.zero_add]
  rfl

theorem length_errorsBefore (w h : Nat) {g : List Byte} {i : Nat} (hi : i ≤ g.length) :
    (errorsBefore w h g i).length = w * h := by
  induction i with
  | zero => exact List.length_replicate
  | succ i ih => rw [errorsBefore_succ w h hi, length_diffuse, ih (Nat.le_of_succ_le hi)]

/-! ### The bounds of R268 -/

theorem errorsBounded_errorsBefore (w h : Nat) {g : List Byte} {i : Nat} (hi : i ≤ g.length) :
    ErrorsBounded w i (errorsBefore w h g i) := by
  induction i with
  | zero => exact errorsBounded_zero w _
  | succ i ih =>
    rw [errorsBefore_succ w h hi]
    exact (ih (Nat.le_of_succ_le hi)).diffuse (length_errorsBefore w h (Nat.le_of_succ_le hi)) _

/-- An accumulated error is a sum of at most six amounts. -/
theorem ErrorsBounded.getD_bounds {w i : Nat} {errs : List Int} (hb : ErrorsBounded w i errs) (k : Nat) :
    -1530 ≤ errs.getD k 0 ∧ errs.getD k 0 ≤ 1524 :=
  (hb k).mono (reached_le w i k)

/-- Settles O53: the errors before each pixel are sums of at most six amounts, which bounds its value, and
the value bounds the amount it diffuses. -/
theorem ditherValuesStayInBounds : Obligations.DitherValuesStayInBounds := by
  intro w h g hg i hi errs v
  have hb : ErrorsBounded w i errs := errorsBounded_errorsBefore w h hi.le
  have hgray : g[i].toNat < 256 := g[i].isLt
  have hhead := hb.getD_bounds i
  have hamount : SumOfAmounts 1 (diffused v) := sumOfAmounts_diffused (hb i) (reached_le w i i)
  refine ⟨fun e he => ?_, ?_, ?_, hamount⟩
  · obtain ⟨k, hk, rfl⟩ := List.getElem_of_mem he
    rw [← List.getD_eq_getElem errs 0 hk]
    exact hb.getD_bounds k
  · simp only [v, adjusted]
    omega
  · simp only [v, adjusted]
    omega

/-! ### What a pixel receives -/

/-- What the pixel at position `k` receives of the amount `d` of the pixel at `p` through the neighbour `nb`
(R265). -/
def share (w h k p : Nat) (d : Int) (nb : Int × Nat) : Int :=
  if insideImage w h (p % w) (p / w) nb.1 nb.2 ∧ p + slideOffset w nb = k then d else 0

theorem getD_diffuseTo {w h i : Nat} {errs : List Int} {nb : Int × Nat} (hlen : errs.length = w * h)
    (hmem : nb ∈ neighbours) (d : Int) (k : Nat) :
    (diffuseTo w h i d errs nb).getD k 0 = errs.getD k 0 + share w h k i d nb := by
  unfold diffuseTo share
  by_cases hin : insideImage w h (i % w) (i / w) nb.1 nb.2
  · rw [if_pos hin, getD_modify_add _ _ _ _ _ (hlen ▸ neighbour_position_lt hin hmem)]
    by_cases hk : i + slideOffset w nb = k <;> simp [hin, hk]
  · simp [hin]

theorem getD_foldl_diffuseTo {w h i : Nat} {nbs : List (Int × Nat)} (hmem : ∀ nb ∈ nbs, nb ∈ neighbours)
    {errs : List Int} (hlen : errs.length = w * h) (d : Int) (k : Nat) :
    (nbs.foldl (diffuseTo w h i d) errs).getD k 0 =
      errs.getD k 0 + (nbs.map (share w h k i d)).sum := by
  induction nbs generalizing errs with
  | nil => simp
  | cons nb nbs ih =>
    obtain ⟨hnb, hnbs⟩ := List.forall_mem_cons.mp hmem
    rw [List.foldl_cons, ih hnbs (by rwa [length_diffuseTo]), getD_diffuseTo hlen hnb, List.map_cons,
      List.sum_cons, Int.add_assoc]

theorem getD_diffuse {w h : Nat} {errs : List Int} (hlen : errs.length = w * h) (i : Nat) (d : Int)
    (k : Nat) :
    (diffuse w h (i % w) (i / w) d errs).getD k 0 =
      errs.getD k 0 + (neighbours.map (share w h k i d)).sum := by
  rw [diffuse_eq_foldl]
  exact getD_foldl_diffuseTo (fun _ hmem => hmem) hlen d k

/-- What position `k` has received through the neighbour `nb` from the pixels before position `i`. -/
def received (w h : Nat) (g : List Byte) (i k : Nat) (nb : Int × Nat) : Int :=
  ∑ p ∈ Finset.range i, share w h k p (diffused (valueAt w h g p)) nb

/-- An accumulated error is what came through the six neighbours. -/
theorem getD_errorsBefore (w h : Nat) {g : List Byte} {i : Nat} (hi : i ≤ g.length) (k : Nat) :
    (errorsBefore w h g i).getD k 0 = (neighbours.map (received w h g i k)).sum := by
  induction i with
  | zero =>
    simp only [errorsBefore, List.take_zero, errorsAfter, getD_replicate_zero]
    rfl
  | succ i ih =>
    have hi' : i ≤ g.length := Nat.le_of_succ_le hi
    rw [errorsBefore_succ w h hi, getD_diffuse (length_errorsBefore w h hi'), ih hi',
      ← List.sum_map_add]
    refine congrArg List.sum (List.map_congr_left fun nb _ => ?_)
    exact (Finset.sum_range_succ _ i).symm

/-! ### The pixel back through the mask -/

/-- The pixel that reaches position `i` through the neighbour `nb` is in the image. -/
abbrev HasSource (w i : Nat) (nb : Int × Nat) : Prop :=
  nb.2 ≤ i / w ∧ 0 ≤ ((i % w : Nat) : Int) - nb.1 ∧ ((i % w : Nat) : Int) - nb.1 < w

/-- Its linear position. -/
def sourceOf (w i : Nat) (nb : Int × Nat) : Nat :=
  (i / w - nb.2) * w + (((i % w : Nat) : Int) - nb.1).toNat

/-- The source of a position is the one pixel whose mask names the position. -/
theorem reaches_iff_eq_sourceOf {w h i p : Nat} {nb : Int × Nat} (hmem : nb ∈ neighbours)
    (hi : i < w * h) :
    (insideImage w h (p % w) (p / w) nb.1 nb.2 ∧ p + slideOffset w nb = i) ↔
      HasSource w i nb ∧ p = sourceOf w i nb := by
  have hw : 0 < w := Nat.pos_of_lt_mul_right hi
  unfold sourceOf
  constructor
  · rintro ⟨hin, hreach⟩
    rw [← neighbour_position hin hmem] at hreach
    simp only [insideImage, Bool.and_eq_true, decide_eq_true_eq] at hin
    obtain ⟨⟨hleft, hright⟩, -⟩ := hin
    obtain ⟨hdiv, hmod⟩ : i / w = p / w + nb.2 ∧ i % w = (((p % w : Nat) : Int) + nb.1).toNat :=
      (Nat.div_mod_unique hw).mpr ⟨by rw [← hreach]; ring, by omega⟩
    have hpx : p % w < w := Nat.mod_lt p hw
    refine ⟨⟨by rw [hdiv]; exact Nat.le_add_left _ _, by omega, by omega⟩, ?_⟩
    rw [hdiv, hmod, Nat.add_sub_cancel, Int.toNat_of_nonneg hleft, Int.add_sub_cancel, Int.toNat_natCast,
      Nat.div_add_mod']
  · rintro ⟨⟨habove, hleft, hright⟩, hp⟩
    obtain ⟨hdiv, hmod⟩ : p / w = i / w - nb.2 ∧ p % w = (((i % w : Nat) : Int) - nb.1).toNat :=
      (Nat.div_mod_unique hw).mpr ⟨by rw [hp]; ring, by omega⟩
    have hix : i % w < w := Nat.mod_lt i hw
    have hiy : i / w < h := Nat.div_lt_of_lt_mul hi
    have hx : ((p % w : Nat) : Int) + nb.1 = (i % w : Nat) := by omega
    have hy : p / w + nb.2 = i / w := by omega
    have hin : insideImage w h (p % w) (p / w) nb.1 nb.2 = true := by
      simp only [insideImage, hx, hy, Bool.and_eq_true, decide_eq_true_eq]
      omega
    refine ⟨hin, ?_⟩
    rw [← neighbour_position hin hmem, hx, hy, Int.toNat_natCast, Nat.div_add_mod']

/-- A neighbour inside the image comes later in raster order (R271). -/
theorem slideOffset_pos {w h p : Nat} {nb : Int × Nat} (hw : 0 < w) (hmem : nb ∈ neighbours)
    (hin : insideImage w h (p % w) (p / w) nb.1 nb.2 = true) : 0 < slideOffset w nb := by
  have hpx : p % w < w := Nat.mod_lt p hw
  simp only [insideImage, Bool.and_eq_true, decide_eq_true_eq] at hin
  fin_cases hmem <;> simp only [slideOffset] at hin ⊢ <;> omega

theorem sourceOf_lt {w h i : Nat} {nb : Int × Nat} (hmem : nb ∈ neighbours) (hi : i < w * h)
    (hs : HasSource w i nb) : sourceOf w i nb < i := by
  obtain ⟨hin, hreach⟩ := (reaches_iff_eq_sourceOf hmem hi).mpr ⟨hs, rfl⟩
  have := slideOffset_pos (Nat.pos_of_lt_mul_right hi) hmem hin
  omega

/-- Through one neighbour a pixel has received the amount of one source, if that is in the image. -/
theorem received_self {w h i : Nat} {nb : Int × Nat} (hmem : nb ∈ neighbours) (hi : i < w * h)
    (g : List Byte) :
    received w h g i i nb =
      if HasSource w i nb then diffused (valueAt w h g (sourceOf w i nb)) else 0 := by
  simp only [received, share, reaches_iff_eq_sourceOf hmem hi]
  by_cases hs : HasSource w i nb
  · have hsource : sourceOf w i nb ∈ Finset.range i := Finset.mem_range.mpr (sourceOf_lt hmem hi hs)
    rw [if_pos hs, Finset.sum_eq_single_of_mem _ hsource fun p _ hne => if_neg fun hp => hne hp.2]
    exact if_pos ⟨hs, rfl⟩
  · rw [if_neg hs]
    exact Finset.sum_eq_zero fun p _ => if_neg fun hp => hs hp.1

/-! ### The output bits -/

/-- The diffused amount with the division of the integers (R264). -/
theorem diffused_eq_ediv (v : Int) : diffused v = (v - if 2040 ≤ v then 4080 else 0) / 8 := by
  have hbit : (outputBit v = true) = (2040 ≤ v) := decide_eq_true_eq
  simp only [diffused, hbit, fullScale]
  exact Int.fdiv_eq_ediv_of_nonneg _ (by decide : (0 : Int) ≤ 8)

theorem getElem?_ditherFrom (w h : Nat) {gs : List Byte} {k : Nat} (hk : k < gs.length) (i : Nat)
    (errs : List Int) :
    (ditherFrom w h gs i errs)[k]? =
      some (outputBit (adjusted (gs.getD k 0) ((errorsAfter w h (gs.take k) i errs).getD (i + k) 0))) := by
  induction gs generalizing k i errs with
  | nil => simp at hk
  | cons g gs ih =>
    cases k with
    | zero => rfl
    | succ k =>
      simp only [ditherFrom, List.getElem?_cons_succ, ih (Nat.lt_of_succ_lt_succ hk)]
      rw [Nat.add_right_comm, Nat.add_assoc]
      rfl

/-- The output bit of a pixel is that of its adjusted value (R263). -/
theorem getElem?_dither (w h : Nat) {g : List Byte} {i : Nat} (hi : i < g.length) :
    (dither w h g)[i]? = some (outputBit (valueAt w h g i)) := by
  rw [dither, getElem?_ditherFrom w h hi, Nat.zero_add]
  rfl

/-- Settles O54: the error of a pixel is what came through the six neighbours, each from one source. -/
theorem ditherGathersNeighbourErrors : Obligations.DitherGathersNeighbourErrors := by
  intro w h g hg
  refine ⟨valueAt w h g, fun i hi => ?_⟩
  intro x y amount
  have hamount : ∀ nb ∈ neighbours, received w h g i i nb = amount nb.1 nb.2 := by
    intro nb hmem
    rw [received_self hmem (hg ▸ hi), diffused_eq_ediv]
    rfl
  refine ⟨?_, getElem?_dither w h hi⟩
  calc valueAt w h g i
      = 16 * (g[i].toNat : Int) + (neighbours.map (received w h g i i)).sum := by
        rw [valueAt, adjusted, getD_errorsBefore w h hi.le, List.getD_eq_getElem _ _ hi]
    _ = 16 * (g[i].toNat : Int) + (neighbours.map fun nb => amount nb.1 nb.2).sum := by
        rw [List.map_congr_left hamount]
    _ = _ := by
        simp only [neighbours, List.map_cons, List.map_nil, List.sum_cons, List.sum_nil]
        ring

end Sys2Proof.Machine
end

section
/-! PROOFS of the family 44_pipeline: NOP (R290), and the fused encoders (R291, R293): each hands its packed
plane to the body that RLE_ENC has too. -/

namespace Sys2Proof.Machine

/-! ### NOP (R290) -/

/-- A job that has done nothing leaves the results of acceptance, and so no report. -/
theorem complete_start {s : State} (j : Job) (hres : s.results = .accepted) :
    complete s j (.start s) =
      { s with phase := .idle, status := s.status.atCompletion false false false .none } := by
  have hcls : clsFlag s.results.clsCount = false := by rw [hres]; rfl
  rw [complete, Effects.start_results, hcls]
  rfl

/-- Settles O30: NOP's rule does nothing. -/
theorem nopOnlyCompletes : Obligations.NopOnlyCompletes := by
  rintro s j ⟨hj, hinv⟩
  rw [exec_busy .nop hj, ruleOf, nopRule, complete_start j (hinv.busy_results j hj)]
  rfl

/-! ### What the encoders' common body leaves (R291, R293) -/

section
variable {s : State} {j : Job} {e : Effects} (used : Nat) (x : List Byte)

theorem stored_encodeInto (hm : s.mem.wf = true) :
    Stored s (complete s j (encodeInto e j used x)) j.dst.toNat
      ((rleEncode j.tail x).take j.cap.toNat) :=
  (encodeInto_out e j used x).1 ▸ stored_complete j _ hm

/-- The result registers of an encoder, when it has classified `count` pixels off the palette, the first of
them at `first`. -/
theorem resultsAre_encodeInto {count first : Word}
    (hres : e.results = { Results.accepted with clsCount := count, clsFirst := first })
    (hused : used ≤ j.slen.toNat) :
    ResultsAre (complete s j (encodeInto e j used x)) (min (rleEncode j.tail x).length j.cap.toNat)
      used count.toNat first.toNat 0 := by
  have hzero : e.results.errPos = 0 := by rw [hres]; rfl
  rw [ResultsAre, complete_results, encodeInto_results _ _ _ hzero, hres]
  exact ⟨toNat_ofNat_of_le (Nat.min_le_right _ _), toNat_ofNat_of_le hused, rfl, rfl, rfl⟩

/-- An encoder's flags are those of its rule, whether its stream fits or not; only the code differs. -/
theorem finished_encodeInto {cls xs : Prop} (hcode : e.errcode = .none)
    (hcls : 0 < e.results.clsCount.toNat ↔ cls) (hxs : e.xs = true ↔ xs) (hidxhi : e.idxhi = false) :
    ((rleEncode j.tail x).length ≤ j.cap.toNat →
      Finished s (complete s j (encodeInto e j used x)) .none cls xs False) ∧
    (j.cap.toNat < (rleEncode j.tail x).length →
      Finished s (complete s j (encodeInto e j used x)) .dstOverflow cls xs False) := by
  have hfinished := (finished_complete s j (encodeInto e j used x)).congr
    (encodeInto_clsCount e j used x ▸ hcls) (encodeInto_xs e j used x ▸ hxs)
    (r' := False) (by simp [hidxhi])
  rw [encodeInto_errcode, hcode] at hfinished
  exact ⟨fun hfits => by rwa [if_neg hfits.not_gt] at hfinished,
    fun hover => by rwa [if_pos hover] at hfinished⟩

end

/-! ### ENC_PLANE (R291) -/

/-- The indices of the classified pixels (R230). -/
theorem map_index_classes (m : Memory) (j : Job) (n : Nat) :
    (classes m j n).map PixelClass.index = (List.range n).map fun i =>
      if rgbAt m j.src.toNat i = j.pe.c0 then 0 else if rgbAt m j.src.toNat i = j.pe.c1 then 1
      else if rgbAt m j.src.toNat i = j.pe.c2 then 2 else 0 := by
  rw [classes, List.map_map]
  refine List.map_congr_left fun i _ => ?_
  rw [Function.comp_apply, srcPixel_eq_rgbAt, classify]
  split_ifs <;> rfl

theorem ruleOf_encPlane {s : State} {j : Job}
    (hp : prologue s.params j
      { usesWidth := false, need := some (4 * j.n.toNat), outsize := none } = none) :
    ruleOf .encPlane s j =
      encodeInto (classified (.start s) j j.n.toNat (classes s.mem j j.n.toNat)) j (4 * j.n.toNat)
        (pack ((classes s.mem j j.n.toNat).map PixelClass.index)) := by
  simp only [ruleOf, encPlaneRule, hp]

/-- Settles O38: the packed plane is that of the classes of the input pixels. -/
theorem encPlaneStoresTheEncodedPlane : Obligations.EncPlaneStoresTheEncodedPlane := by
  refine completesWith_of fun s j c ⟨hj, hinv⟩ hc hp => ?_
  cases hc
  have hres := hinv.busy_results j hj
  have hsrc : 4 * j.n.toNat ≤ j.slen.toNat := need_le_of_prologue_eq_none hp rfl
  have hcount : (BitVec.ofNat 32 (mismatchCount (classes s.mem j j.n.toNat))).toNat =
      mismatchCount (classes s.mem j j.n.toNat) :=
    toNat_ofNat_of_le (mismatchCount_classes_le _ _ _)
  rw [ruleOf_encPlane hp, map_index_classes]
  refine ⟨stored_encodeInto _ _ hinv.mem_wf,
    ⟨(BitVec.ofNat 32 (firstMismatch (classes s.mem j j.n.toNat))).toNat, ?_, fun hon => ?_,
      fun i hi hoff hon => ?_⟩, finished_encodeInto _ _ rfl ?_ decide_eq_true_iff rfl⟩
  · rw [← mismatchCount_classes, ← hcount]
    exact resultsAre_encodeInto _ _ (by rw [classified, Effects.start_results, hres]) hsrc
  · rw [firstMismatch_classes_of_none _ _ _ hon]
    rfl
  · rw [firstMismatch_classes_of_first _ _ _ hi hoff hon]
    exact toNat_ofNat_of_le hi.le
  · rw [classified, hcount]
    exact mismatchCount_classes_pos_iff _ _ _

/-! ### ENC_GRAY (R293) -/

/-- What ENC_GRAY has done when it begins to encode the `area` pixels of its image. -/
def grayEffects (s : State) (j : Job) : Effects :=
  { Effects.start s with
    xs := decide (j.area < j.slen.toNat)
    ditherBuf := finalDitherBuf s.params j.w.toNat j.h.toNat (srcBytes s.mem j j.area) }

theorem ruleOf_encGray {s : State} {j : Job}
    (hp : prologue s.params j { usesWidth := true, need := some j.area, outsize := none } = none) :
    ruleOf .encGray s j = encodeInto (grayEffects s j) j j.area
      (pack ((dither j.w.toNat j.h.toNat ((inputOf s j).take j.area)).map ditherIndex)) := by
  rw [take_inputOf s (need_le_of_prologue_eq_none hp rfl)]
  simp only [ruleOf, encGrayRule, hp]
  rfl

/-- Settles O40: the packed plane is that of the dither bits of the input, and no pixel is classified. -/
theorem encGrayStoresTheEncodedImage : Obligations.EncGrayStoresTheEncodedImage := by
  refine completesWith_of fun s j c ⟨hj, hinv⟩ hc hp => ?_
  cases hc
  have hres : (grayEffects s j).results = .accepted := hinv.busy_results j hj
  have hsrc : j.area ≤ j.slen.toNat := need_le_of_prologue_eq_none hp rfl
  rw [ruleOf_encGray hp]
  refine ⟨stored_encodeInto _ _ hinv.mem_wf, resultsAre_encodeInto _ _ hres hsrc,
    finished_encodeInto _ _ rfl ?_ decide_eq_true_iff rfl⟩
  simp [hres, Results.accepted]

end Sys2Proof.Machine
end

section
/-! PROOFS of the family 44_pipeline: DEC_PLANE (R292). Its loop goes over the tokens that fit the packed plane
and stops with the one that completes it, or at the end of the stream. -/

namespace Sys2Proof.Machine

/-! ### The loop of DEC_PLANE -/

section
variable {m slen : Nat} {trunc : Bool}

/-- The plane is complete: later tokens are not read (R292). -/
theorem gather_of_complete (ts : List Token) (p : Nat) {k : Nat} (surplus : Bool) (hk : m ≤ k) :
    gather m slen trunc ts p k surplus =
      { got := [], used := p, surplus := surplus, error := none } := by
  cases ts <;> simp [gather, hk]

/-- Stepping over a token that fits the rest of the plane: it has no surplus bytes. -/
theorem gather_cons_fits (t : Token) (ts : List Token) (p : Nat) {k : Nat} (surplus : Bool)
    (hk : k < m) (hfits : k + t.bytes.length ≤ m) :
    gather m slen trunc (t :: ts) p k surplus =
      { gather m slen trunc ts (p + t.size) (k + t.bytes.length) false with
        got := t.bytes ++
          (gather m slen trunc ts (p + t.size) (k + t.bytes.length) false).got } := by
  have htake : min t.bytes.length (m - k) = t.bytes.length := by omega
  simp [gather, not_le.mpr hk, htake]

/-- The token that completes the plane is the last one read, and its surplus bytes are dropped. -/
theorem gather_cons_completes (t : Token) (ts : List Token) (p : Nat) {k : Nat} (surplus : Bool)
    (hk : k < m) (hfull : m ≤ k + t.bytes.length) :
    gather m slen trunc (t :: ts) p k surplus =
      { got := t.bytes.take (m - k), used := p + t.size
        surplus := decide (m < k + t.bytes.length), error := none } := by
  have htake : min t.bytes.length (m - k) = m - k := by omega
  have hdone : m ≤ k + (m - k) := by omega
  have hsurplus : m - k < t.bytes.length ↔ m < k + t.bytes.length := by omega
  simp [gather, not_le.mpr hk, htake, gather_of_complete _ _ _ hdone, hsurplus]

/-- Stepping over tokens that do not complete the plane. -/
theorem gather_append (ts later : List Token) (p k : Nat) (hopen : k + (decodedOf ts).length < m) :
    gather m slen trunc (ts ++ later) p k false =
      { gather m slen trunc later (p + (streamOf ts).length) (k + (decodedOf ts).length) false with
        got := decodedOf ts ++ (gather m slen trunc later (p + (streamOf ts).length)
          (k + (decodedOf ts).length) false).got } := by
  induction ts generalizing p k with
  | nil => rfl
  | cons t ts ih =>
    rw [decodedOf_cons, List.length_append] at hopen
    rw [List.cons_append, gather_cons_fits _ _ _ _ (by omega) (by omega), ih _ _ (by omega)]
    simp [Nat.add_assoc]

/-- When every token makes bytes, the loop reads all tokens of a plane, and no surplus (R295). -/
theorem gather_exact {ts : List Token} (hmakes : ∀ t ∈ ts, t.bytes ≠ []) (p k : Nat)
    (hm : k + (decodedOf ts).length = m) :
    gather m slen trunc ts p k false =
      { got := decodedOf ts, used := p + (streamOf ts).length, surplus := false, error := none } := by
  induction ts generalizing p k with
  | nil => exact gather_of_complete _ _ _ hm.ge
  | cons t ts ih =>
    have hpos := List.length_pos_of_ne_nil (hmakes t (by simp))
    rw [decodedOf_cons, List.length_append] at hm
    rw [gather_cons_fits _ _ _ _ (by omega) (by omega), ih (fun t ht => hmakes t (by simp [ht])) _ _
      (by omega)]
    simp [Nat.add_assoc]

/-- The loop gathers the first bytes that the tokens make, whatever stops it. -/
theorem gather_got (ts : List Token) (p k : Nat) (surplus : Bool) :
    (gather m slen trunc ts p k surplus).got = (decodedOf ts).take (m - k) := by
  induction ts generalizing p k surplus with
  | nil => simp [gather]
  | cons t ts ih =>
    by_cases hk : m ≤ k
    · simp [gather_of_complete _ _ _ hk, Nat.sub_eq_zero_of_le hk]
    · by_cases hfits : k + t.bytes.length ≤ m
      · rw [gather_cons_fits _ _ _ _ (not_le.mp hk) hfits, decodedOf_cons, List.take_append,
          List.take_of_length_le (by omega), Nat.sub_sub]
        exact congrArg _ (ih _ _ _)
      · rw [gather_cons_completes _ _ _ _ (not_le.mp hk) (by omega), decodedOf_cons,
          List.take_append_of_le_length (by omega)]

end

/-! ### What DEC_PLANE leaves -/

/-- What DEC_PLANE has done when its loop has gathered `d`, before it raises the loop's error (R292). -/
def Gathered.effects (d : Gathered) (s : State) (j : Job) : Effects :=
  { Effects.start s with
    out := planePixels j.pd j.n.toNat d.got
    results := { s.results with
      outLen := BitVec.ofNat 32 (4 * min j.n.toNat (4 * d.got.length))
      inUsed := BitVec.ofNat 32 d.used }
    xs := d.error.isNone && (d.surplus || decide (d.used < j.slen.toNat)) }

section
variable {s : State} {j : Job}
  (hp : prologue s.params j
    { usesWidth := false, need := none, outsize := some (4 * j.n.toNat) } = none)
  {d : Gathered}
  (hd : gather (packedLen j.n.toNat) j.slen.toNat (tokens (inputOf s j)).2 (tokens (inputOf s j)).1
    0 0 false = d)
include hp hd

theorem ruleOf_decPlane : ruleOf .decPlane s j = (d.effects s j).raise? d.error := by
  have hloop : gather (packedLen j.n.toNat) j.slen.toNat
      (tokens (srcBytes s.mem j j.slen.toNat)).2 (tokens (srcBytes s.mem j j.slen.toNat)).1
      0 0 false = d := hd
  simp only [ruleOf, decPlaneRule, hp, hloop, Gathered.effects]
  cases d.error <;> rfl

/-- What DEC_PLANE leaves when the prologue passes and its loop has gathered `d`: XS only without an error. -/
theorem decPlane_leaves (hr : Ready s j) (hused : d.used ≤ j.slen.toNat)
    (hpos : (raised d.error).2 ≤ j.slen.toNat) :
    Stored s (complete s j (ruleOf .decPlane s j)) j.dst.toNat (planePixels j.pd j.n.toNat d.got) ∧
    ResultsAre (complete s j (ruleOf .decPlane s j)) (4 * min j.n.toNat (4 * d.got.length)) d.used 0
      0xFFFFFFFF (raised d.error).2 ∧
    Finished s (complete s j (ruleOf .decPlane s j)) (raised d.error).1 False
      (d.error = none ∧ (d.surplus = true ∨ d.used < j.slen.toNat)) False := by
  obtain ⟨hj, hinv⟩ := hr
  have hcap : 4 * j.n.toNat ≤ j.cap.toNat := outsize_le_of_prologue_eq_none hp rfl
  have hres : (d.effects s j).results = { Results.accepted with
      outLen := BitVec.ofNat 32 (4 * min j.n.toNat (4 * d.got.length))
      inUsed := BitVec.ofNat 32 d.used } := by
    rw [Gathered.effects, hinv.busy_results j hj]
  have hresults := Effects.raise?_results d.error (e := d.effects s j) (by rw [hres]; rfl)
  rw [hres] at hresults
  rw [ruleOf_decPlane hp hd]
  refine ⟨?_, ?_, ?_⟩
  · have hstored := stored_complete j ((d.effects s j).raise? d.error) hinv.mem_wf
    rwa [Effects.raise?_out] at hstored
  · rw [ResultsAre, complete_results, hresults]
    exact ⟨toNat_ofNat_of_le (w := j.cap) (by omega), toNat_ofNat_of_le hused, rfl, rfl,
      toNat_ofNat_of_le hpos⟩
  · have hfinished := finished_complete s j ((d.effects s j).raise? d.error)
    rw [Effects.raise?_errcode _ rfl, hresults] at hfinished
    exact hfinished.congr (by simp [Results.accepted]) (by simp [Gathered.effects])
      (by simp [Gathered.effects])

end

/-- What the whole loop has done when tokens that do not complete the plane stand before the rest. -/
theorem gather_inputOf {s : State} {j : Job} {ts : List Token} {rest : List Byte}
    (hlegal : ∀ k ∈ ts, k.legal = true) (hin : inputOf s j = streamOf ts ++ rest)
    (hopen : (decodedOf ts).length < packedLen j.n.toNat) :
    gather (packedLen j.n.toNat) j.slen.toNat (tokens (inputOf s j)).2 (tokens (inputOf s j)).1 0 0
        false =
      { gather (packedLen j.n.toNat) j.slen.toNat (tokens rest).2 (tokens rest).1
          (streamOf ts).length (decodedOf ts).length false with
        got := decodedOf ts ++ (gather (packedLen j.n.toNat) j.slen.toNat (tokens rest).2
          (tokens rest).1 (streamOf ts).length (decodedOf ts).length false).got } := by
  rw [hin, tokens_append ts hlegal, gather_append _ _ _ _ (by omega), Nat.zero_add, Nat.zero_add]

/-- What the whole loop has done when the token `last` completes the plane: the rest is not read. -/
theorem gather_inputOf_completes {s : State} {j : Job} {ts : List Token} {last : Token}
    {rest : List Byte} (hlegal : ∀ k ∈ ts, k.legal = true) (hlast : last.legal = true)
    (hin : inputOf s j = streamOf ts ++ last.stream ++ rest)
    (hopen : (decodedOf ts).length < packedLen j.n.toNat)
    (hfull : packedLen j.n.toNat ≤ (decodedOf ts ++ last.bytes).length) :
    gather (packedLen j.n.toNat) j.slen.toNat (tokens (inputOf s j)).2 (tokens (inputOf s j)).1 0 0
        false =
      { got := (decodedOf ts ++ last.bytes).take (packedLen j.n.toNat)
        used := (streamOf ts ++ last.stream).length
        surplus := decide (packedLen j.n.toNat < (decodedOf ts ++ last.bytes).length)
        error := none } := by
  rw [List.length_append] at hfull
  rw [gather_inputOf hlegal (hin.trans (List.append_assoc _ _ _)) hopen, tokens_cons last hlast,
    gather_cons_completes _ _ _ _ hopen hfull, List.take_append, List.take_of_length_le hopen.le,
    List.length_append, List.length_append, length_stream]

/-- Settles O39: a plane of no pixels is complete at once; else the loop stands, after tokens that do not
complete the plane, before the one that does, or at the end of the stream. -/
theorem decPlaneStopsWithThePlane : Obligations.DecPlaneStopsWithThePlane := by
  refine completesWith_of fun s j c hr hc hp => ?_
  cases hc
  refine ⟨fun hn => ?_, fun ts last rest hlegal hlast hin hopen hfull => ?_,
    fun ts rest hlegal hin hopen => ?_⟩
  · have hloop := gather_of_complete (m := packedLen j.n.toNat) (slen := j.slen.toNat)
      (trunc := (tokens (inputOf s j)).2) (tokens (inputOf s j)).1 0 false (k := 0)
      (by rw [hn]; rfl)
    obtain ⟨hstored, hresults, hfinished⟩ :=
      decPlane_leaves hp hloop hr (Nat.zero_le _) (Nat.zero_le _)
    rw [hn] at hstored hresults
    exact ⟨fun b => hstored.2 b (Nat.lt_or_ge b j.dst.toNat), hresults,
      hfinished.congr Iff.rfl (by simp) Iff.rfl⟩
  · have hlen : (streamOf ts ++ last.stream).length + rest.length = j.slen.toNat := by
      rw [← List.length_append, ← hin, inputOf, Memory.length_readBytes]
    obtain ⟨hstored, hresults, hfinished⟩ := decPlane_leaves hp
      (gather_inputOf_completes hlegal hlast hin hopen hfull) hr (Nat.le.intro hlen) (Nat.zero_le _)
    have hall : min j.n.toNat (4 * packedLen j.n.toNat) = j.n.toNat := by
      unfold packedLen
      omega
    rw [List.length_take_of_le hfull, hall] at hresults
    refine ⟨hstored, hresults, hfinished.congr Iff.rfl ?_ Iff.rfl⟩
    simp only [true_and, decide_eq_true_iff, ← List.length_pos_iff_ne_nil]
    exact or_congr_right (by omega)
  · have hloop := gather_inputOf hlegal hin hopen
    have hlen : (streamOf ts).length + rest.length = j.slen.toNat := by
      rw [← List.length_append, ← hin, inputOf, Memory.length_readBytes]
    have hused : (streamOf ts).length ≤ j.slen.toNat := Nat.le.intro hlen
    refine ⟨fun hrest => ?_, fun hpartial => ?_⟩
    · subst hrest
      rw [List.length_nil, Nat.add_zero] at hlen
      simp only [tokens, gather, if_neg hopen.not_ge, Bool.false_eq_true, if_false,
        List.append_nil] at hloop
      obtain ⟨hstored, hresults, hfinished⟩ := decPlane_leaves hp hloop hr hused le_rfl
      rw [hlen] at hresults
      exact ⟨hstored, hresults, hfinished.congr Iff.rfl (by simp) Iff.rfl⟩
    · simp only [tokens_partial hpartial, gather, if_neg hopen.not_ge, if_true,
        List.append_nil] at hloop
      obtain ⟨hstored, hresults, hfinished⟩ := decPlane_leaves hp hloop hr hused hused
      exact ⟨hstored, hresults, hfinished.congr Iff.rfl (by simp) Iff.rfl⟩

end Sys2Proof.Machine
end

section
/-! PROOFS of the family 44_pipeline: the laws. A run without an error writes the value of its command's
function, so the chains of R294 are the same composition of functions, and the round trip of R295 comes from
those of its stages. -/

namespace Sys2Proof.Machine

/-! ### What the encoders write without an error -/

section
variable {i : Instr} {s t : State} {j : Job}

theorem Succeeds.results_accepted (h : Succeeds i s j t) : s.results = .accepted := by
  obtain ⟨⟨hj, hinv⟩, -⟩ := h
  exact hinv.busy_results j hj

theorem Succeeds.eq_complete (h : Succeeds i s j t) : t = complete s j (ruleOf i s j) := by
  obtain ⟨⟨hj, -⟩, ht, -⟩ := h
  exact Host.Outcome.next.inj (ht.symm.trans (exec_busy i hj))

theorem Succeeds.errcode_ruleOf (h : Succeeds i s j t) : (ruleOf i s j).errcode = .none := by
  obtain ⟨-, -, hcode⟩ := h.eq_complete ▸ h
  exact hcode

/-- Without DST_OVERFLOW the whole stream is written (R164). -/
theorem Succeeds.outputOf_encodeInto (h : Succeeds i s j t) {e : Effects} {used : Nat} {x : List Byte}
    (hrule : ruleOf i s j = encodeInto e j used x) : outputOf t j = rleEncode j.tail x := by
  have hcode := h.errcode_ruleOf
  rw [hrule, encodeInto_errcode] at hcode
  have hfits : (rleEncode j.tail x).length ≤ j.cap.toNat := by
    by_contra hover
    rw [if_pos (not_le.mp hover)] at hcode
    cases hcode
  rw [h.outputOf_eq, hrule, (encodeInto_out e j used x).1, List.take_of_length_le hfits]

/-- RLE_ENC writes `RleEncode` of its input (R164). -/
theorem Succeeds.outputOf_rleEnc (h : Succeeds .rleEnc s j t) :
    outputOf t j = rleEncode j.tail (inputOf s j) := by
  refine h.outputOf_encodeInto (e := .start s) (used := j.slen.toNat) ?_
  simp only [ruleOf, rleEncRule, h.prologue_eq_none rfl]
  rfl

/-- ENC_PLANE writes the encoding of the packed indices of its pixels (R291). -/
theorem Succeeds.outputOf_encPlane (h : Succeeds .encPlane s j t) :
    outputOf t j =
      rleEncode j.tail (pack ((classes s.mem j j.n.toNat).map PixelClass.index)) :=
  h.outputOf_encodeInto (ruleOf_encPlane (h.prologue_eq_none rfl))

/-- ENC_GRAY writes the encoding of the packed indices of its dither bits (R293). -/
theorem Succeeds.outputOf_encGray (h : Succeeds .encGray s j t) :
    outputOf t j = rleEncode j.tail
      (pack ((dither j.w.toNat j.h.toNat ((inputOf s j).take j.area)).map ditherIndex)) :=
  h.outputOf_encodeInto (ruleOf_encGray (h.prologue_eq_none rfl))

/-- QENC writes the index of each pixel as a byte (R232). -/
theorem Succeeds.outputOf_qenc (h : Succeeds .qenc s j t) :
    outputOf t j = (classes s.mem j j.n.toNat).map fun c => indexByte c.index := by
  rw [h.outputOf_eq]
  simp only [ruleOf, qencRule, h.prologue_eq_none rfl]

/-- DITHER with OF = 1 writes the index of each dither bit as a byte (R269). -/
theorem Succeeds.outputOf_ditherIdx (h : Succeeds .ditherIdx s j t) :
    outputOf t j =
      (dither j.w.toNat j.h.toNat ((inputOf s j).take j.area)).map (ditherByte true) := by
  rw [h.outputOf_eq, ← h.srcBytes_eq rfl rfl]
  simp only [ruleOf, ditherRule, h.prologue_eq_none rfl]

end

/-! ### The encoding chains (R294) -/

/-- An index byte holds its index (R130). -/
theorem byteIndex_indexByte (i : Index) : byteIndex (indexByte i) = i :=
  (BitVec.extractLsb'_setWidth_of_le (by decide : 0 + 2 ≤ 8)).trans BitVec.extractLsb'_eq_self

theorem byteIndex_ditherByte (o : Bool) : byteIndex (ditherByte true o) = ditherIndex o := by
  cases o <;> rfl

/-- The classes of a bitmap are given by its bytes and the palette (R232). -/
theorem classes_congr {m m' : Memory} {j j' : Job} {n : Nat} (hpe : j'.pe = j.pe)
    (hbytes : srcBytes m' j' (4 * n) = srcBytes m j (4 * n)) : classes m' j' n = classes m j n := by
  have hbyte : ∀ k < 4 * n, srcByte m' j' k = srcByte m j k := by
    intro k hk
    have hread := List.getElem_of_eq hbytes (i := k) (by rwa [length_srcBytes])
    simpa only [srcBytes, srcByte, Memory.getElem_readBytes] using hread
  refine List.map_congr_left fun i hi => ?_
  rw [List.mem_range] at hi
  rw [hpe, srcPixel, srcPixel, hbyte (4 * i) (by omega), hbyte (4 * i + 1) (by omega),
    hbyte (4 * i + 2) (by omega)]

/-- ENC_PLANE reports the mismatches that QENC reports of the same pixels (R291). -/
theorem classification_of_encPlane_qenc {s t s1 t1 : State} {j j1 : Job}
    (h : Succeeds .encPlane s j t) (h1 : Succeeds .qenc s1 j1 t1)
    (hclasses : classes s1.mem j1 j1.n.toNat = classes s.mem j j.n.toNat) :
    t.results.clsCount = t1.results.clsCount ∧ t.results.clsFirst = t1.results.clsFirst := by
  have hzero : (classified (.start s) j j.n.toNat (classes s.mem j j.n.toNat)).results.errPos = 0 := by
    rw [classified, Effects.start_results, h.results_accepted]
    rfl
  rw [h.eq_complete, h1.eq_complete, complete_results, complete_results,
    results_ruleOf_qenc h1.results_accepted (h1.prologue_eq_none rfl),
    ruleOf_encPlane (h.prologue_eq_none rfl), encodeInto_results _ _ _ hzero, hclasses]
  exact ⟨rfl, rfl⟩

/-- Settles O56: PACK reads the indices that QENC wrote as bytes, and both classify the same pixels. -/
theorem encPlaneIsQencPackRleEnc : Obligations.EncPlaneIsQencPackRleEnc := by
  intro s t s1 t1 s2 t2 s3 t3 j j1 j2 j3 h h1 h2 h3 hn1 hpe hn2 htail hin hin2 hin3
  have hclasses : classes s1.mem j1 j.n.toNat = classes s.mem j j.n.toNat := by
    refine classes_congr hpe ?_
    rw [h.srcBytes_eq rfl rfl, ← hin, ← hn1, h1.srcBytes_eq rfl rfl]
  refine ⟨?_, classification_of_encPlane_qenc h h1 (hn1 ▸ hclasses)⟩
  rw [h.outputOf_encPlane, h3.outputOf_rleEnc, htail, hin3, h2.outputOf_pack, hn2, hin2,
    h1.outputOf_qenc, hn1, hclasses, List.map_map]
  congr 3
  funext c
  exact (byteIndex_indexByte c.index).symm

/-- Settles O57: PACK reads the indices that DITHER wrote as bytes. -/
theorem encGrayIsDitherPackRleEnc : Obligations.EncGrayIsDitherPackRleEnc := by
  intro s t s1 t1 s2 t2 s3 t3 j j1 j2 j3 h h1 h2 h3 hw hh hn2 htail hin hin2 hin3
  have harea : j1.area = j.area := by rw [Job.area, hw, hh, Job.area]
  rw [h.outputOf_encGray, h3.outputOf_rleEnc, htail, hin3, h2.outputOf_pack, hn2, hin2,
    h1.outputOf_ditherIdx, harea, hin, hw, hh, List.map_map]
  congr 3
  funext o
  exact (byteIndex_ditherByte o).symm

/-! ### The decoding chain (R294) -/

/-- A loop of RLE_DEC that ends without an error has expanded every token (R166). -/
theorem rleDecode_out_of_no_error {cap : Nat} {trunc : Bool} {ts : List Token} {p k : Nat}
    (h : (rleDecode cap trunc ts p k).error = none) :
    (rleDecode cap trunc ts p k).out = decodedOf ts := by
  induction ts generalizing p k with
  | nil => rfl
  | cons t ts ih =>
    by_cases hfits : k + t.bytes.length ≤ cap
    · rw [rleDecode_cons_fits _ _ _ _ _ _ hfits] at h ⊢
      rw [decodedOf_cons, ← ih h]
    · rw [rleDecode, if_neg hfits] at h
      cases h

section
variable {s t : State} {j : Job}

/-- RLE_DEC writes what the tokens of its input make (R166). -/
theorem Succeeds.outputOf_rleDec (h : Succeeds .rleDec s j t) :
    outputOf t j = decodedOf (tokens (inputOf s j)).1 := by
  have hrule := rleDecRule_of_prologue (h.prologue_eq_none rfl) rfl
  have hcode := h.errcode_ruleOf
  rw [hrule, Effects.raise?_errcode _ rfl] at hcode
  rw [h.outputOf_eq, hrule, Effects.raise?_out]
  refine rleDecode_out_of_no_error ?_
  cases herror : (rleDecode j.cap.toNat (tokens (inputOf s j)).2 (tokens (inputOf s j)).1 0 0).error with
  | none => rfl
  | some err =>
    rw [herror] at hcode
    rcases rleDecode_error_code herror with herr | herr <;> cases herr.symm.trans hcode

/-- DEC_PLANE writes the pixels of the first ceil(N/4) bytes that its tokens make (R292). -/
theorem Succeeds.outputOf_decPlane (h : Succeeds .decPlane s j t) :
    outputOf t j = planePixels j.pd j.n.toNat
      ((decodedOf (tokens (inputOf s j)).1).take (packedLen j.n.toNat)) := by
  rw [h.outputOf_eq, ruleOf_decPlane (h.prologue_eq_none rfl) rfl, Effects.raise?_out,
    Gathered.effects, gather_got, Nat.sub_zero]

/-- QDEC writes the expansion of each of its first N index bytes (R233). -/
theorem Succeeds.outputOf_qdec (h : Succeeds .qdec s j t) :
    outputOf t j = ((inputOf s j).take j.n.toNat).flatMap (expand j.pd) := by
  rw [h.outputOf_eq, ← h.srcBytes_eq rfl rfl]
  simp only [ruleOf, qdecRule, h.prologue_eq_none rfl]

end

/-- The pixels of a whole packed plane (R292). -/
theorem planePixels_of_length (pd : DecPalette) {n : Nat} {got : List Byte}
    (hlen : got.length = packedLen n) :
    planePixels pd n got = (unpack got n).flatMap fun i => expand pd (indexByte i) := by
  have hall : min n (4 * got.length) = n := by
    rw [hlen]
    unfold packedLen
    omega
  rw [planePixels, hall]

/-- Settles O58: both read the same tokens, which make exactly the packed plane. -/
theorem decPlaneIsRleDecUnpackQdec : Obligations.DecPlaneIsRleDecUnpackQdec := by
  intro s t s1 t1 s2 t2 s3 t3 j j1 j2 j3 h h1 h2 h3 hn2 hn3 hpd hin hlen hin2 hin3
  have hplane : (outputOf t1 j1).length = packedLen j.n.toNat := by
    rw [outputOf, Memory.length_readBytes, hlen]
  rw [h.outputOf_decPlane, ← hin, ← h1.outputOf_rleDec, List.take_of_length_le hplane.le,
    planePixels_of_length _ hplane, h3.outputOf_qdec, hpd, hn3, hin3, h2.outputOf_unpack, hn2, hin2,
    List.flatMap_map]

/-! ### Every token of an encoding makes bytes (R167) -/

/-- A stream is a list of complete tokens, each of which makes a byte. -/
def MadeOfFullTokens (stream : List Byte) : Prop :=
  ∃ ts, (∀ t ∈ ts, t.legal = true ∧ t.bytes ≠ []) ∧ streamOf ts = stream

theorem MadeOfFullTokens.append {a b : List Byte} (ha : MadeOfFullTokens a)
    (hb : MadeOfFullTokens b) : MadeOfFullTokens (a ++ b) := by
  obtain ⟨ts, hts, rfl⟩ := ha
  obtain ⟨ts', hts', rfl⟩ := hb
  exact ⟨ts ++ ts', fun t ht => (List.mem_append.mp ht).elim (hts t) (hts' t),
    List.flatMap_append⟩

theorem MadeOfFullTokens.flatten {l : List (List Byte)} (h : ∀ a ∈ l, MadeOfFullTokens a) :
    MadeOfFullTokens l.flatten := by
  induction l with
  | nil => exact ⟨[], nofun, rfl⟩
  | cons a l ih => exact (h a (by simp)).append (ih fun b hb => h b (by simp [hb]))

theorem madeOfFullTokens_replicate {v : Byte} (hv : v ≠ escapeByte) (n : Nat) :
    MadeOfFullTokens (List.replicate n v) := by
  refine ⟨List.replicate n (.lit v), fun t ht => ?_, ?_⟩
  · rw [List.eq_of_mem_replicate ht]
    exact ⟨decide_eq_true hv, List.cons_ne_nil v []⟩
  · simp [streamOf, Token.stream, List.flatMap_replicate]

/-- An encoder's count is 1 to 255, so it is not 0 as a byte (R162). -/
theorem madeOfFullTokens_escapeSeq (v : Byte) {n : Nat} (hpos : 1 ≤ n) (hn : n ≤ 255) :
    MadeOfFullTokens (escapeSeq n v) := by
  have hcount : (BitVec.ofNat 8 n).toNat = n := by
    rw [BitVec.toNat_ofNat]
    omega
  refine ⟨[.esc (BitVec.ofNat 8 n) v], fun t ht => ?_, rfl⟩
  rw [List.mem_singleton.mp ht, Token.bytes, hcount, ← List.length_pos_iff_ne_nil,
    List.length_replicate]
  exact ⟨rfl, hpos⟩

theorem madeOfFullTokens_tailChunk (tail : TailMode) (v : Byte) {r : Nat} (hpos : 1 ≤ r)
    (hr : r ≤ 255) : MadeOfFullTokens (tailChunk tail v r) := by
  rw [tailChunk]
  split
  next h => exact madeOfFullTokens_replicate h.2.1 r
  next => exact madeOfFullTokens_escapeSeq v hpos hr

theorem madeOfFullTokens_emitRun (tail : TailMode) {r : Byte × Nat} (hpos : 1 ≤ r.2) :
    MadeOfFullTokens (emitRun tail r) := by
  rw [emitRun]
  split
  next h => exact madeOfFullTokens_replicate h.1 r.2
  next =>
    refine (MadeOfFullTokens.flatten fun a ha => ?_).append
      (madeOfFullTokens_tailChunk tail r.1 (by omega) (by omega))
    rw [List.eq_of_mem_replicate ha]
    exact madeOfFullTokens_escapeSeq r.1 (by decide) (by decide)

theorem madeOfFullTokens_rleEncode (tail : TailMode) (x : List Byte) :
    MadeOfFullTokens (rleEncode tail x) := by
  rw [rleEncode, List.flatMap_def]
  refine MadeOfFullTokens.flatten fun a ha => ?_
  obtain ⟨r, hr, rfl⟩ := List.mem_map.mp ha
  exact madeOfFullTokens_emitRun tail (runs_pos x r hr)

theorem tokens_streamOf {ts : List Token} (hlegal : ∀ t ∈ ts, t.legal = true) :
    tokens (streamOf ts) = (ts, false) := by
  have h := tokens_append ts hlegal []
  rwa [List.append_nil, tokens, List.append_nil] at h

/-- An encoding is a list of complete tokens that make its input, none of them for nothing. -/
theorem exists_tokens_rleEncode (tail : TailMode) (x : List Byte) :
    ∃ ts, tokens (rleEncode tail x) = (ts, false) ∧ streamOf ts = rleEncode tail x ∧
      decodedOf ts = x ∧ ∀ t ∈ ts, t.bytes ≠ [] := by
  obtain ⟨ts, hlegal, hstream, hdecoded⟩ := decodesTo_rleEncode tail x
  obtain ⟨ts', hfull, hstream'⟩ := madeOfFullTokens_rleEncode tail x
  have hts := tokens_streamOf hlegal
  have hts' := tokens_streamOf fun t ht => (hfull t ht).1
  rw [hstream] at hts
  rw [hstream', hts] at hts'
  obtain rfl : ts = ts' := congrArg Prod.fst hts'
  exact ⟨ts, hts, hstream, hdecoded, fun t ht => (hfull t ht).2⟩

/-! ### The plane round trip (R295) -/

/-- DEC_PLANE of the encoding of a whole packed plane uses all of it, without surplus (R295). -/
theorem decPlane_of_rleEncode {tail : TailMode} {x : List Byte} {s : State} {j : Job}
    (hr : Ready s j) (hram : InRam s.params j) (hdisjoint : ¬ Overlap j)
    (hcap : 4 * j.n.toNat ≤ j.cap.toNat) (hin : inputOf s j = rleEncode tail x)
    (hlen : x.length = packedLen j.n.toNat) :
    ∃ t, exec .decPlane s = .next t ∧
      Stored s t j.dst.toNat (planePixels j.pd j.n.toNat x) ∧
      t.results.inUsed = j.slen ∧ t.status.errcode = .none ∧ t.status.xs = false := by
  obtain ⟨ts, htokens, hstream, rfl, hmakes⟩ := exists_tokens_rleEncode tail x
  have hp : prologue s.params j
      { usesWidth := false, need := none, outsize := some (4 * j.n.toNat) } = none :=
    (prologue_none_iff _ _ _).mpr
      ⟨by simp [FailsWidth], hram, hdisjoint, by simp [FailsNeed], by simpa [FailsSize] using hcap⟩
  have hslen : (streamOf ts).length = j.slen.toNat := by
    rw [hstream, ← hin, inputOf, Memory.length_readBytes]
  have hloop : gather (packedLen j.n.toNat) j.slen.toNat (tokens (inputOf s j)).2
      (tokens (inputOf s j)).1 0 0 false =
      { got := decodedOf ts, used := j.slen.toNat, surplus := false, error := none } := by
    rw [hin, htokens, gather_exact hmakes 0 0 (by rw [Nat.zero_add, hlen]), Nat.zero_add, hslen]
  obtain ⟨hstored, ⟨-, hused, -⟩, -, -, -, hcode, -, hxs, -⟩ :=
    decPlane_leaves hp hloop hr le_rfl (Nat.zero_le _)
  refine ⟨_, exec_busy .decPlane hr.1, hstored, BitVec.eq_of_toNat_eq hused, hcode, ?_⟩
  rw [← Bool.not_eq_true, hxs]
  simp

/-- Pixel `i` of a plane of `n` indices is the decoder colour of index `i` (R231, R292). -/
theorem Stored.pixel_planePixels {s t : State} {a : Nat} {pd : DecPalette} {ix : List Index}
    {n : Nat} (h : Stored s t a (planePixels pd n (pack ix))) (hn : ix.length = n) {i : Nat}
    (hi : i < ix.length) :
    t.mem.read (a + 4 * i + 3) ++ rgbAt t.mem a i = decColour pd (indexByte ix[i]) := by
  subst hn
  refine append_rgbAt_of_bytes fun k hk => ?_
  have hplane := planePixels_of_length pd (length_pack ix)
  rw [unpack_pack] at hplane
  rw [hplane] at h
  have hplace : 4 * i + k < (ix.flatMap fun i => expand pd (indexByte i)).length := by
    rw [length_flatMap_of_const _ 4 fun i => length_expand pd (indexByte i)]
    omega
  rw [Nat.add_assoc, h.read_eq_getD hplace,
    getD_flatMap_of_const _ (fun i => length_expand pd (indexByte i)) _ _ hi hk, getD_expand _ _ hk]

/-- Settles O59: the stream makes the packed indices back, and each pixel is the decoder colour of its index. -/
theorem planeRoundTrip : Obligations.PlaneRoundTrip := by
  intro s t s' j j' henc hr hn hin hram hdisjoint hcap h0 h1 h2
  have hindices : ((classes s.mem j j.n.toNat).map PixelClass.index).length = j.n.toNat := by
    rw [List.length_map, length_classes]
  have hslen : j'.slen = t.results.outLen := by
    have hlen := congrArg List.length hin
    rw [inputOf, outputOf, Memory.length_readBytes, Memory.length_readBytes] at hlen
    exact BitVec.eq_of_toNat_eq hlen
  obtain ⟨t', ht', hstored, hused, hcode, hxs⟩ := decPlane_of_rleEncode hr hram hdisjoint
    (hn ▸ hcap) (hin.trans henc.outputOf_encPlane) (by rw [length_pack, hindices, hn])
  refine ⟨t', ht', hcode, hxs, hused.trans hslen, fun i hi => ?_⟩
  have hcolour := hstored.pixel_planePixels (hn ▸ hindices) (i := i) (hindices.symm ▸ hi)
  rw [List.getElem_map, getElem_classes] at hcolour
  intro c pixel
  have hpixel : pixel = decColour j'.pd (indexByte (classify j.pe c).index) := hcolour
  rw [hpixel]
  exact ⟨decColour_indexByte_classify _ _ _, setWidth_decColour_classify _ _ _ h0 h1 h2⟩

end Sys2Proof.Machine
end

section
/-! PROOFS of the family 60_exceptions: the completion of an illegal word (R123, R322). Its rule only raises
ILLEGAL_CMD, so it writes no byte and the result registers keep their acceptance values. -/

namespace Sys2Proof.Machine

theorem engineStep_of_illegal {s : State} {j : Job} (hz : j.hazard = false)
    (hillegal : ∃ e, decode j.cmdw = .error e) :
    engineStep j s = .next (illegalCompletion s j) := by
  obtain ⟨e, he⟩ := hillegal
  simp [engineStep, hz, he]

/-- An error other than TRUNCATED leaves ERR_POS at 0 (R330), so the results are those of acceptance. -/
theorem results_illegalCompletion {s : State} (j : Job) (hres : s.results = .accepted) :
    (illegalCompletion s j).results = .accepted := by
  rw [illegalCompletion, complete_results, Effects.raise, Effects.start_results, hres]
  rfl

/-- The completion of an illegal word fails as a prologue error does. -/
theorem failedCleanly_illegalCompletion {s : State} (j : Job) (hres : s.results = .accepted) :
    FailedCleanly s (illegalCompletion s j) .illegalCmd 0 := by
  have hbytes : SameBytes s (illegalCompletion s j) := fun _ => rfl
  have hresults : ResultsAre (illegalCompletion s j) 0 0 0 0xFFFFFFFF 0 := by
    rw [ResultsAre, results_illegalCompletion j hres]
    exact ⟨rfl, rfl, rfl, rfl, rfl⟩
  have hcount : ¬ 0 < ((Effects.start s).raise .illegalCmd 0).results.clsCount.toNat := by
    rw [Effects.raise_clsCount, Effects.start_results, hres]
    decide
  exact ⟨hbytes, hresults,
    (finished_complete s j _).congr (iff_false_intro hcount) (by simp) (by simp)⟩

/-- Settles O9: the reserved words are those that do not decode (O3), and the engine completes such a word with
ILLEGAL_CMD. -/
theorem illegalWordCompletesWithIllegalCmd : Obligations.IllegalWordCompletesWithIllegalCmd := by
  rintro s j ⟨hj, hinv⟩ hz hturn hreserved
  have hillegal : ∃ e, decode j.cmdw = .error e :=
    (illegalWordsAreExactlyTheReservedOnes j.cmdw).1.mpr hreserved
  have hstep : step s = .next (illegalCompletion { s with sched := s.sched.tail } j) := by
    rw [step_engine hj hturn, engineStep_of_illegal hz hillegal]
  have hcmd : readReg (illegalCompletion { s with sched := s.sched.tail } j) .cmd = j.cmdw :=
    hinv.busy_cmd j hj
  exact ⟨_, hstep, failedCleanly_illegalCompletion j (hinv.busy_results j hj), hcmd,
    rfl, rfl, rfl, rfl, rfl⟩

end Sys2Proof.Machine
end
